-- ==== Sys2Proof/Word.lean ====
section
/-! DEFINITION. The word types of the chipset block (R9, R61): fixed widths, one name each. -/

namespace Sys2Proof

/-- A byte: a port datum, a PIC register, a vector number (R9). -/
abbrev Byte := BitVec 8

/-- A 16-bit value: a timer count, a port number, an EEPROM word, an IDT limit, a selector. -/
abbrev Half := BitVec 16

/-- A 32-bit value: one register of the NIC file, a page-fault error code. -/
abbrev Dword := BitVec 32

/-- A 64-bit value: a linear or physical address, a table root, a flags word, a pending-mask word. -/
abbrev Quad := BitVec 64

/-- A network frame: "a finite byte string" (R36). -/
abbrev Frame := List Byte

end Sys2Proof
end

