-- ==== Sys2Proof/Config.lean ====
section
/-! DEFINITION. The named implementation parameters of R8. They are plain data that State carries and no
operation changes, so a claim about every state is a claim for every value of every parameter, the OPEN ones
included (notes/assumptions/4.md). -/

namespace Sys2Proof

/-- `PERM_SCOPE`: how the shared permission check is applied across walk levels (R170, R171). -/
inductive PermScope where
  /-- R170: the rights of every visited entry are tested together at the mapping level. -/
  | combined
  /-- R171: each entry's rights are tested right after its present test. -/
  | perLevelInOrder
deriving DecidableEq, Repr

/-- `NIC_OFF_*` as register indexes, index = offset / 4 (R120). -/
structure NicMap where
  ctrl   : BitVec 15
  status : BitVec 15
  eerd   : BitVec 15
  icr    : BitVec 15
  ics    : BitVec 15
  ims    : BitVec 15
  imc    : BitVec 15
  ral0   : BitVec 15
  rah0   : BitVec 15
deriving DecidableEq, Repr

/-- One kind of guest access that `NIC_TX_PATH` names (R8, R328), of any of R7's four: a read or a write of that many
bytes at a port or at an offset of the NIC window, a write being named by its value's bits under a mask
(notes/assumptions/8.md). -/
inductive TxAccess where
  | portRead (port : Half) (width : Nat)
  | portWrite (port : Half) (width : Nat) (mask value : Dword)
  | mmioRead (off : Quad) (width : Nat)
  | mmioWrite (off : Quad) (width : Nat) (mask value : Quad)
deriving DecidableEq, Repr

/-- The parameters of R8 that the block or the reference router reads. `PAGING` is an operand of the
resolvers (R23), `NIC_MAC` and `NIC_EEPROM` are arguments of power-on and fields of the NIC (R35), and `MemError` is
a type argument of every function that reads guest memory (Machine/State.lean). -/
structure Params where
  /-- `PERM_SCOPE` (D6). -/
  permScope   : PermScope
  /-- `MAXPHYADDR` (D5). -/
  maxPhyAddr  : Nat
  /-- `PIC_M_CMD`, `PIC_M_DATA`, `PIC_S_CMD`, `PIC_S_DATA` (R91, D17). -/
  picMCmd     : Half
  picMData    : Half
  picSCmd     : Half
  picSData    : Half
  /-- `PIT_BASE`: channels at +0 .. +2, control at +3 (R104, D17). -/
  pitBase     : Half
  /-- `ICW2_MASK` (R96, D20). -/
  icw2Mask    : Byte
  /-- `NIC_OFF_*` (R120, D43). -/
  nicMap      : NicMap
  /-- `NIC_STATUS_VALUE` (R122, D45). -/
  nicStatus   : Dword
  /-- `NIC_RAH_AV` (R37, D52). -/
  nicRahAv    : Bool
  /-- `LM_GP_SCALE` (R146, D62). -/
  lmGpScale   : Nat
  /-- `NIC_MMIO_BASE`, OPEN (R93): read by the reference router only. -/
  nicMmioBase : Quad
  /-- `NIC_IRQ_LINE`, OPEN (R411): read by the reference router only. -/
  nicIrqLine  : Nat
  /-- `NIC_TX_PATH`, OPEN: the guest accesses after which the router queues a frame (R328); read by the reference
  router only, since no operation of R306 appends to `nic.tx`. -/
  nicTxPath   : List TxAccess
deriving DecidableEq, Repr

/-- The Intel 82540EM offsets of R120, divided by 4. -/
def NicMap.default : NicMap :=
  { ctrl := 0, status := 2, eerd := 5, icr := 48, ics := 50, ims := 52, imc := 54, ral0 := 5376, rah0 := 5377 }

/-- The defaults of R8. The OPEN ones hold values the model names (notes/assumptions/4.md): `nicMmioBase` 0xFEBC_0000,
`nicIrqLine` 11, the line program P4 of 95_test_vectors.md assumes, and `nicTxPath` empty ("none in this spec",
R8). -/
def Params.default : Params :=
  { permScope := .combined, maxPhyAddr := 52,
    picMCmd := 0x20, picMData := 0x21, picSCmd := 0xA0, picSData := 0xA1, pitBase := 0x40,
    icw2Mask := 0xF8, nicMap := NicMap.default, nicStatus := 0x83, nicRahAv := true, lmGpScale := 16,
    nicMmioBase := 0xFEBC0000, nicIrqLine := 11, nicTxPath := [] }

/-- The numbers of the eight ports the block's devices decode (R91, R104). `PIT_BASE + k` is a sum of unbounded
integers (R10): past 0xFFFF it is the number of no port, since port numbers are 16 bits (R61;
notes/assumptions/19.md). -/
def Params.ports (p : Params) : List Nat :=
  [p.picMCmd.toNat, p.picMData.toNat, p.picSCmd.toNat, p.picSData.toNat,
    p.pitBase.toNat, p.pitBase.toNat + 1, p.pitBase.toNat + 2, p.pitBase.toNat + 3]

/-- The timer's port `PIT_BASE + k` is one of the 2^16 ports there are (R10, R61). -/
def Params.hasPitPort (p : Params) (k : Nat) : Bool := decide (p.pitBase.toNat + k < 2 ^ 16)

/-- The nine named register indexes (R120). -/
def NicMap.indexes (n : NicMap) : List (BitVec 15) :=
  [n.ctrl, n.status, n.eerd, n.icr, n.ics, n.ims, n.imc, n.ral0, n.rah0]

/-- A legal configuration: no two of the block's ports coincide and no two named NIC registers coincide
(R91, R104 and R120 give each its own place). -/
abbrev Params.WellFormed (p : Params) : Prop :=
  p.ports.Nodup ∧ p.nicMap.indexes.Nodup

end Sys2Proof
end

