-- ==== Sys2Proof/Syntax.lean ====
section
/-! DEFINITION. The operations of the block, one constructor of `Instr` for each row of spec/opcode_table.json
(R90), and the requests by which they reach it. The block has no instruction stream (30_encoding.md): a guest
operation is encoded as a (port, byte) or (offset, width, value) triple and a host operation has no encoding
(R149). -/

namespace Sys2Proof

/-- Which chip of the PIC pair (R26). -/
inductive Chip where
  | master
  | slave
deriving DecidableEq, Repr

/-- A chip's `step` (R27): 0 = `done`, 1, 2, 3 = the initialization word the next data-port write is. -/
inductive InitStep where
  | done
  | icw2
  | icw3
  | icw4
deriving DecidableEq, Repr

/-- The `step` of each chip: what a PIC data-port byte's decoding depends on (R102, R148). -/
structure PicSteps where
  master : InitStep
  slave  : InitStep
deriving DecidableEq, Repr

/-- The three timer channels (R30). -/
inductive PitChan where
  | c0
  | c1
  | c2
deriving DecidableEq, Repr

/-- A channel's number (R30). -/
def PitChan.number : PitChan → Nat
  | .c0 => 0
  | .c1 => 1
  | .c2 => 2

/-- A timer channel's access mode (R31, R107). -/
inductive PitAccess where
  | loOnly
  | hiOnly
  | loHi
deriving DecidableEq, Repr

/-- The kind of a translated access (R13, R150). -/
inductive AccessKind where
  | read
  | write
  | execute
deriving DecidableEq, Repr

/-- The caller's execution mode: `Real`, `Protected`, `Long` (R13, R435). -/
inductive ExecMode where
  | real
  | prot
  | long
deriving DecidableEq, Repr

/-- The translation configuration: five booleans, an operand and not state (R24, 90_conflicts.md C1). -/
structure TransCfg where
  pae  : Bool
  long : Bool
  pse  : Bool
  wp   : Bool
  nxe  : Bool
deriving DecidableEq, Repr

/-- The translation context the caller passes to a gate resolver: `PAGING`, `cfg`, `cr3` (R23). -/
structure TransCtx where
  paging : Bool
  cfg    : TransCfg
  cr3    : Quad
deriving DecidableEq, Repr

/-- The access widths the NIC accepts: 1, 2 or 4 bytes (R66, R302). -/
inductive NicWidth where
  | b1
  | b2
  | b4
deriving DecidableEq, Repr

/-- The number of bytes of a NIC access. -/
def NicWidth.bytes : NicWidth → Nat
  | .b1 => 1
  | .b2 => 2
  | .b4 => 4

/-- The operations of R90, in the table's order but for `nicIcrR`, which the table lists after `nicImcW`.
A PIC write row carries the byte written; a timer control row carries the control word's fields (R256, R258);
a NIC register row carries the byte lane `off & 3`, the width and the value of the access that reaches the
register (notes/assumptions/9.md). -/
inductive Instr where
  | translate (la : Quad) (kind : AccessKind) (cpl : BitVec 2) (cfg : TransCfg) (cr3 : Quad)
  | picIcw1 (c : Chip) (v : Byte)
  | picIcw2 (c : Chip) (v : Byte)
  | picIcw3 (c : Chip) (v : Byte)
  | picIcw4 (c : Chip) (v : Byte)
  | picOcw1 (c : Chip) (v : Byte)
  | picOcw2Nseoi (c : Chip) (v : Byte)
  | picOcw2Seoi (c : Chip) (v : Byte)
  | picOcw2Other (c : Chip) (v : Byte)
  | picOcw3Rr (c : Chip) (v : Byte)
  | picOcw3Norr (c : Chip) (v : Byte)
  | picReadCmd (c : Chip)
  | picReadData (c : Chip)
  | picRaise (n : Nat)
  | picLower (n : Nat)
  | picResolve
  | picAck (n : Nat)
  | pitCtrlMode (c : PitChan) (rw : PitAccess) (m : BitVec 3) (bcd : Bool)
  | pitCtrlLatch (c : PitChan) (low : BitVec 4)
  | pitCtrlReadback (low : BitVec 6)
  | pitCountWrite (c : PitChan) (v : Byte)
  | pitCountRead (c : PitChan)
  | pitCtrlRead
  | pitTick
  | pitSetGate (c : Nat) (level : Bool)
  | nicRead (off : Quad) (w : Nat)
  | nicWrite (off : Quad) (w : Nat) (v : Quad)
  | nicCtrlW (k : BitVec 2) (w : NicWidth) (v : Dword)
  | nicStatusW (k : BitVec 2) (w : NicWidth) (v : Dword)
  | nicEerdW (k : BitVec 2) (w : NicWidth) (v : Dword)
  | nicIcrW (k : BitVec 2) (w : NicWidth) (v : Dword)
  | nicIcsW (k : BitVec 2) (w : NicWidth) (v : Dword)
  | nicImsW (k : BitVec 2) (w : NicWidth) (v : Dword)
  | nicImcW (k : BitVec 2) (w : NicWidth) (v : Dword)
  | nicIcrR (k : BitVec 2) (w : NicWidth)
  | nicPlainW (idx : BitVec 15) (k : BitVec 2) (w : NicWidth) (v : Dword)
  | nicReceive (f : Frame)
  | nicDrainTx
  | nicQueueTx (f : Frame)
  | nicIrqLevel
  | dpRaise (v : Byte)
  | dpAck (v : Byte)
  | dpSample (flags : Quad)
  | dpSetShadow (b : Bool)
  | dpSetHandling (b : Bool)
  | dpGetHandling
  | dpResolveReal (v : Byte) (base : Quad)
  | dpResolveProt (v : Byte) (base : Quad) (limit : Half) (tc : TransCtx)
  | dpResolveLong (v : Byte) (base : Quad) (limit : Half) (tc : TransCtx)
  | dpResolve (mode : ExecMode) (v : Byte) (base : Quad) (limit : Half) (tc : TransCtx)
deriving DecidableEq, Repr

/-- One access or call as it reaches the block (R16): a guest port or MMIO access of any width, or a host
call, which has no encoding (R149) and so carries the operation itself. -/
inductive Request where
  | portWrite (port : Half) (width : Nat) (v : Dword)
  | portRead (port : Half) (width : Nat)
  | mmioWrite (off : Quad) (width : Nat) (v : Quad)
  | mmioRead (off : Quad) (width : Nat)
  | call (i : Instr)
deriving DecidableEq, Repr

end Sys2Proof
end

