-- ==== Sys2Proof/WellFormed.lean ====
section
/-! DEFINITION. Which terms of `Instr` are operations of the block: the bit patterns of R90 and R94 to R101 for
the PIC's command bytes, for a timer access that its port is one of the 2^16 there are (R61, R104), and for a plain
NIC write the register index (R321, R126). Every other operand is legal at every value: lines and channels out of
range are operations without effect (D29, R282). -/

namespace Sys2Proof

/-- The register indexes whose write is not plain (R306); RAL0 and RAH0 are plain (R321). -/
def NicMap.sideEffecting (n : NicMap) : List (BitVec 15) :=
  [n.ctrl, n.status, n.eerd, n.icr, n.ics, n.ims, n.imc]

/-- The operation's operands have the bits its row of R90 asks for, and a timer access has a port. -/
def Instr.wf (p : Params) : Instr → Bool
  | .translate _ _ _ _ _ => true
  | .picIcw1 _ v => v.getLsbD 4
  | .picIcw2 _ _ => true
  | .picIcw3 _ _ => true
  | .picIcw4 _ _ => true
  | .picOcw1 _ _ => true
  | .picOcw2Nseoi _ v => v.extractLsb' 3 5 == 0b00100#5
  | .picOcw2Seoi _ v => v.extractLsb' 3 5 == 0b01100#5
  | .picOcw2Other _ v => v.extractLsb' 3 2 == 0#2 && v.extractLsb' 5 3 != 0b001#3 && v.extractLsb' 5 3 != 0b011#3
  | .picOcw3Rr _ v => v.extractLsb' 3 2 == 0b01#2 && v.getLsbD 1
  | .picOcw3Norr _ v => v.extractLsb' 3 2 == 0b01#2 && !v.getLsbD 1
  | .picReadCmd _ => true
  | .picReadData _ => true
  | .picRaise _ => true
  | .picLower _ => true
  | .picResolve => true
  | .picAck _ => true
  | .pitCtrlMode _ _ _ _ => p.hasPitPort 3
  | .pitCtrlLatch _ _ => p.hasPitPort 3
  | .pitCtrlReadback _ => p.hasPitPort 3
  | .pitCountWrite c _ => p.hasPitPort c.number
  | .pitCountRead c => p.hasPitPort c.number
  | .pitCtrlRead => p.hasPitPort 3
  | .pitTick => true
  | .pitSetGate _ _ => true
  | .nicRead _ _ => true
  | .nicWrite _ _ _ => true
  | .nicCtrlW _ _ _ => true
  | .nicStatusW _ _ _ => true
  | .nicEerdW _ _ _ => true
  | .nicIcrW _ _ _ => true
  | .nicIcsW _ _ _ => true
  | .nicImsW _ _ _ => true
  | .nicImcW _ _ _ => true
  | .nicIcrR _ _ => true
  | .nicPlainW idx _ _ _ => !p.nicMap.sideEffecting.contains idx
  | .nicReceive _ => true
  | .nicDrainTx => true
  | .nicQueueTx _ => true
  | .nicIrqLevel => true
  | .dpRaise _ => true
  | .dpAck _ => true
  | .dpSample _ => true
  | .dpSetShadow _ => true
  | .dpSetHandling _ => true
  | .dpGetHandling => true
  | .dpResolveReal _ _ => true
  | .dpResolveProt _ _ _ _ => true
  | .dpResolveLong _ _ _ _ => true
  | .dpResolve _ _ _ _ _ => true

/-- A chip's entry of `PicSteps`. -/
def PicSteps.of (t : PicSteps) : Chip → InitStep
  | .master => t.master
  | .slave => t.slave

/-- The row's condition on the chips' `step` (R102, R212 to R215): which of the four data-port writes a byte is.
Every other row is decoded the same way in every step (R94, R233). -/
def Instr.atStep (t : PicSteps) : Instr → Bool
  | .picIcw2 c _ => t.of c == .icw2
  | .picIcw3 c _ => t.of c == .icw3
  | .picIcw4 c _ => t.of c == .icw4
  | .picOcw1 c _ => t.of c == .done
  | _ => true

end Sys2Proof
end

