-- ==== Sys2Proof/Decode.lean ====
section
/-! DEFINITION. From a request (R16) to the operation of R90 it is, total, rejecting by name; and the encoder
back. Which ports the block decodes: R91, R104, R200, R250; command byte: R94, R100, R101; data byte: R102;
control word: R105 to R108; NIC offset: R93, R120, R302. -/

namespace Sys2Proof

/-- Why a request is no operation of R90. The first four are R67's malformed port accesses, which the machine
absorbs; `notHostCall` is a host call of something that is not a host operation. -/
inductive Reject where
  | wideWrite (width : Nat)
  | wideRead (width : Nat)
  | unknownWrite (port : Half)
  | unknownRead (port : Half)
  | notHostCall
deriving DecidableEq, Repr

/-- What a port of the block is (R91, R104). -/
inductive PortDev where
  | picCmd (c : Chip)
  | picData (c : Chip)
  | pitCount (c : PitChan)
  | pitCtrl
deriving DecidableEq, Repr

/-- The number of the port of each of the block's device registers (R91, R104), `PIT_BASE + k` unbounded (R10). -/
def portNumber (p : Params) : PortDev → Nat
  | .picCmd .master => p.picMCmd.toNat
  | .picCmd .slave => p.picSCmd.toNat
  | .picData .master => p.picMData.toNat
  | .picData .slave => p.picSData.toNat
  | .pitCount c => p.pitBase.toNat + c.number
  | .pitCtrl => p.pitBase.toNat + 3

/-- The block's device registers, in the order in which a port is matched against them (notes/assumptions/4.md). -/
def portDevs : List PortDev :=
  [.picCmd .master, .picData .master, .picCmd .slave, .picData .slave,
    .pitCount .c0, .pitCount .c1, .pitCount .c2, .pitCtrl]

/-- The port map of R91 with the parameters of R8; none where none of the block's devices decodes the port. A port
has a 16-bit number (R61), so no port reaches a timer register whose number is past 0xFFFF
(notes/assumptions/19.md). -/
def portDevice (p : Params) (port : Half) : Option PortDev :=
  portDevs.find? (fun d => decide (port.toNat = portNumber p d))

/-- The port of each of the block's device registers, where there is one (R61, R91, R104; `Instr.wf`). -/
def devicePort (p : Params) (d : PortDev) : Half := BitVec.ofNat 16 (portNumber p d)

/-- A PIC command-port byte, decoded in the order of R94, then by R100 and R101; the same in every step. -/
def decodeCommand (c : Chip) (v : Byte) : Instr :=
  if v.getLsbD 4 then .picIcw1 c v
  else if v.getLsbD 3 then
    if v.getLsbD 1 then .picOcw3Rr c v else .picOcw3Norr c v
  else if v.extractLsb' 5 3 = 0b001#3 then .picOcw2Nseoi c v
  else if v.extractLsb' 5 3 = 0b011#3 then .picOcw2Seoi c v
  else .picOcw2Other c v

/-- A PIC data-port byte, decoded by the chip's `step` (R102). -/
def decodeData (t : InitStep) (c : Chip) (v : Byte) : Instr :=
  match t with
  | .icw2 => .picIcw2 c v
  | .icw3 => .picIcw3 c v
  | .icw4 => .picIcw4 c v
  | .done => .picOcw1 c v

/-- The `SC` field (R106): 11 selects no channel (read-back). -/
def pitChanOf (sc : BitVec 2) : Option PitChan :=
  if sc = 0b00#2 then some .c0 else if sc = 0b01#2 then some .c1 else if sc = 0b10#2 then some .c2 else none

/-- The `SC` code of a channel (R106). -/
def pitChanCode : PitChan → BitVec 2
  | .c0 => 0b00#2
  | .c1 => 0b01#2
  | .c2 => 0b10#2

/-- The `RW` field (R107): 00 is no access mode (latch). -/
def pitAccessOf (rw : BitVec 2) : Option PitAccess :=
  if rw = 0b01#2 then some .loOnly else if rw = 0b10#2 then some .hiOnly else if rw = 0b11#2 then some .loHi else none

/-- The `RW` code of an access mode (R107). -/
def pitAccessCode : PitAccess → BitVec 2
  | .loOnly => 0b01#2
  | .hiOnly => 0b10#2
  | .loHi => 0b11#2

/-- A timer control word, decoded in the order of R105: read-back, latch, mode. -/
def decodeControl (v : Byte) : Instr :=
  match pitChanOf (v.extractLsb' 6 2) with
  | none => .pitCtrlReadback (v.extractLsb' 0 6)
  | some c =>
    match pitAccessOf (v.extractLsb' 4 2) with
    | none => .pitCtrlLatch c (v.extractLsb' 0 4)
    | some rw => .pitCtrlMode c rw (v.extractLsb' 1 3) (v.getLsbD 0)

/-- A byte write to a port of the block (R92). -/
def decodePortWrite (t : PicSteps) (d : PortDev) (v : Byte) : Instr :=
  match d with
  | .picCmd c => decodeCommand c v
  | .picData c => decodeData (t.of c) c v
  | .pitCount c => .pitCountWrite c v
  | .pitCtrl => decodeControl v

/-- A byte read of a port of the block (R92). -/
def decodePortRead : PortDev → Instr
  | .picCmd c => .picReadCmd c
  | .picData c => .picReadData c
  | .pitCount c => .pitCountRead c
  | .pitCtrl => .pitCtrlRead

/-- The access width of a byte count, for the widths the NIC accepts (R302). -/
def nicWidthOf (w : Nat) : Option NicWidth :=
  if w = 1 then some .b1 else if w = 2 then some .b2 else if w = 4 then some .b4 else none

/-- The size of the NIC window in bytes: 128 KiB (R60, R302). -/
def nicWindow : Nat := 0x20000

/-- The register index `off >> 2` of an offset within the window (R93). -/
def nicIndex (off : Quad) : BitVec 15 := BitVec.ofNat 15 (off.toNat / 4)

/-- The byte lane `off & 3` of an offset (R93). -/
def nicLane (off : Quad) : BitVec 2 := BitVec.ofNat 2 off.toNat

/-- The window offset of lane k of register idx (R34, R63). -/
def nicOffset (idx : BitVec 15) (k : BitVec 2) : Quad := BitVec.ofNat 64 (4 * idx.toNat + k.toNat)

/-- Which row a write of register idx is, in the order of R306. -/
def decodeNicWrite (n : NicMap) (idx : BitVec 15) (k : BitVec 2) (w : NicWidth) (v : Dword) : Instr :=
  if idx = n.ctrl then .nicCtrlW k w v
  else if idx = n.status then .nicStatusW k w v
  else if idx = n.eerd then .nicEerdW k w v
  else if idx = n.icr then .nicIcrW k w v
  else if idx = n.ics then .nicIcsW k w v
  else if idx = n.ims then .nicImsW k w v
  else if idx = n.imc then .nicImcW k w v
  else .nicPlainW idx k w v

/-- An MMIO write (R306): the row of the register it touches; a malformed access (R302) touches none and is the
general row `NIC.WRITE`. Value bits beyond the width are ignored (R306). -/
def decodeMmioWrite (p : Params) (off : Quad) (w : Nat) (v : Quad) : Instr :=
  match nicWidthOf w with
  | none => .nicWrite off w v
  | some nw =>
    if off.toNat < nicWindow then decodeNicWrite p.nicMap (nicIndex off) (nicLane off) nw (v.setWidth 32)
    else .nicWrite off w v

/-- An MMIO read (R305): `NIC.ICR.R` where it touches ICR, else the general row `NIC.READ`. -/
def decodeMmioRead (p : Params) (off : Quad) (w : Nat) : Instr :=
  match nicWidthOf w with
  | none => .nicRead off w
  | some nw =>
    if off.toNat < nicWindow then
      if nicIndex off = p.nicMap.icr then .nicIcrR (nicLane off) nw else .nicRead off w
    else .nicRead off w

/-- The operations a caller issues by a call: the host rows of R90, and `NIC.READ` and `NIC.WRITE`, the NIC's
entry points (R16). -/
def Instr.isCall : Instr → Bool
  | .translate _ _ _ _ _ => true
  | .picIcw1 _ _ => false
  | .picIcw2 _ _ => false
  | .picIcw3 _ _ => false
  | .picIcw4 _ _ => false
  | .picOcw1 _ _ => false
  | .picOcw2Nseoi _ _ => false
  | .picOcw2Seoi _ _ => false
  | .picOcw2Other _ _ => false
  | .picOcw3Rr _ _ => false
  | .picOcw3Norr _ _ => false
  | .picReadCmd _ => false
  | .picReadData _ => false
  | .picRaise _ => true
  | .picLower _ => true
  | .picResolve => true
  | .picAck _ => true
  | .pitCtrlMode _ _ _ _ => false
  | .pitCtrlLatch _ _ => false
  | .pitCtrlReadback _ => false
  | .pitCountWrite _ _ => false
  | .pitCountRead _ => false
  | .pitCtrlRead => false
  | .pitTick => true
  | .pitSetGate _ _ => true
  | .nicRead _ _ => true
  | .nicWrite _ _ _ => true
  | .nicCtrlW _ _ _ => false
  | .nicStatusW _ _ _ => false
  | .nicEerdW _ _ _ => false
  | .nicIcrW _ _ _ => false
  | .nicIcsW _ _ _ => false
  | .nicImsW _ _ _ => false
  | .nicImcW _ _ _ => false
  | .nicIcrR _ _ => false
  | .nicPlainW _ _ _ _ => false
  | .nicReceive _ => true
  | .nicDrainTx => true
  | .nicQueueTx _ => true
  | .nicIrqLevel => true
  | .dpRaise _ => true
  | .dpAck _ => true
  | .dpSample _ => true
  | .dpSetShadow _ => true
  | .dpSetHandling _ => true
  | .dpGetHandling => true
  | .dpResolveReal _ _ => true
  | .dpResolveProt _ _ _ _ => true
  | .dpResolveLong _ _ _ _ => true
  | .dpResolve _ _ _ _ _ => true

/-- The decoder: what operation a request is, given the parameters and the chips' steps (R92, R148). -/
def decode (p : Params) (t : PicSteps) : Request → Except Reject Instr
  | .portWrite port width v =>
    if width = 1 then
      match portDevice p port with
      | none => .error (.unknownWrite port)
      | some d => .ok (decodePortWrite t d (v.setWidth 8))
    else .error (.wideWrite width)
  | .portRead port width =>
    if width = 1 then
      match portDevice p port with
      | none => .error (.unknownRead port)
      | some d => .ok (decodePortRead d)
    else .error (.wideRead width)
  | .mmioWrite off width v => .ok (decodeMmioWrite p off width v)
  | .mmioRead off width => .ok (decodeMmioRead p off width)
  | .call i => if i.isCall then .ok i else .error .notHostCall

/-- A byte write to one of the block's ports. -/
def putByte (p : Params) (d : PortDev) (v : Byte) : Request := .portWrite (devicePort p d) 1 (v.setWidth 32)

/-- A byte read of one of the block's ports. -/
def getByte (p : Params) (d : PortDev) : Request := .portRead (devicePort p d) 1

/-- A write access to lane k of a NIC register. -/
def putReg (idx : BitVec 15) (k : BitVec 2) (w : NicWidth) (v : Dword) : Request :=
  .mmioWrite (nicOffset idx k) w.bytes (v.setWidth 64)

/-- The control word of a channel's mode command: SC, RW, M, BCD from the top (R105). -/
def controlWord (c : PitChan) (rw : PitAccess) (m : BitVec 3) (bcd : Bool) : Byte :=
  ((pitChanCode c ++ pitAccessCode rw) ++ m) ++ BitVec.ofBool bcd

/-- The control byte of a channel's latch command: SC, RW = 00, then ignored bits (R105, R258). -/
def latchWord (c : PitChan) (low : BitVec 4) : Byte := (pitChanCode c ++ 0b00#2) ++ low

/-- The control byte of a read-back command: SC = 11, then ignored bits (R105, R259). -/
def readbackWord (low : BitVec 6) : Byte := 0b11#2 ++ low

/-- The encoder: the request by which an operation reaches the block. A guest row is its (port, byte) or
(offset, width, value) triple; a row with no encoding is the call itself (R149). -/
def encode (p : Params) : Instr → Request
  | .translate la kind cpl cfg cr3 => .call (.translate la kind cpl cfg cr3)
  | .picIcw1 c v => putByte p (.picCmd c) v
  | .picIcw2 c v => putByte p (.picData c) v
  | .picIcw3 c v => putByte p (.picData c) v
  | .picIcw4 c v => putByte p (.picData c) v
  | .picOcw1 c v => putByte p (.picData c) v
  | .picOcw2Nseoi c v => putByte p (.picCmd c) v
  | .picOcw2Seoi c v => putByte p (.picCmd c) v
  | .picOcw2Other c v => putByte p (.picCmd c) v
  | .picOcw3Rr c v => putByte p (.picCmd c) v
  | .picOcw3Norr c v => putByte p (.picCmd c) v
  | .picReadCmd c => getByte p (.picCmd c)
  | .picReadData c => getByte p (.picData c)
  | .picRaise n => .call (.picRaise n)
  | .picLower n => .call (.picLower n)
  | .picResolve => .call .picResolve
  | .picAck n => .call (.picAck n)
  | .pitCtrlMode c rw m bcd => putByte p .pitCtrl (controlWord c rw m bcd)
  | .pitCtrlLatch c low => putByte p .pitCtrl (latchWord c low)
  | .pitCtrlReadback low => putByte p .pitCtrl (readbackWord low)
  | .pitCountWrite c v => putByte p (.pitCount c) v
  | .pitCountRead c => getByte p (.pitCount c)
  | .pitCtrlRead => getByte p .pitCtrl
  | .pitTick => .call .pitTick
  | .pitSetGate c level => .call (.pitSetGate c level)
  | .nicRead off w => .call (.nicRead off w)
  | .nicWrite off w v => .call (.nicWrite off w v)
  | .nicCtrlW k w v => putReg p.nicMap.ctrl k w v
  | .nicStatusW k w v => putReg p.nicMap.status k w v
  | .nicEerdW k w v => putReg p.nicMap.eerd k w v
  | .nicIcrW k w v => putReg p.nicMap.icr k w v
  | .nicIcsW k w v => putReg p.nicMap.ics k w v
  | .nicImsW k w v => putReg p.nicMap.ims k w v
  | .nicImcW k w v => putReg p.nicMap.imc k w v
  | .nicIcrR k w => .mmioRead (nicOffset p.nicMap.icr k) w.bytes
  | .nicPlainW idx k w v => putReg idx k w v
  | .nicReceive f => .call (.nicReceive f)
  | .nicDrainTx => .call .nicDrainTx
  | .nicQueueTx f => .call (.nicQueueTx f)
  | .nicIrqLevel => .call .nicIrqLevel
  | .dpRaise v => .call (.dpRaise v)
  | .dpAck v => .call (.dpAck v)
  | .dpSample flags => .call (.dpSample flags)
  | .dpSetShadow b => .call (.dpSetShadow b)
  | .dpSetHandling b => .call (.dpSetHandling b)
  | .dpGetHandling => .call .dpGetHandling
  | .dpResolveReal v base => .call (.dpResolveReal v base)
  | .dpResolveProt v base limit tc => .call (.dpResolveProt v base limit tc)
  | .dpResolveLong v base limit tc => .call (.dpResolveLong v base limit tc)
  | .dpResolve mode v base limit tc => .call (.dpResolve mode v base limit tc)

/-- The request that a word of spec/opcode_table.json stands for. The table numbers a command byte's bits 7:0
and, for a NIC row, the bits of the offset, and gives neither the port nor the direction nor the width: the model
takes up to 8 bits as a byte written to the master's command port and more as the offset of a four-byte write of
0 (notes/assumptions/11.md). -/
def tableRequest (p : Params) (nbits w : Nat) : Option Request :=
  if nbits = 0 then none
  else if nbits ≤ 8 then some (.portWrite p.picMCmd 1 (BitVec.ofNat 32 (w % 256)))
  else some (.mmioWrite (BitVec.ofNat 64 w) 4 0)

/-- The instruction the decoder reads from a word of the opcode table, with the default parameters and both
chips initialized. -/
def decodeTableWord (nbits w : Nat) : Option Instr :=
  match tableRequest Params.default nbits w with
  | none => none
  | some r =>
    match decode Params.default { master := .done, slave := .done } r with
    | .ok i => some i
    | .error _ => none

end Sys2Proof
end

