-- ==== Sys2Proof/Machine/Cells.lean ====
section
/-! DEFINITION. Sparse storage: a list of (key, value) pairs in one canonical form, keys strictly rising and no
entry equal to 0, which is what an unlisted key reads as. Guest memory (R14, R60) and the NIC register file (R34)
are both held this way. -/

namespace Sys2Proof.Machine

/-- Values of w bits by key. `Cells 8` is a list of `Host.Cell`. -/
abbrev Cells (w : Nat) := List (Nat × BitVec w)

/-- The value at a key; 0 where the key is not listed. -/
def Cells.get {w : Nat} : Cells w → Nat → BitVec w
  | [], _ => 0#w
  | (a, x) :: t, k => if k = a then x else Cells.get t k

/-- Writing a value at a key: the entry is placed in order, and writing 0 removes it. -/
def Cells.set {w : Nat} : Cells w → Nat → BitVec w → Cells w
  | [], k, v => if v = 0#w then [] else [(k, v)]
  | (a, x) :: t, k, v =>
    if k < a then (if v = 0#w then (a, x) :: t else (k, v) :: (a, x) :: t)
    else if k = a then (if v = 0#w then t else (a, v) :: t)
    else (a, x) :: Cells.set t k v

/-- The entries whose keys pass a test: what a reset that keeps some registers leaves (R311). -/
def Cells.keep {w : Nat} (q : Nat → Bool) : Cells w → Cells w
  | [] => []
  | (a, x) :: t => if q a then (a, x) :: Cells.keep q t else Cells.keep q t

/-- The canonical form: keys strictly rising from lo on and below bound, no value 0. -/
def Cells.wf {w : Nat} (bound : Nat) : Nat → Cells w → Bool
  | _, [] => true
  | lo, (a, x) :: t => decide (lo ≤ a) && (decide (a < bound) && (x != 0#w && Cells.wf bound (a + 1) t))

end Sys2Proof.Machine
end

