-- ==== Sys2Proof/Machine/State.lean ====
section
/-! DEFINITION. The state of the block as plain data: every piece of state of 10_state.md (R26 to R39), the guest
memory its operations read (R14, R60), the parameters of R8, and two fields of the model's own (the host's calls
still to be made, and what the last operation returned); with the power-on values of R29, R33, R37 and R40. -/

namespace Sys2Proof.Machine

/-- One chip of the PIC pair (R26). -/
structure PicChip where
  /-- `IRR`, the interrupt-request register. -/
  irr     : Byte
  /-- `ISR`, the in-service register. -/
  isr     : Byte
  /-- `IMR`, the interrupt-mask register. -/
  imr     : Byte
  /-- `icw[0]`, the last ICW1 (R27). -/
  icw0    : Byte
  /-- `icw[1]`, the last ICW2. -/
  icw1    : Byte
  /-- `icw[2]`, the last ICW3. -/
  icw2    : Byte
  /-- `icw[3]`, the last ICW4. -/
  icw3    : Byte
  /-- `step`, where the chip is in its initialization sequence (R27). -/
  step    : InitStep
  /-- `offset`, the vector offset. -/
  offset  : Byte
  /-- `read_isr`, the command-port read select. -/
  readIsr : Bool
  /-- `auto_eoi`. -/
  autoEoi : Bool
deriving DecidableEq, Repr

/-- The PIC pair (R26); the slave's output is wired to master line 2 (R28). -/
structure Pic where
  m : PicChip
  s : PicChip
deriving DecidableEq, Repr

/-- A timer channel's operating mode, 0..5 (R31). -/
inductive PitMode where
  | m0
  | m1
  | m2
  | m3
  | m4
  | m5
deriving DecidableEq, Repr

/-- One timer channel (R31, R32). -/
structure PitChannel where
  reload      : Half
  counter     : Half
  out         : Bool
  mode        : PitMode
  access      : PitAccess
  latched     : Half
  latchActive : Bool
  writeHi     : Bool
  readHi      : Bool
  /-- `staged_lo`: the low byte of a split count write, kept until the high byte arrives (R32). -/
  stagedLo    : Byte
  gate        : Bool
  enabled     : Bool
deriving DecidableEq, Repr

/-- The interval timer (R30). -/
structure Pit where
  ch0 : PitChannel
  ch1 : PitChannel
  ch2 : PitChannel
deriving DecidableEq, Repr

/-- The MAC address, 6 bytes (R35). -/
structure Mac where
  b0 : Byte
  b1 : Byte
  b2 : Byte
  b3 : Byte
  b4 : Byte
  b5 : Byte
deriving DecidableEq, Repr

/-- The NIC (R34 to R36). -/
structure Nic where
  /-- `nic.reg[0..32767]`, sparse; an unlisted register is 0. -/
  regs   : Cells 32
  mac    : Mac
  /-- `nic.eeprom[0..63]`: 64 words (Safety.lean states the length). -/
  eeprom : List Half
  /-- Received frames, oldest first. -/
  rx     : List Frame
  /-- Frames queued for transmission, oldest first. -/
  tx     : List Frame
deriving DecidableEq, Repr

/-- The delivery pipeline (R38, R39): vector v is bit `v mod 64` of word `v div 64`. -/
structure Dp where
  pending0 : Quad
  pending1 : Quad
  pending2 : Quad
  pending3 : Quad
  shadow   : Bool
  /-- `handling_exception`. -/
  handling : Bool
deriving DecidableEq, Repr

/-- The accessor's failures as State holds them, told apart by a number (notes/assumptions/5.md). R8 leaves the type
`MemError` OPEN: everything that meets a failure (`MemRule`, `GuestMem`, `Raised`, and every function that reads
guest memory) takes the type as an argument `E`, of which this is the default. -/
structure MemError where
  code : Nat
deriving DecidableEq, Repr

/-- One way the host's accessor fails (R14; notes/assumptions/5.md). -/
inductive MemRule (E : Type := MemError) where
  /-- Every access that touches one of the size bytes from base on fails. -/
  | region (base size : Nat) (e : E)
  /-- Exactly the access of n bytes at pa fails. -/
  | access (pa n : Nat) (e : E)
deriving DecidableEq, Repr

/-- Guest physical memory, byte by address (R60, R62). -/
abbrev Memory := List Host.Cell

/-- The canonical form of guest memory: strictly rising 64-bit addresses (R61), no listed byte 0. -/
def Memory.wf (m : Memory) : Bool := Cells.wf (2 ^ 64) 0 m

/-- Guest physical memory as the host's accessor presents it: its bytes, and the accesses it fails. -/
structure GuestMem (E : Type := MemError) where
  cells : Memory
  rules : List (MemRule E)
deriving DecidableEq, Repr

/-- The width of an accessor call: 1, 2, 4 or 8 bytes (R14). -/
inductive MemWidth where
  | b1
  | b2
  | b4
  | b8
deriving DecidableEq, Repr

/-- The number of bytes of an accessor call. -/
def MemWidth.bytes : MemWidth → Nat
  | .b1 => 1
  | .b2 => 2
  | .b4 => 4
  | .b8 => 8

/-- One thing the outside does to the block between two operations (R19, R73). -/
inductive Event where
  /-- A guest access or a host call. -/
  | op (r : Request)
  /-- A store into guest memory through the accessor's `MemWrite` (R14), by the guest or the host. -/
  | store (pa : Quad) (n : MemWidth) (v : Quad)
  /-- The host changes which accesses its accessor fails. -/
  | accessor (rules : List MemRule)
deriving DecidableEq, Repr

/-- A fault outcome (R12, R401): what an operation raises or propagates. -/
inductive Raised (E : Type := MemError) where
  | pageFault (addr : Quad) (ec : Dword)
  | generalProtection (ec : Half)
  | memError (e : E)
deriving DecidableEq, Repr

/-- The target a real-mode table entry gives (R370). -/
structure RealTarget where
  segment : Half
  offset  : Half
deriving DecidableEq, Repr

/-- The kinds of protected-mode gate (R143). -/
inductive ProtGateKind where
  | task
  | int16
  | trap16
  | int32
  | trap32
deriving DecidableEq, Repr

/-- A protected-mode gate (R375); the S bit is reported beside DPL and P (D61, R375's corner cases). -/
structure ProtGate where
  kind     : ProtGateKind
  selector : Half
  offset   : Dword
  entry    : Dword
  s        : Bool
  dpl      : BitVec 2
  present  : Bool
deriving DecidableEq, Repr

/-- The kinds of long-mode gate (R145). -/
inductive LongGateKind where
  | int64
  | trap64
deriving DecidableEq, Repr

/-- A long-mode gate (R380); the S bit is reported beside DPL and P (D61). -/
structure LongGate where
  kind     : LongGateKind
  selector : Half
  offset   : Quad
  ist      : BitVec 3
  s        : Bool
  dpl      : BitVec 2
  present  : Bool
deriving DecidableEq, Repr

/-- What an operation returns to its caller (R12, R90): nothing, a value, or a fault outcome. -/
inductive Reply where
  | unit
  | byte (v : Byte)
  | value (v : Dword)
  | bool (b : Bool)
  | pa (a : Quad)
  | line (r : Option (Nat × Byte))
  | vector (r : Option Byte)
  | frames (fs : List Frame)
  | realTarget (t : RealTarget)
  | protGate (g : ProtGate)
  | longGate (g : LongGate)
  | raised (r : Raised)
deriving DecidableEq, Repr

/-- What stops the machine for good. -/
inductive Fault where
  /-- A store event reaches past the last 64-bit physical address, which R61 says does not exist. Raised by
  `hostStore` alone; no operation of R90 raises it. Safe: the model stops where the spec gives no effect. -/
  | beyondAddressSpace
deriving DecidableEq, Repr

/-- What the machine declines to run. -/
inductive Refusal where
  /-- An operation without a meaning yet; raised by an arm of `exec`. No arm of this model raises it. Safe. -/
  | notModelled (mnemonic : String)
  /-- A host call of something that is not a host operation of R90 (a guest access issued as a call), which is
  outside the block's interface (R7, R16). Raised by `step`. Safe: the model stops where the spec has no operation. -/
  | notHostCall
deriving DecidableEq, Repr

/-- The state of the machine. -/
structure State where
  /-- The parameters of R8: constants. -/
  par   : Params
  /-- Guest physical memory (R60). -/
  mem   : GuestMem
  /-- The PIC pair (R26). -/
  pic   : Pic
  /-- The interval timer (R30). -/
  pit   : Pit
  /-- The NIC (R34). -/
  nic   : Nic
  /-- The delivery pipeline (R38). -/
  dp    : Dp
  /-- The model's own: the host's calls still to be made, oldest first (notes/assumptions/2.md). -/
  inbox : List Event
  /-- The model's own: what the last operation returned (notes/assumptions/3.md). -/
  reply : Reply
deriving DecidableEq, Repr

/-- A PIC chip at power-on (R29). -/
def PicChip.powerOn : PicChip :=
  { irr := 0, isr := 0, imr := 0, icw0 := 0, icw1 := 0, icw2 := 0, icw3 := 0, step := .done, offset := 0,
    readIsr := false, autoEoi := false }

/-- A timer channel at power-on (R33). -/
def PitChannel.powerOn : PitChannel :=
  { reload := 0, counter := 0, out := false, mode := .m0, access := .loHi, latched := 0, latchActive := false,
    writeHi := false, readHi := false, stagedLo := 0, gate := true, enabled := false }

/-- RAL0 at power-on: MAC bytes 0 to 3, byte 0 lowest (R37, R125). -/
def Mac.ral (a : Mac) : Dword := a.b3 ++ a.b2 ++ a.b1 ++ a.b0

/-- RAH0 at power-on: MAC bytes 4 and 5 and the address-valid bit 31 (R37, R125). -/
def Mac.rah (a : Mac) (av : Bool) : Dword := BitVec.ofBool av ++ 0#15 ++ a.b5 ++ a.b4

/-- The NIC at power-on (R37). -/
def Nic.powerOn (p : Params) (mac : Mac) (eeprom : List Half) : Nic :=
  { regs := ((Cells.set [] p.nicMap.status.toNat p.nicStatus).set p.nicMap.ral0.toNat mac.ral).set
      p.nicMap.rah0.toNat (mac.rah p.nicRahAv),
    mac := mac, eeprom := eeprom, rx := [], tx := [] }

/-- The pipeline at power-on (R40). -/
def Dp.powerOn : Dp :=
  { pending0 := 0, pending1 := 0, pending2 := 0, pending3 := 0, shadow := false, handling := false }

/-- Power-on: the creation of the block with its parameters, its MAC address and its EEPROM image (R450, R464),
beside a guest memory with nothing in it and a host that has made no call. -/
def State.powerOn (p : Params) (mac : Mac) (eeprom : List Half) : State :=
  { par := p, mem := { cells := [], rules := [] },
    pic := { m := PicChip.powerOn, s := PicChip.powerOn },
    pit := { ch0 := PitChannel.powerOn, ch1 := PitChannel.powerOn, ch2 := PitChannel.powerOn },
    nic := Nic.powerOn p mac eeprom, dp := Dp.powerOn, inbox := [], reply := .unit }

/-- The MAC address of 95_test_vectors.md L2.5, 52:54:00:12:34:56; the parameter is OPEN
(notes/assumptions/4.md). -/
def Mac.default : Mac := { b0 := 0x52, b1 := 0x54, b2 := 0x00, b3 := 0x12, b4 := 0x34, b5 := 0x56 }

/-- The EEPROM image of D52 for that address, words 0 to 2 and the checksum word 63; the parameter is OPEN
(notes/assumptions/4.md). -/
def eepromDefault : List Half := [0x5452, 0x1200, 0x5634] ++ (List.replicate 60 0 ++ [0xFE34])

/-- The machine right after power-on with the default parameters. -/
def State.reset : State := State.powerOn Params.default Mac.default eepromDefault

end Sys2Proof.Machine
end

