-- ==== Sys2Proof/Machine/Operands.lean ====
section
/-! DEFINITION. The fields operations read: linear-address splits (R130 to R132), table roots and bases (R133,
R139), the lanes of a NIC access (R303), EERD (R123) and gate descriptors (R141 to R145). -/

namespace Sys2Proof.Machine

/-- `v[lo+len-1 : lo]` as a 64-bit number (R10). -/
def slice (v : Quad) (lo len : Nat) : Quad := (v.extractLsb' lo len).setWidth 64

/-- Bit n of an entry (R10). -/
def flag (v : Quad) (n : Nat) : Bool := v.getLsbD n

/-- `ADDR_MASK = (2^MAXPHYADDR - 1) & ~0xFFF` (R133). -/
def addrMask (p : Params) : Quad := BitVec.ofNat 64 (2 ^ p.maxPhyAddr - 1) &&& ~~~(0xFFF#64)

/-- The 2-level table and frame base field, bits 31:12 (R133, R134, R139: `BASE_MASK_12`). -/
def baseMask2 : Quad := 0xFFFFF000#64

/-- The 4 MiB frame base field, bits 31:22 (R134, R139: `BASE_MASK_22`). -/
def frameMask22 : Quad := 0xFFC00000#64

/-- The PAE root field, bits 31:5 (R133). -/
def rootMaskPae : Quad := 0xFFFFFFE0#64

/-- The 2 MiB frame base field (R136, R139: `BASE_MASK_21`). -/
def frameMask21 (p : Params) : Quad := addrMask p &&& ~~~(0x1FFFFF#64)

/-- The 1 GiB frame base field (R136, R139: `BASE_MASK_30`). -/
def frameMask30 (p : Params) : Quad := addrMask p &&& ~~~(0x3FFFFFFF#64)

/-- The physical address of an entry of the given size at an index of a table (R138). -/
def entryAddr (base index : Quad) (size : Nat) : Quad := base + index * BitVec.ofNat 64 size

/-- The access is a user access exactly when `cpl = 3` (R154). -/
def isUser (cpl : BitVec 2) : Bool := cpl == 3#2

/-- `M`: the lanes of the containing dword an access covers; lanes past it are dropped (R303). -/
def nicMask (k : BitVec 2) (w : NicWidth) : Dword := BitVec.ofNat 32 ((2 ^ (8 * w.bytes) - 1) * 2 ^ (8 * k.toNat))

/-- `lane = (v << sh) & M`: a written value in its lanes (44_nic.md notation). -/
def nicLaneValue (k : BitVec 2) (w : NicWidth) (v : Dword) : Dword := (v <<< (8 * k.toNat)) &&& nicMask k w

/-- `merged = (reg & ~M) | lane`: the dword after a sub-dword write (44_nic.md notation). -/
def nicMerged (old : Dword) (k : BitVec 2) (w : NicWidth) (v : Dword) : Dword :=
  (old &&& ~~~(nicMask k w)) ||| nicLaneValue k w v

/-- `(reg & M) >> sh`: what a read of the covered lanes returns (R303, R305). -/
def nicExtract (reg : Dword) (k : BitVec 2) (w : NicWidth) : Dword := (reg &&& nicMask k w) >>> (8 * k.toNat)

/-- EERD's word address, bits 15:8 (R123). -/
def eerdAddr (v : Dword) : Byte := v.extractLsb' 8 8

/-- EERD after a completed read: DATA in 31:16, ADDR in 15:8, DONE (bit 4) set, START clear (R123, R314). -/
def eerdDone (data : Half) (addr : Byte) : Dword := data ++ addr ++ 0x10#8

/-- The mode an `M` field selects; 6 and 7 alias 2 and 3 (R108). -/
def pitModeOf (m : BitVec 3) : PitMode :=
  if m = 0#3 then .m0
  else if m = 1#3 then .m1
  else if m = 2#3 then .m2
  else if m = 3#3 then .m3
  else if m = 4#3 then .m4
  else if m = 5#3 then .m5
  else if m = 6#3 then .m2
  else .m3

/-- A channel number of a host call; numbers other than 0 to 2 name none (R282). -/
def pitChanNat (c : Nat) : Option PitChan :=
  if c = 0 then some .c0 else if c = 1 then some .c1 else if c = 2 then some .c2 else none

/-- The kind of a protected-mode gate by its type nibble (R143). -/
def protKindOf (t : BitVec 4) : Option ProtGateKind :=
  if t = 0x5#4 then some .task
  else if t = 0x6#4 then some .int16
  else if t = 0x7#4 then some .trap16
  else if t = 0xE#4 then some .int32
  else if t = 0xF#4 then some .trap32
  else none

/-- The kind of a long-mode gate by its type nibble (R145). -/
def longKindOf (t : BitVec 4) : Option LongGateKind :=
  if t = 0xE#4 then some .int64 else if t = 0xF#4 then some .trap64 else none

/-- The type nibble of a gate, bits 43:40 of its first eight bytes (R142, R144). -/
def gateType (q : Quad) : BitVec 4 := q.extractLsb' 40 4

/-- The entry point of a protected-mode gate: the low 16 offset bits for a 16-bit gate, else the offset
(R375). -/
def protEntry (kind : ProtGateKind) (off : Dword) : Dword :=
  match kind with
  | .int16 => (off.extractLsb' 0 16).setWidth 32
  | .trap16 => (off.extractLsb' 0 16).setWidth 32
  | .task => off
  | .int32 => off
  | .trap32 => off

/-- The 32-bit offset of a protected-mode gate (R142). -/
def protOffset (q : Quad) : Dword := q.extractLsb' 48 16 ++ q.extractLsb' 0 16

/-- A protected-mode gate from its eight bytes; none for an invalid type (R142, R143, R375). -/
def protGateOf (q : Quad) : Option ProtGate :=
  match protKindOf (gateType q) with
  | none => none
  | some kind =>
    some { kind := kind, selector := q.extractLsb' 16 16, offset := protOffset q,
           entry := protEntry kind (protOffset q), s := q.getLsbD 44, dpl := q.extractLsb' 45 2,
           present := q.getLsbD 47 }

/-- A long-mode gate from its sixteen bytes; none for an invalid type (R144, R145, R380). -/
def longGateOf (q0 q1 : Quad) : Option LongGate :=
  match longKindOf (gateType q0) with
  | none => none
  | some kind =>
    some { kind := kind, selector := q0.extractLsb' 16 16,
           offset := q1.extractLsb' 0 32 ++ q0.extractLsb' 48 16 ++ q0.extractLsb' 0 16,
           ist := q0.extractLsb' 32 3, s := q0.getLsbD 44, dpl := q0.extractLsb' 45 2, present := q0.getLsbD 47 }

/-- A real-mode target from its four bytes: offset low, segment high (R141, R370). -/
def realTargetOf (e : Dword) : RealTarget := { segment := e.extractLsb' 16 16, offset := e.extractLsb' 0 16 }

end Sys2Proof.Machine
end

