-- ==== Sys2Proof/Machine/Flags.lean ====
section
/-! DEFINITION. Codes and flags the block computes or reads: the page-fault error code (R140), the
general-protection codes (R146), and the caller's interrupt-enable flag (R22, R360). -/

namespace Sys2Proof.Machine

/-- The instruction-fetch bit of the error code: an execute access with no-execute in force (R140). -/
def fetchBit (kind : AccessKind) (cfg : TransCfg) : Bool :=
  decide (kind = .execute) && (cfg.nxe && (cfg.pae || cfg.long))

/-- `EC(p)`, the page-fault error code: P, W, U, RSVD = 0, ID (R140, R157). -/
def errorCode (kind : AccessKind) (user : Bool) (cfg : TransCfg) (present : Bool) : Dword :=
  0#27 ++ (BitVec.ofBool (fetchBit kind cfg) ++ (0#1 ++ (BitVec.ofBool user
    ++ (BitVec.ofBool (decide (kind = .write)) ++ BitVec.ofBool present))))

/-- The protected-mode general-protection code `v*8 + 2` (R146). -/
def gpProt (v : Byte) : Half := BitVec.ofNat 16 (v.toNat * 8 + 2)

/-- The long-mode general-protection code `v*LM_GP_SCALE + 2` (R146). -/
def gpLong (p : Params) (v : Byte) : Half := BitVec.ofNat 16 (v.toNat * p.lmGpScale + 2)

/-- The interrupt-enable flag, bit 9 of the flags word (R22, R360). -/
def interruptEnable (flags : Quad) : Bool := flags.getLsbD 9

end Sys2Proof.Machine
end

