-- ==== Sys2Proof/Machine/Ops.lean ====
section
/-! DEFINITION. The named operations over the state: bit fields, guest memory through the accessor (R14), the
parts of the state, and how an operation ends (R12): with a value, or with a fault outcome, which is the one
shared operation `State.conclude`. -/

namespace Sys2Proof.Machine

/-- `x[n] <- b` (R10). -/
def withBit {w : Nat} (x : BitVec w) (n : Nat) (b : Bool) : BitVec w :=
  if b then x ||| BitVec.twoPow w n else x &&& ~~~(BitVec.twoPow w n)

/-- `lowest(m)`: the least significant set bit, none for 0 (R10). -/
def lowest (x : Byte) : Option Nat := (List.range 8).find? (fun n => x.getLsbD n)

/-! ### Guest memory -/

/-- A rule of the accessor fails the access of n bytes at pa. -/
def MemRule.hits {E : Type} (r : MemRule E) (pa n : Nat) : Option E :=
  match r with
  | .region base size e => if base < pa + n ∧ pa < base + size then some e else none
  | .access a k e => if a = pa ∧ k = n then some e else none

/-- The failure of the accessor on an access of n bytes at pa: the first rule that fails it. -/
def GuestMem.failure {E : Type} (g : GuestMem E) (pa n : Nat) : Option E :=
  g.rules.findSome? (fun r => r.hits pa n)

/-- The byte at a physical address. -/
def Memory.byte (m : Memory) (a : Nat) : Byte := Cells.get m a

/-- n bytes from an address on, assembled little-endian (R14, R62). -/
def Memory.readLE (m : Memory) (a : Nat) : Nat → Nat
  | 0 => 0
  | n + 1 => (m.byte a).toNat + 256 * Memory.readLE m (a + 1) n

/-- n bytes of a value stored little-endian from an address on (R14, R62). -/
def Memory.writeLE (m : Memory) (a v : Nat) : Nat → Memory
  | 0 => m
  | n + 1 => Memory.writeLE (Cells.set m a (BitVec.ofNat 8 v)) (a + 1) (v / 256) n

/-- `MemRead(pa, n)` (R14): the bytes, or the accessor's failure, propagated unchanged. -/
def memRead {E : Type} (g : GuestMem E) (pa n : Nat) : Except (Raised E) Nat :=
  match g.failure pa n with
  | some e => .error (.memError e)
  | none => .ok (g.cells.readLE pa n)

/-! ### The parts of the state -/

/-- The chip of the pair. -/
def Pic.chip (p : Pic) : Chip → PicChip
  | .master => p.m
  | .slave => p.s

/-- The pair with one chip replaced. -/
def Pic.setChip (p : Pic) (c : Chip) (x : PicChip) : Pic :=
  match c with
  | .master => { p with m := x }
  | .slave => { p with s := x }

/-- The chips' steps, which a data-port byte's decoding reads (R102). -/
def Pic.steps (p : Pic) : PicSteps := { master := p.m.step, slave := p.s.step }

/-- The channel of the timer. -/
def Pit.chan (t : Pit) : PitChan → PitChannel
  | .c0 => t.ch0
  | .c1 => t.ch1
  | .c2 => t.ch2

/-- The timer with one channel replaced. -/
def Pit.setChan (t : Pit) (c : PitChan) (x : PitChannel) : Pit :=
  match c with
  | .c0 => { t with ch0 := x }
  | .c1 => { t with ch1 := x }
  | .c2 => { t with ch2 := x }

/-- A register of the NIC file (R34). -/
def Nic.reg (n : Nic) (i : BitVec 15) : Dword := Cells.get n.regs i.toNat

/-- The NIC with one register of its file replaced. -/
def Nic.setReg (n : Nic) (i : BitVec 15) (v : Dword) : Nic := { n with regs := Cells.set n.regs i.toNat v }

/-- The state with a component replaced. -/
def State.setMem (s : State) (g : GuestMem) : State := { s with mem := g }
def State.setPic (s : State) (p : Pic) : State := { s with pic := p }
def State.setPit (s : State) (t : Pit) : State := { s with pit := t }
def State.setNic (s : State) (n : Nic) : State := { s with nic := n }
def State.setDp (s : State) (d : Dp) : State := { s with dp := d }
def State.setInbox (s : State) (es : List Event) : State := { s with inbox := es }
def State.setReply (s : State) (r : Reply) : State := { s with reply := r }

/-! ### How an operation ends -/

/-- An operation that returns r to its caller: the machine goes on. -/
def State.finish (s : State) (r : Reply) : Host.Outcome State Fault Refusal := .next (s.setReply r)

/-- A fault outcome is raised (R12, R401, R403): it is returned to the caller, which owns what it becomes for the
guest (R425); no state of the block is written, no register saved and no control transferred (R21, R426). -/
def State.raise (s : State) (r : Raised) : Host.Outcome State Fault Refusal := s.finish (.raised r)

/-- An operation that reads guest memory ends with its value or with the one fault outcome it met (R12). -/
def State.conclude {α : Type} (s : State) (r : Except Raised α) (f : α → Reply) : Host.Outcome State Fault Refusal :=
  match r with
  | .ok a => s.finish (f a)
  | .error e => s.raise e

/-! ### What is not an operation of the table -/

/-- A request that is no operation: a malformed port access is absorbed, a write without effect and a read
returning 0 (R67); a call of something that is no host operation is declined. -/
def State.absorb (s : State) (j : Reject) : Host.Outcome State Fault Refusal :=
  match j with
  | .wideWrite _ => s.finish .unit
  | .unknownWrite _ => s.finish .unit
  | .wideRead _ => s.finish (.value 0)
  | .unknownRead _ => s.finish (.value 0)
  | .notHostCall => .refused .notHostCall

/-- `MemWrite(pa, n, v)` by the guest or the host between two operations (R14, R73, R79): the bytes are stored,
or the accessor fails and nothing is. A store past the last 64-bit address has nowhere to go (R61). -/
def hostStore (s : State) (pa : Quad) (n : MemWidth) (v : Quad) : Host.Outcome State Fault Refusal :=
  if 2 ^ 64 < pa.toNat + n.bytes then .fault .beyondAddressSpace
  else
    match s.mem.failure pa.toNat n.bytes with
    | some e => s.raise (.memError e)
    | none =>
      (s.setMem { s.mem with cells := s.mem.cells.writeLE pa.toNat v.toNat n.bytes }).finish .unit

/-- The host changes which accesses its accessor fails (R14). -/
def hostAccessor (s : State) (rules : List MemRule) : Host.Outcome State Fault Refusal :=
  (s.setMem { s.mem with rules := rules }).finish .unit

end Sys2Proof.Machine
end

