-- ==== Sys2Proof/Machine/Atu.lean ====
section
/-! DEFINITION. The address translation unit (41_translation.md): `TRANSLATE`, its three walkers and the one
permission check they share. It reads guest memory and writes nothing (R175). -/

namespace Sys2Proof.Machine

-- The type of the accessor's failures (R8, R14).
variable {E : Type}

/-- What stays the same through one walk: the operands of `TRANSLATE` but the root, and the permission scope. -/
structure Walk where
  la    : Quad
  kind  : AccessKind
  user  : Bool
  cfg   : TransCfg
  scope : PermScope
deriving DecidableEq, Repr

/-- `FAULT(present)` (R157): the fault carries the linear address unchanged (R173). -/
def Walk.fault {α : Type} (q : Walk) (present : Bool) : Except (Raised E) α :=
  .error (.pageFault q.la (errorCode q.kind q.user q.cfg present))

/-- `READENTRY(pa, s)` (R157): a 4- or 8-byte little-endian entry, or the accessor's failure. -/
def readEntry (g : GuestMem E) (pa : Quad) (size : Nat) : Except (Raised E) Quad :=
  match memRead g pa.toNat size with
  | .ok v => .ok (BitVec.ofNat 64 v)
  | .error e => .error e

/-- The three conditions of `CHECK(E, nxfmt)` (R158). -/
def Walk.denied (q : Walk) (es : List Quad) (nxfmt : Bool) : Bool :=
  (q.user && es.any (fun e => !flag e 2))
  || ((decide (q.kind = .write) && es.any (fun e => !flag e 1)) && (q.user || q.cfg.wp))
  || (decide (q.kind = .execute) && (q.cfg.nxe && (nxfmt && es.any (fun e => flag e 63))))

/-- `CHECK(E, nxfmt)`, the permission check shared by the walkers (R158). -/
def Walk.check (q : Walk) (es : List Quad) (nxfmt : Bool) : Except (Raised E) Unit :=
  if q.denied es nxfmt then q.fault true else .ok ()

/-- The present test of one entry (R170). -/
def Walk.present (q : Walk) (e : Quad) : Except (Raised E) Unit :=
  if flag e 0 then .ok () else q.fault false

/-- Reaching an entry that carries rights: its present test, and with `PerLevelInOrder` its rights test at once
(R170, R171). -/
def Walk.visit (q : Walk) (e : Quad) (nxfmt : Bool) : Except (Raised E) Unit := do
  q.present e
  match q.scope with
  | .combined => .ok ()
  | .perLevelInOrder => q.check [e] nxfmt

/-- Reaching the mapping level: with `Combined` the rights of every entry visited are tested together (R170). -/
def Walk.arrive (q : Walk) (es : List Quad) (nxfmt : Bool) : Except (Raised E) Unit :=
  match q.scope with
  | .combined => q.check es nxfmt
  | .perLevelInOrder => .ok ()

/-- `WALK2`, the 2-level walker (R155, R156). -/
def walk2 (g : GuestMem E) (q : Walk) (cr3 : Quad) : Except (Raised E) Quad := do
  let pde ← readEntry g (entryAddr (cr3 &&& baseMask2) (slice q.la 22 10) 4) 4
  q.visit pde false
  if q.cfg.pse && flag pde 7 then do
    q.arrive [pde] false
    .ok ((pde &&& frameMask22) ||| slice q.la 0 22)
  else do
    let pte ← readEntry g (entryAddr (pde &&& baseMask2) (slice q.la 12 10) 4) 4
    q.visit pte false
    q.arrive [pde, pte] false
    .ok ((pte &&& baseMask2) ||| slice q.la 0 12)

/-- `WALKPAE`, the PAE walker (R160, R161); the root entry contributes its present bit and base only (R170). -/
def walkPae (p : Params) (g : GuestMem E) (q : Walk) (cr3 : Quad) : Except (Raised E) Quad := do
  let pdpte ← readEntry g (entryAddr (cr3 &&& rootMaskPae) (slice q.la 30 2) 8) 8
  q.present pdpte
  let pde ← readEntry g (entryAddr (pdpte &&& addrMask p) (slice q.la 21 9) 8) 8
  q.visit pde true
  if flag pde 7 then do
    q.arrive [pde] true
    .ok ((pde &&& frameMask21 p) ||| slice q.la 0 21)
  else do
    let pte ← readEntry g (entryAddr (pde &&& addrMask p) (slice q.la 12 9) 8) 8
    q.visit pte true
    q.arrive [pde, pte] true
    .ok ((pte &&& addrMask p) ||| slice q.la 0 12)

/-- `WALK4`, the 4-level walker (R165, R166, R167). -/
def walk4 (p : Params) (g : GuestMem E) (q : Walk) (cr3 : Quad) : Except (Raised E) Quad := do
  let e4 ← readEntry g (entryAddr (cr3 &&& addrMask p) (slice q.la 39 9) 8) 8
  q.visit e4 true
  let e3 ← readEntry g (entryAddr (e4 &&& addrMask p) (slice q.la 30 9) 8) 8
  q.visit e3 true
  if flag e3 7 then do
    q.arrive [e4, e3] true
    .ok ((e3 &&& frameMask30 p) ||| slice q.la 0 30)
  else do
    let e2 ← readEntry g (entryAddr (e3 &&& addrMask p) (slice q.la 21 9) 8) 8
    q.visit e2 true
    if flag e2 7 then do
      q.arrive [e4, e3, e2] true
      .ok ((e2 &&& frameMask21 p) ||| slice q.la 0 21)
    else do
      let e1 ← readEntry g (entryAddr (e2 &&& addrMask p) (slice q.la 12 9) 8) 8
      q.visit e1 true
      q.arrive [e4, e3, e2, e1] true
      .ok ((e1 &&& addrMask p) ||| slice q.la 0 12)

/-- `TRANSLATE(la, kind, cpl, cfg, cr3)` (R150), with the walker selection of R151. -/
def translate (p : Params) (g : GuestMem E) (la : Quad) (kind : AccessKind) (cpl : BitVec 2) (cfg : TransCfg)
    (cr3 : Quad) : Except (Raised E) Quad :=
  let q : Walk := { la := la, kind := kind, user := isUser cpl, cfg := cfg, scope := p.permScope }
  if cfg.long then walk4 p g q cr3
  else if cfg.pae then walkPae p g q cr3
  else walk2 g q cr3

/-- `TRANSLATE` (R150). -/
def execTranslate (la : Quad) (kind : AccessKind) (cpl : BitVec 2) (cfg : TransCfg) (cr3 : Quad) (s : State) :
    Host.Outcome State Fault Refusal :=
  s.conclude (translate s.par s.mem la kind cpl cfg cr3) .pa

end Sys2Proof.Machine
end

