-- ==== Sys2Proof/Machine/Delivery.lean ====
section
/-! DEFINITION. The interrupt delivery pipeline and the gate resolvers (45_delivery.md), with the linear reads
they make of guest memory (R70). -/

namespace Sys2Proof.Machine

variable {E : Type}

/-- `dp.pending[k]` (R38). -/
def Dp.word (d : Dp) (k : Nat) : Quad :=
  match k with
  | 0 => d.pending0
  | 1 => d.pending1
  | 2 => d.pending2
  | _ => d.pending3

/-- `dp.pending[k] <- x` (R38). -/
def Dp.setWord (d : Dp) (k : Nat) (x : Quad) : Dp :=
  match k with
  | 0 => { d with pending0 := x }
  | 1 => { d with pending1 := x }
  | 2 => { d with pending2 := x }
  | _ => { d with pending3 := x }

/-- Vector v is pending: bit `v mod 64` of word `v div 64` (R38). -/
def Dp.isPending (d : Dp) (v : Nat) : Bool := (d.word (v / 64)).getLsbD (v % 64)

/-- `DP.RAISE(v)` and `DP.ACK(v)` on the mask (R352, R354). -/
def Dp.mark (d : Dp) (v : Byte) (b : Bool) : Dp :=
  d.setWord (v.toNat / 64) (withBit (d.word (v.toNat / 64)) (v.toNat % 64) b)

/-- The lowest-numbered pending vector (R360, R421). -/
def Dp.lowestPending (d : Dp) : Option Nat := (List.range 256).find? (fun v => d.isPending v)

/-- `DP.SAMPLE(flags)` (R360). -/
def Dp.sample (d : Dp) (flags : Quad) : Option Byte :=
  if d.shadow then none
  else if interruptEnable flags then d.lowestPending.map (fun v => BitVec.ofNat 8 v)
  else none

/-- The width of a linear address in the gate resolvers: modulo 2^32 in real and protected mode, 2^64 in long
mode (R70, D69). -/
def wrapLinear (mode : ExecMode) (la : Quad) : Quad :=
  match mode with
  | .real => slice la 0 32
  | .prot => slice la 0 32
  | .long => la

/-- The physical address of one byte a resolver reads: untranslated in real mode or with paging off, else a
supervisor read through the ATU (R70, D63). -/
def linearToPhysical (p : Params) (g : GuestMem E) (mode : ExecMode) (tc : TransCtx) (la : Quad) :
    Except (Raised E) Quad :=
  match mode with
  | .real => .ok la
  | .prot => if tc.paging then translate p g la .read 0 tc.cfg tc.cr3 else .ok la
  | .long => if tc.paging then translate p g la .read 0 tc.cfg tc.cr3 else .ok la

/-- The n bytes of `LinRead` from la on, in ascending order; the first failing byte's outcome ends the read
(R70, R420). -/
def linBytes (p : Params) (g : GuestMem E) (mode : ExecMode) (tc : TransCtx) (la : Quad) : Nat → Except (Raised E) Nat
  | 0 => .ok 0
  | n + 1 => do
    let pa ← linearToPhysical p g mode tc (wrapLinear mode la)
    let b ← memRead g pa.toNat 1
    let rest ← linBytes p g mode tc (la + 1) n
    .ok (b + 256 * rest)

/-- `LinRead(la, n, aw)` of four or eight bytes (R70). -/
def linRead (p : Params) (g : GuestMem E) (mode : ExecMode) (tc : TransCtx) (la : Quad) (n : Nat) :
    Except (Raised E) Quad := do
  let v ← linBytes p g mode tc la n
  .ok (BitVec.ofNat 64 v)

/-- The address of a vector's table entry, wrapped to the mode's width (R370, R375, R380, D69). -/
def gateAddr (mode : ExecMode) (base : Quad) (v : Byte) (size : Nat) : Quad :=
  wrapLinear mode (base + BitVec.ofNat 64 (v.toNat * size))

/-- The translation context of a real-mode read, which uses none of it (R70). -/
def noPaging : TransCtx :=
  { paging := false, cfg := { pae := false, long := false, pse := false, wp := false, nxe := false }, cr3 := 0 }

/-- `DP.RESOLVE_REAL(v, idt_base)` (R370). -/
def resolveReal (p : Params) (g : GuestMem E) (v : Byte) (base : Quad) : Except (Raised E) RealTarget := do
  let e ← linRead p g .real noPaging (gateAddr .real base v 4) 4
  .ok (realTargetOf (e.setWidth 32))

/-- `DP.RESOLVE_PROT(v, idt_base, idt_limit)` (R375): the limit test, the read, the type test. -/
def resolveProt (p : Params) (g : GuestMem E) (v : Byte) (base : Quad) (limit : Half) (tc : TransCtx) :
    Except (Raised E) ProtGate :=
  if limit.toNat < v.toNat * 8 + 7 then .error (.generalProtection (gpProt v))
  else do
    let q ← linRead p g .prot tc (gateAddr .prot base v 8) 8
    match protGateOf q with
    | none => .error (.generalProtection (gpProt v))
    | some gate => .ok gate

/-- `DP.RESOLVE_LONG(v, idt_base, idt_limit)` (R380): the limit test, both reads, the type test. -/
def resolveLong (p : Params) (g : GuestMem E) (v : Byte) (base : Quad) (limit : Half) (tc : TransCtx) :
    Except (Raised E) LongGate :=
  if limit.toNat < v.toNat * 16 + 15 then .error (.generalProtection (gpLong p v))
  else do
    let q0 ← linRead p g .long tc (gateAddr .long base v 16) 8
    let q1 ← linRead p g .long tc (gateAddr .long base v 16 + 8) 8
    match longGateOf q0 q1 with
    | none => .error (.generalProtection (gpLong p v))
    | some gate => .ok gate

/-! ### The meanings -/

/-- `DP.RAISE(v)` (R352). -/
def execDpRaise (v : Byte) (s : State) : Host.Outcome State Fault Refusal :=
  (s.setDp (s.dp.mark v true)).finish .unit

/-- `DP.ACK(v)` (R354). -/
def execDpAck (v : Byte) (s : State) : Host.Outcome State Fault Refusal :=
  (s.setDp (s.dp.mark v false)).finish .unit

/-- `DP.SAMPLE(flags)` (R360). -/
def execDpSample (flags : Quad) (s : State) : Host.Outcome State Fault Refusal :=
  s.finish (.vector (s.dp.sample flags))

/-- `DP.SET_SHADOW(b)` (R362). -/
def execDpSetShadow (b : Bool) (s : State) : Host.Outcome State Fault Refusal :=
  (s.setDp { s.dp with shadow := b }).finish .unit

/-- `DP.SET_HANDLING(b)` (R364). -/
def execDpSetHandling (b : Bool) (s : State) : Host.Outcome State Fault Refusal :=
  (s.setDp { s.dp with handling := b }).finish .unit

/-- `DP.GET_HANDLING()` (R365). -/
def execDpGetHandling (s : State) : Host.Outcome State Fault Refusal :=
  s.finish (.bool s.dp.handling)

/-- `DP.RESOLVE_REAL(v, idt_base)` (R370). -/
def execDpResolveReal (v : Byte) (base : Quad) (s : State) : Host.Outcome State Fault Refusal :=
  s.conclude (resolveReal s.par s.mem v base) .realTarget

/-- `DP.RESOLVE_PROT(v, idt_base, idt_limit)` (R375). -/
def execDpResolveProt (v : Byte) (base : Quad) (limit : Half) (tc : TransCtx) (s : State) :
    Host.Outcome State Fault Refusal :=
  s.conclude (resolveProt s.par s.mem v base limit tc) .protGate

/-- `DP.RESOLVE_LONG(v, idt_base, idt_limit)` (R380). -/
def execDpResolveLong (v : Byte) (base : Quad) (limit : Half) (tc : TransCtx) (s : State) :
    Host.Outcome State Fault Refusal :=
  s.conclude (resolveLong s.par s.mem v base limit tc) .longGate

/-- `DP.RESOLVE(mode, v, idt_base, idt_limit)` (R385): the execution mode alone selects the resolver. -/
def execDpResolve (mode : ExecMode) (v : Byte) (base : Quad) (limit : Half) (tc : TransCtx) (s : State) :
    Host.Outcome State Fault Refusal :=
  match mode with
  | .real => s.conclude (resolveReal s.par s.mem v base) .realTarget
  | .prot => s.conclude (resolveProt s.par s.mem v base limit tc) .protGate
  | .long => s.conclude (resolveLong s.par s.mem v base limit tc) .longGate

end Sys2Proof.Machine
end

