-- ==== Sys2Proof/Machine/Nic.lean ====
section
/-! DEFINITION. The NIC register model and its queues (44_nic.md). No NIC operation can fail (R402). -/

namespace Sys2Proof.Machine

/-- RXT0, the receive-timer cause bit, bit 7 (R124). -/
def causeRxt0 : Dword := 0x80#32

/-- The NIC reset procedure (R311): every register but STATUS, RAL0 and RAH0 becomes 0 and both queues are
emptied; the MAC address and the EEPROM are kept. -/
def Nic.reset (n : Nic) (r : NicMap) : Nic :=
  { n with
    regs := Cells.keep (fun i => i == r.status.toNat || i == r.ral0.toNat || i == r.rah0.toNat) n.regs,
    rx := [], tx := [] }

/-- A write of the merged dword to CTRL (R310): RST, bit 26, resets; otherwise the dword is stored. -/
def Nic.ctrlWrite (n : Nic) (r : NicMap) (merged : Dword) : Nic :=
  if merged.getLsbD 26 then n.reset r else n.setReg r.ctrl merged

/-- The EEPROM word at an address; an address past the 64 words reads 0 (R314). -/
def Nic.eepromWord (n : Nic) (a : Byte) : Half := if a.toNat < 64 then n.eeprom.getD a.toNat 0 else 0

/-- A write of the merged dword to EERD (R314): START, bit 0, completes an EEPROM read at once. -/
def Nic.eerdWrite (n : Nic) (r : NicMap) (merged : Dword) : Nic :=
  if merged.getLsbD 0 then n.setReg r.eerd (eerdDone (n.eepromWord (eerdAddr merged)) (eerdAddr merged))
  else n.setReg r.eerd merged

/-- A write to ICR (R317): write 1 to clear. -/
def Nic.icrWrite (n : Nic) (r : NicMap) (lane : Dword) : Nic := n.setReg r.icr (n.reg r.icr &&& ~~~lane)

/-- A write to ICS (R318): ORed into ICR; ICS stores nothing. -/
def Nic.icsWrite (n : Nic) (r : NicMap) (lane : Dword) : Nic := n.setReg r.icr (n.reg r.icr ||| lane)

/-- A write to IMS (R319): ORed into the mask, which is held at IMS. -/
def Nic.imsWrite (n : Nic) (r : NicMap) (lane : Dword) : Nic := n.setReg r.ims (n.reg r.ims ||| lane)

/-- A write to IMC (R320): cleared out of the mask; IMC stores nothing. -/
def Nic.imcWrite (n : Nic) (r : NicMap) (lane : Dword) : Nic := n.setReg r.ims (n.reg r.ims &&& ~~~lane)

/-- An access inside the window of an accepted width, by register: the cases of R306 in its order. -/
def Nic.store (n : Nic) (r : NicMap) (idx : BitVec 15) (k : BitVec 2) (w : NicWidth) (v : Dword) : Nic :=
  if idx = r.ctrl then n.ctrlWrite r (nicMerged (n.reg idx) k w v)
  else if idx = r.status then n
  else if idx = r.eerd then n.eerdWrite r (nicMerged (n.reg idx) k w v)
  else if idx = r.icr then n.icrWrite r (nicLaneValue k w v)
  else if idx = r.ics then n.icsWrite r (nicLaneValue k w v)
  else if idx = r.ims then n.imsWrite r (nicLaneValue k w v)
  else if idx = r.imc then n.imcWrite r (nicLaneValue k w v)
  else n.setReg idx (nicMerged (n.reg idx) k w v)

/-- The state change of a read inside the window: a read that touches ICR clears all of it (R305, R316). -/
def Nic.afterRead (n : Nic) (r : NicMap) (idx : BitVec 15) : Nic :=
  if idx = r.icr then n.setReg idx 0 else n

/-- `NIC.RECEIVE(frame)` (R325). -/
def Nic.receive (n : Nic) (r : NicMap) (f : Frame) : Nic :=
  ({ n with rx := n.rx ++ [f] } : Nic).setReg r.icr (n.reg r.icr ||| causeRxt0)

/-- `NIC.IRQ_LEVEL()` (R330). -/
def Nic.irqLevel (n : Nic) (r : NicMap) : Bool := (n.reg r.icr &&& n.reg r.ims) != 0

/-! ### The meanings -/

/-- `NIC.READ(off, w)` (R305); a malformed access reads 0 (R302). -/
def execNicRead (off : Quad) (w : Nat) (s : State) : Host.Outcome State Fault Refusal :=
  match nicWidthOf w with
  | none => s.finish (.value 0)
  | some nw =>
    if off.toNat < nicWindow then
      (s.setNic (s.nic.afterRead s.par.nicMap (nicIndex off))).finish
        (.value (nicExtract (s.nic.reg (nicIndex off)) (nicLane off) nw))
    else s.finish (.value 0)

/-- `NIC.WRITE(off, w, v)` (R306); a malformed access is ignored (R302). -/
def execNicWrite (off : Quad) (w : Nat) (v : Quad) (s : State) : Host.Outcome State Fault Refusal :=
  match nicWidthOf w with
  | none => s.finish .unit
  | some nw =>
    if off.toNat < nicWindow then
      (s.setNic (s.nic.store s.par.nicMap (nicIndex off) (nicLane off) nw (v.setWidth 32))).finish .unit
    else s.finish .unit

/-- `NIC.CTRL.W` (R310). -/
def execNicCtrlW (k : BitVec 2) (w : NicWidth) (v : Dword) (s : State) : Host.Outcome State Fault Refusal :=
  (s.setNic (s.nic.ctrlWrite s.par.nicMap (nicMerged (s.nic.reg s.par.nicMap.ctrl) k w v))).finish .unit

/-- `NIC.STATUS.W` (R312): no effect. -/
def execNicStatusW (_k : BitVec 2) (_w : NicWidth) (_v : Dword) (s : State) : Host.Outcome State Fault Refusal :=
  s.finish .unit

/-- `NIC.EERD.W` (R314). -/
def execNicEerdW (k : BitVec 2) (w : NicWidth) (v : Dword) (s : State) : Host.Outcome State Fault Refusal :=
  (s.setNic (s.nic.eerdWrite s.par.nicMap (nicMerged (s.nic.reg s.par.nicMap.eerd) k w v))).finish .unit

/-- `NIC.ICR.W` (R317). -/
def execNicIcrW (k : BitVec 2) (w : NicWidth) (v : Dword) (s : State) : Host.Outcome State Fault Refusal :=
  (s.setNic (s.nic.icrWrite s.par.nicMap (nicLaneValue k w v))).finish .unit

/-- `NIC.ICS.W` (R318). -/
def execNicIcsW (k : BitVec 2) (w : NicWidth) (v : Dword) (s : State) : Host.Outcome State Fault Refusal :=
  (s.setNic (s.nic.icsWrite s.par.nicMap (nicLaneValue k w v))).finish .unit

/-- `NIC.IMS.W` (R319). -/
def execNicImsW (k : BitVec 2) (w : NicWidth) (v : Dword) (s : State) : Host.Outcome State Fault Refusal :=
  (s.setNic (s.nic.imsWrite s.par.nicMap (nicLaneValue k w v))).finish .unit

/-- `NIC.IMC.W` (R320). -/
def execNicImcW (k : BitVec 2) (w : NicWidth) (v : Dword) (s : State) : Host.Outcome State Fault Refusal :=
  (s.setNic (s.nic.imcWrite s.par.nicMap (nicLaneValue k w v))).finish .unit

/-- `NIC.ICR.R` (R316): the covered lanes are returned, then all of ICR is cleared. -/
def execNicIcrR (k : BitVec 2) (w : NicWidth) (s : State) : Host.Outcome State Fault Refusal :=
  (s.setNic (s.nic.setReg s.par.nicMap.icr 0)).finish (.value (nicExtract (s.nic.reg s.par.nicMap.icr) k w))

/-- `NIC.PLAIN.W` (R321, R126). -/
def execNicPlainW (idx : BitVec 15) (k : BitVec 2) (w : NicWidth) (v : Dword) (s : State) :
    Host.Outcome State Fault Refusal :=
  (s.setNic (s.nic.setReg idx (nicMerged (s.nic.reg idx) k w v))).finish .unit

/-- `NIC.RECEIVE(frame)` (R325). -/
def execNicReceive (f : Frame) (s : State) : Host.Outcome State Fault Refusal :=
  (s.setNic (s.nic.receive s.par.nicMap f)).finish .unit

/-- `NIC.DRAIN_TX()` (R327). -/
def execNicDrainTx (s : State) : Host.Outcome State Fault Refusal :=
  (s.setNic { s.nic with tx := [] }).finish (.frames s.nic.tx)

/-- `NIC.QUEUE_TX(frame)` (R328). -/
def execNicQueueTx (f : Frame) (s : State) : Host.Outcome State Fault Refusal :=
  (s.setNic { s.nic with tx := s.nic.tx ++ [f] }).finish .unit

/-- `NIC.IRQ_LEVEL()` (R330). -/
def execNicIrqLevel (s : State) : Host.Outcome State Fault Refusal :=
  s.finish (.bool (s.nic.irqLevel s.par.nicMap))

end Sys2Proof.Machine
end

