-- ==== Sys2Proof/Machine/Pic.lean ====
section
/-! DEFINITION. The PIC pair (42_pic.md): the initialization words, the operating commands, the port reads, and
the host's lines, resolution and acknowledgment. No PIC operation can fail (R402). A meaning performs its rule's
pseudocode; which row a byte is, its bits and the chip's `step` decide, in Decode.lean (notes/assumptions/9.md). -/

namespace Sys2Proof.Machine

/-- `CASCADE_SYNC()` (R201): the master's cascade bit is set exactly when a slave line is pending and unmasked. -/
def Pic.cascadeSync (p : Pic) : Pic :=
  { p with m := { p.m with irr := withBit p.m.irr 2 ((p.s.irr &&& ~~~p.s.imr) != 0) } }

/-- `PIC.ICW1` (R210). -/
def Pic.icw1 (p : Pic) (c : Chip) (v : Byte) : Pic :=
  (p.setChip c { p.chip c with irr := 0, isr := 0, imr := 0, icw0 := v, readIsr := false, autoEoi := false,
                               step := .icw2 }).cascadeSync

/-- `PIC.ICW2` (R212). -/
def Pic.icw2 (p : Pic) (mask : Byte) (c : Chip) (v : Byte) : Pic :=
  p.setChip c { p.chip c with offset := v &&& mask, icw1 := v, step := .icw3 }

/-- `PIC.ICW3` (R213): a mode word follows exactly when ICW1 asked for it (IC4, bit 0). -/
def Pic.icw3 (p : Pic) (c : Chip) (v : Byte) : Pic :=
  p.setChip c { p.chip c with icw2 := v, step := if (p.chip c).icw0.getLsbD 0 then .icw4 else .done }

/-- `PIC.ICW4` (R214). -/
def Pic.icw4 (p : Pic) (c : Chip) (v : Byte) : Pic :=
  p.setChip c { p.chip c with icw3 := v, autoEoi := v.getLsbD 1, step := .done }

/-- `PIC.OCW1` (R215). -/
def Pic.ocw1 (p : Pic) (c : Chip) (v : Byte) : Pic :=
  match c with
  | .master => p.setChip .master { p.m with imr := v }
  | .slave => (p.setChip .slave { p.s with imr := v }).cascadeSync

/-- `PIC.OCW2.NSEOI` (R216): the lowest set in-service bit is cleared. -/
def Pic.nseoi (p : Pic) (c : Chip) : Pic :=
  match lowest (p.chip c).isr with
  | none => p
  | some n => p.setChip c { p.chip c with isr := withBit (p.chip c).isr n false }

/-- `PIC.OCW2.SEOI` (R217): the in-service bit of line `v[2:0]` is cleared. -/
def Pic.seoi (p : Pic) (c : Chip) (v : Byte) : Pic :=
  p.setChip c { p.chip c with isr := withBit (p.chip c).isr (v.extractLsb' 0 3).toNat false }

/-- `PIC.OCW3.RR` (R219): the read select. -/
def Pic.selectRead (p : Pic) (c : Chip) (v : Byte) : Pic :=
  p.setChip c { p.chip c with readIsr := v.getLsbD 0 }

/-- `PIC.RAISE(n)` and `PIC.LOWER(n)` (R225, R226): line n's request bit is written, and a slave line's write
recomputes the cascade bit. -/
def Pic.line (p : Pic) (n : Nat) (level : Bool) : Pic :=
  if n < 8 then { p with m := { p.m with irr := withBit p.m.irr n level } }
  else if n < 16 then ({ p with s := { p.s with irr := withBit p.s.irr (n - 8) level } } : Pic).cascadeSync
  else p

/-- A chip's candidates: requested, not masked, not in service (R228). -/
def PicChip.eligible (x : PicChip) : Byte := x.irr &&& ~~~x.imr &&& ~~~x.isr

/-- The vector of a line of a chip (R103). -/
def PicChip.vector (x : PicChip) (n : Nat) : Byte := x.offset + BitVec.ofNat 8 n

/-- `PIC.RESOLVE()` (R228, R229). -/
def Pic.resolve (p : Pic) : Option (Nat × Byte) :=
  match lowest p.m.eligible with
  | none => none
  | some b =>
    if b = 2 then
      match lowest p.s.eligible with
      | none => none
      | some k => some (8 + k, p.s.vector k)
    else some (b, p.m.vector b)

/-- A line of a chip moves from request to service, and out of it again under auto-EOI (R230). -/
def PicChip.accept (x : PicChip) (n : Nat) : PicChip :=
  { x with irr := withBit x.irr n false, isr := withBit x.isr n (!x.autoEoi) }

/-- `PIC.ACK(n)` (R230): a slave line also moves the master's line 2. -/
def Pic.ack (p : Pic) (n : Nat) : Pic :=
  if n < 8 then { p with m := p.m.accept n }
  else if n < 16 then ({ m := p.m.accept 2, s := p.s.accept (n - 8) } : Pic).cascadeSync
  else p

/-! ### The meanings -/

/-- `PIC.ICW1` (R210). -/
def execPicIcw1 (c : Chip) (v : Byte) (s : State) : Host.Outcome State Fault Refusal :=
  (s.setPic (s.pic.icw1 c v)).finish .unit

/-- `PIC.ICW2` (R212). -/
def execPicIcw2 (c : Chip) (v : Byte) (s : State) : Host.Outcome State Fault Refusal :=
  (s.setPic (s.pic.icw2 s.par.icw2Mask c v)).finish .unit

/-- `PIC.ICW3` (R213). -/
def execPicIcw3 (c : Chip) (v : Byte) (s : State) : Host.Outcome State Fault Refusal :=
  (s.setPic (s.pic.icw3 c v)).finish .unit

/-- `PIC.ICW4` (R214). -/
def execPicIcw4 (c : Chip) (v : Byte) (s : State) : Host.Outcome State Fault Refusal :=
  (s.setPic (s.pic.icw4 c v)).finish .unit

/-- `PIC.OCW1` (R215). -/
def execPicOcw1 (c : Chip) (v : Byte) (s : State) : Host.Outcome State Fault Refusal :=
  (s.setPic (s.pic.ocw1 c v)).finish .unit

/-- `PIC.OCW2.NSEOI` (R216): bits 2:0 of the byte are ignored. -/
def execPicOcw2Nseoi (c : Chip) (_v : Byte) (s : State) : Host.Outcome State Fault Refusal :=
  (s.setPic (s.pic.nseoi c)).finish .unit

/-- `PIC.OCW2.SEOI` (R217). -/
def execPicOcw2Seoi (c : Chip) (v : Byte) (s : State) : Host.Outcome State Fault Refusal :=
  (s.setPic (s.pic.seoi c v)).finish .unit

/-- `PIC.OCW2.OTHER` (R218): accepted, no effect. -/
def execPicOcw2Other (_c : Chip) (_v : Byte) (s : State) : Host.Outcome State Fault Refusal :=
  s.finish .unit

/-- `PIC.OCW3.RR` (R219). -/
def execPicOcw3Rr (c : Chip) (v : Byte) (s : State) : Host.Outcome State Fault Refusal :=
  (s.setPic (s.pic.selectRead c v)).finish .unit

/-- `PIC.OCW3.NORR` (R220): accepted, no effect. -/
def execPicOcw3Norr (_c : Chip) (_v : Byte) (s : State) : Host.Outcome State Fault Refusal :=
  s.finish .unit

/-- `PIC.READ_CMD` (R221). -/
def execPicReadCmd (c : Chip) (s : State) : Host.Outcome State Fault Refusal :=
  s.finish (.byte (if (s.pic.chip c).readIsr then (s.pic.chip c).isr else (s.pic.chip c).irr))

/-- `PIC.READ_DATA` (R222). -/
def execPicReadData (c : Chip) (s : State) : Host.Outcome State Fault Refusal :=
  s.finish (.byte (s.pic.chip c).imr)

/-- `PIC.RAISE(n)` (R225). -/
def execPicRaise (n : Nat) (s : State) : Host.Outcome State Fault Refusal :=
  (s.setPic (s.pic.line n true)).finish .unit

/-- `PIC.LOWER(n)` (R226). -/
def execPicLower (n : Nat) (s : State) : Host.Outcome State Fault Refusal :=
  (s.setPic (s.pic.line n false)).finish .unit

/-- `PIC.RESOLVE()` (R228). -/
def execPicResolve (s : State) : Host.Outcome State Fault Refusal :=
  s.finish (.line s.pic.resolve)

/-- `PIC.ACK(n)` (R230). -/
def execPicAck (n : Nat) (s : State) : Host.Outcome State Fault Refusal :=
  (s.setPic (s.pic.ack n)).finish .unit

end Sys2Proof.Machine
end

