-- ==== Sys2Proof/Machine/Pit.lean ====
section
/-! DEFINITION. The interval timer (43_pit.md): the control port, the count ports, the tick of each mode, and the
host's tick and gate. No timer operation can fail (R402). -/

namespace Sys2Proof.Machine

/-- The output level a control word or a full count leaves: low in mode 0, high otherwise (R256, R263). -/
def PitMode.initialOut (m : PitMode) : Bool := !(m == .m0)

/-- `PIT.CTRL.MODE` on its channel (R256): reload and counter keep their values, the channel stops. -/
def PitChannel.program (ch : PitChannel) (rw : PitAccess) (m : BitVec 3) : PitChannel :=
  { ch with access := rw, mode := pitModeOf m, writeHi := false, readHi := false, latchActive := false,
            enabled := false, out := (pitModeOf m).initialOut }

/-- `PIT.CTRL.LATCH` on its channel (R258): a snapshot still being drained is kept. -/
def PitChannel.latch (ch : PitChannel) : PitChannel :=
  if ch.latchActive then ch else { ch with latched := ch.counter, latchActive := true }

/-- `LOAD(ch, r)`, the completion of a count write (R263). -/
def PitChannel.load (ch : PitChannel) (r : Half) : PitChannel :=
  { ch with reload := r, counter := r, enabled := true, out := ch.mode.initialOut }

/-- `PIT.COUNT.WRITE` on its channel (R262, R110). -/
def PitChannel.countWrite (ch : PitChannel) (v : Byte) : PitChannel :=
  match ch.access with
  | .loOnly => ch.load (0#8 ++ v)
  | .hiOnly => ch.load (v ++ 0#8)
  | .loHi =>
    if ch.writeHi then ({ ch with writeHi := false } : PitChannel).load (v ++ ch.stagedLo)
    else { ch with stagedLo := v, writeHi := true }

/-- The value a count read takes its byte from (R265). -/
def PitChannel.readable (ch : PitChannel) : Half := if ch.latchActive then ch.latched else ch.counter

/-- The byte `PIT.COUNT.READ` returns (R265). -/
def PitChannel.countByte (ch : PitChannel) : Byte :=
  match ch.access with
  | .loOnly => ch.readable.extractLsb' 0 8
  | .hiOnly => ch.readable.extractLsb' 8 8
  | .loHi => if ch.readHi then ch.readable.extractLsb' 8 8 else ch.readable.extractLsb' 0 8

/-- The channel after `PIT.COUNT.READ` (R265): a snapshot is released once all of its bytes are read. -/
def PitChannel.countRead (ch : PitChannel) : PitChannel :=
  match ch.access with
  | .loOnly => { ch with latchActive := false }
  | .hiOnly => { ch with latchActive := false }
  | .loHi =>
    if ch.readHi then { ch with readHi := false, latchActive := false } else { ch with readHi := true }

/-- A tick in mode 0 (R272). -/
def PitChannel.tick0 (ch : PitChannel) : PitChannel × Bool :=
  let counter := ch.counter - 1
  let out := ch.out || counter == 0
  ({ ch with counter := counter, out := out }, !ch.out && out)

/-- A tick in mode 2 (R274): the reload is the edge. -/
def PitChannel.tick2 (ch : PitChannel) : PitChannel × Bool :=
  if ch.counter = 1 then ({ ch with counter := ch.reload, out := true }, true)
  else ({ ch with counter := ch.counter - 1, out := !(ch.counter - 1 == 1) }, false)

/-- A tick in mode 3 (R276): `e` counts 0 as 65536 and `d` is an unbounded integer. -/
def PitChannel.tick3 (ch : PitChannel) : PitChannel × Bool :=
  let e : Int := if ch.counter = 0 then 65536 else ch.counter.toNat
  let d : Int := e - 2
  if d ≤ 1 then ({ ch with out := !ch.out, counter := ch.reload }, !ch.out)
  else ({ ch with counter := BitVec.ofInt 16 d }, false)

/-- A tick in modes 1, 4 and 5 (R278). -/
def PitChannel.tickOther (ch : PitChannel) : PitChannel × Bool :=
  ({ ch with counter := if ch.counter - 1 = 0 then ch.reload else ch.counter - 1 }, false)

/-- `TICKCH(ch)` (R270): one clock of one channel and its edge; a disabled or gate-low channel does not advance. -/
def PitChannel.tick (ch : PitChannel) : PitChannel × Bool :=
  if ch.enabled && ch.gate then
    match ch.mode with
    | .m0 => ch.tick0
    | .m1 => ch.tickOther
    | .m2 => ch.tick2
    | .m3 => ch.tick3
    | .m4 => ch.tickOther
    | .m5 => ch.tickOther
  else (ch, false)

/-- The timer after `PIT.TICK` (R280): every channel is clocked once. -/
def Pit.tick (t : Pit) : Pit := { ch0 := t.ch0.tick.1, ch1 := t.ch1.tick.1, ch2 := t.ch2.tick.1 }

/-- `PIT.SETGATE(c, level)` (R282): channels other than 0 to 2 have no effect. -/
def Pit.setGate (t : Pit) (c : Nat) (level : Bool) : Pit :=
  match pitChanNat c with
  | none => t
  | some ch => t.setChan ch { t.chan ch with gate := level }

/-! ### The meanings -/

/-- `PIT.CTRL.MODE` (R256): BCD is ignored (R109). -/
def execPitCtrlMode (c : PitChan) (rw : PitAccess) (m : BitVec 3) (_bcd : Bool) (s : State) :
    Host.Outcome State Fault Refusal :=
  (s.setPit (s.pit.setChan c ((s.pit.chan c).program rw m))).finish .unit

/-- `PIT.CTRL.LATCH` (R258). -/
def execPitCtrlLatch (c : PitChan) (_low : BitVec 4) (s : State) : Host.Outcome State Fault Refusal :=
  (s.setPit (s.pit.setChan c (s.pit.chan c).latch)).finish .unit

/-- `PIT.CTRL.READBACK` (R259): no effect. -/
def execPitCtrlReadback (_low : BitVec 6) (s : State) : Host.Outcome State Fault Refusal :=
  s.finish .unit

/-- `PIT.COUNT.WRITE` (R262). -/
def execPitCountWrite (c : PitChan) (v : Byte) (s : State) : Host.Outcome State Fault Refusal :=
  (s.setPit (s.pit.setChan c ((s.pit.chan c).countWrite v))).finish .unit

/-- `PIT.COUNT.READ` (R265). -/
def execPitCountRead (c : PitChan) (s : State) : Host.Outcome State Fault Refusal :=
  (s.setPit (s.pit.setChan c (s.pit.chan c).countRead)).finish (.byte (s.pit.chan c).countByte)

/-- `PIT.CTRL.READ` (R267): returns 0 and changes nothing. -/
def execPitCtrlRead (s : State) : Host.Outcome State Fault Refusal :=
  s.finish (.byte 0)

/-- `PIT.TICK()` (R280): channel 0's edge is returned, the others' are not reported. -/
def execPitTick (s : State) : Host.Outcome State Fault Refusal :=
  (s.setPit s.pit.tick).finish (.bool s.pit.ch0.tick.2)

/-- `PIT.SETGATE(c, level)` (R282). -/
def execPitSetGate (c : Nat) (level : Bool) (s : State) : Host.Outcome State Fault Refusal :=
  (s.setPit (s.pit.setGate c level)).finish .unit

end Sys2Proof.Machine
end

