-- ==== Sys2Proof/Machine/Dispatch.lean ====
section
/-! DEFINITION. One arm per operation of R90, each one direct call of its meaning. -/

namespace Sys2Proof.Machine

def exec (i : Instr) (s : State) : Host.Outcome State Fault Refusal :=
  match i with
  | .translate la kind cpl cfg cr3 => Sys2Proof.Machine.execTranslate la kind cpl cfg cr3 s
  | .picIcw1 c v => Sys2Proof.Machine.execPicIcw1 c v s
  | .picIcw2 c v => Sys2Proof.Machine.execPicIcw2 c v s
  | .picIcw3 c v => Sys2Proof.Machine.execPicIcw3 c v s
  | .picIcw4 c v => Sys2Proof.Machine.execPicIcw4 c v s
  | .picOcw1 c v => Sys2Proof.Machine.execPicOcw1 c v s
  | .picOcw2Nseoi c v => Sys2Proof.Machine.execPicOcw2Nseoi c v s
  | .picOcw2Seoi c v => Sys2Proof.Machine.execPicOcw2Seoi c v s
  | .picOcw2Other c v => Sys2Proof.Machine.execPicOcw2Other c v s
  | .picOcw3Rr c v => Sys2Proof.Machine.execPicOcw3Rr c v s
  | .picOcw3Norr c v => Sys2Proof.Machine.execPicOcw3Norr c v s
  | .picReadCmd c => Sys2Proof.Machine.execPicReadCmd c s
  | .picReadData c => Sys2Proof.Machine.execPicReadData c s
  | .picRaise n => Sys2Proof.Machine.execPicRaise n s
  | .picLower n => Sys2Proof.Machine.execPicLower n s
  | .picResolve => Sys2Proof.Machine.execPicResolve s
  | .picAck n => Sys2Proof.Machine.execPicAck n s
  | .pitCtrlMode c rw m bcd => Sys2Proof.Machine.execPitCtrlMode c rw m bcd s
  | .pitCtrlLatch c low => Sys2Proof.Machine.execPitCtrlLatch c low s
  | .pitCtrlReadback low => Sys2Proof.Machine.execPitCtrlReadback low s
  | .pitCountWrite c v => Sys2Proof.Machine.execPitCountWrite c v s
  | .pitCountRead c => Sys2Proof.Machine.execPitCountRead c s
  | .pitCtrlRead => Sys2Proof.Machine.execPitCtrlRead s
  | .pitTick => Sys2Proof.Machine.execPitTick s
  | .pitSetGate c level => Sys2Proof.Machine.execPitSetGate c level s
  | .nicRead off w => Sys2Proof.Machine.execNicRead off w s
  | .nicWrite off w v => Sys2Proof.Machine.execNicWrite off w v s
  | .nicCtrlW k w v => Sys2Proof.Machine.execNicCtrlW k w v s
  | .nicStatusW k w v => Sys2Proof.Machine.execNicStatusW k w v s
  | .nicEerdW k w v => Sys2Proof.Machine.execNicEerdW k w v s
  | .nicIcrW k w v => Sys2Proof.Machine.execNicIcrW k w v s
  | .nicIcsW k w v => Sys2Proof.Machine.execNicIcsW k w v s
  | .nicImsW k w v => Sys2Proof.Machine.execNicImsW k w v s
  | .nicImcW k w v => Sys2Proof.Machine.execNicImcW k w v s
  | .nicIcrR k w => Sys2Proof.Machine.execNicIcrR k w s
  | .nicPlainW idx k w v => Sys2Proof.Machine.execNicPlainW idx k w v s
  | .nicReceive f => Sys2Proof.Machine.execNicReceive f s
  | .nicDrainTx => Sys2Proof.Machine.execNicDrainTx s
  | .nicQueueTx f => Sys2Proof.Machine.execNicQueueTx f s
  | .nicIrqLevel => Sys2Proof.Machine.execNicIrqLevel s
  | .dpRaise v => Sys2Proof.Machine.execDpRaise v s
  | .dpAck v => Sys2Proof.Machine.execDpAck v s
  | .dpSample flags => Sys2Proof.Machine.execDpSample flags s
  | .dpSetShadow b => Sys2Proof.Machine.execDpSetShadow b s
  | .dpSetHandling b => Sys2Proof.Machine.execDpSetHandling b s
  | .dpGetHandling => Sys2Proof.Machine.execDpGetHandling s
  | .dpResolveReal v base => Sys2Proof.Machine.execDpResolveReal v base s
  | .dpResolveProt v base limit tc => Sys2Proof.Machine.execDpResolveProt v base limit tc s
  | .dpResolveLong v base limit tc => Sys2Proof.Machine.execDpResolveLong v base limit tc s
  | .dpResolve mode v base limit tc => Sys2Proof.Machine.execDpResolve mode v base limit tc s

end Sys2Proof.Machine
end

