-- ==== Sys2Proof/Machine/Step.lean ====
section
/-! DEFINITION. One step: the next thing the outside does (R19, R73) is taken from the inbox, decoded and run to
completion. With an empty inbox the host has made no call and nothing happens. -/

namespace Sys2Proof.Machine

/-- A guest access or host call: decoded by the parameters and the chips' steps (R92, R148) and executed, or, where
it is no operation, absorbed (R67). -/
def runRequest (r : Request) (s : State) : Host.Outcome State Fault Refusal :=
  match decode s.par s.pic.steps r with
  | .ok i => exec i s
  | .error j => s.absorb j

/-- One event of the outside. -/
def runEvent (e : Event) (s : State) : Host.Outcome State Fault Refusal :=
  match e with
  | .op r => runRequest r s
  | .store pa n v => hostStore s pa n v
  | .accessor rules => hostAccessor s rules

/-- One atomic step (R73, R75). -/
def step (s : State) : Host.Outcome State Fault Refusal :=
  match s.inbox with
  | [] => .next s
  | e :: rest => runEvent e (s.setInbox rest)

/-- The state with a word of the opcode table as the next request (`tableRequest`), so that the very next step
decodes and runs it; a row without a word leaves the state as it is. -/
def State.withFetchWord (s : State) (nbits w : Nat) : State :=
  match tableRequest s.par nbits w with
  | none => s
  | some r => s.setInbox (.op r :: s.inbox)

end Sys2Proof.Machine
end

