-- ==== Sys2Proof/Machine/Router.lean ====
section
/-! DEFINITION. The reference router of R93, R411 and R412, which the spec's test programs assume, and the transmit
path of R328. It stands outside
the block (R5) and no step of the block depends on it: each function says which calls the router makes next, and the
caller puts them into the inbox (notes/assumptions/12.md). -/

namespace Sys2Proof.Machine

/-- A router call as an event of the inbox. -/
def routerCall (i : Instr) : Event := .op (.call i)

/-- The offset at which a guest-physical address reaches the NIC (R93); none outside the window. -/
def routeMmio (p : Params) (gpa : Quad) : Option Quad :=
  if p.nicMmioBase.toNat ≤ gpa.toNat ∧ gpa.toNat < p.nicMmioBase.toNat + nicWindow then some (gpa - p.nicMmioBase)
  else none

/-- After a `PIT.TICK` (R411): an edge raises PIC line 0, and nothing lowers it. -/
def routeTick (r : Reply) : List Event :=
  if r = .bool true then [routerCall (.picRaise 0)] else []

/-- After a NIC operation (R411): a change of the NIC's level raises or lowers line `NIC_IRQ_LINE`. -/
def routeNic (before after : State) : List Event :=
  match before.nic.irqLevel before.par.nicMap, after.nic.irqLevel after.par.nicMap with
  | false, true => [routerCall (.picRaise after.par.nicIrqLine)]
  | true, false => [routerCall (.picLower after.par.nicIrqLine)]
  | false, false => []
  | true, true => []

/-- An access as it reaches the block is one that an entry of `NIC_TX_PATH` names; a host call is no guest access. -/
def txHit (a : TxAccess) (r : Request) : Bool :=
  match a, r with
  | .portRead port w, .portRead port' w' => decide (port' = port ∧ w' = w)
  | .portWrite port w mask value, .portWrite port' w' v => decide (port' = port ∧ w' = w ∧ v &&& mask = value)
  | .mmioRead off w, .mmioRead off' w' => decide (off' = off ∧ w' = w)
  | .mmioWrite off w mask value, .mmioWrite off' w' v => decide (off' = off ∧ w' = w ∧ v &&& mask = value)
  | _, _ => false

/-- After a guest access of any kind (R7, R328): where `NIC_TX_PATH` names it, the frame f it transmits is queued by
`NIC.QUEUE_TX`. Which frame that is, the spec does not say; the caller gives it. -/
def routeTransmit (p : Params) (r : Request) (f : Frame) : List Event :=
  if p.nicTxPath.any (fun a => txHit a r) then [routerCall (.nicQueueTx f)] else []

/-- At an instruction boundary (R412): where the caller would accept an interrupt, what the PIC resolves to is
acknowledged and its vector raised in the pipeline. -/
def routeBoundary (flags : Quad) (s : State) : List Event :=
  if interruptEnable flags && !s.dp.shadow then
    match s.pic.resolve with
    | none => []
    | some (n, v) => [routerCall (.picAck n), routerCall (.dpRaise v)]
  else []

end Sys2Proof.Machine
end

