-- ==== Sys2Proof/Safety.lean ====
section
/-! DEFINITION. What counts as a good state and a safe step, in the terms the statements use. -/

namespace Sys2Proof.Machine

/-- The cascade bit says what R201 and 90_conflicts.md C2, C3 say: master line 2 is requested exactly when a slave
line is pending and unmasked. -/
def Pic.CascadeInSync (p : Pic) : Prop :=
  p.m.irr.getLsbD 2 = ((p.s.irr &&& ~~~p.s.imr) != 0)

/-- The host calls that write the cascade bit by hand (R225, R226, R230; R471): line 2 raised, lowered or
acknowledged. -/
def overridesCascade (r : Request) : Prop :=
  r = .call (.picRaise 2) ∨ r = .call (.picLower 2) ∨ r = .call (.picAck 2)

/-- The NIC's register file is canonical and within its 32768 registers (R34); ICS and IMC hold nothing (R318,
R320); STATUS holds its value (R312); the EEPROM has its 64 words (R35). -/
structure NicOk (p : Params) (n : Nic) : Prop where
  regs   : Cells.wf 32768 0 n.regs = true
  ics    : n.reg p.nicMap.ics = 0
  imc    : n.reg p.nicMap.imc = 0
  status : n.reg p.nicMap.status = p.nicStatus
  eeprom : n.eeprom.length = 64

/-- The good states: a legal configuration, guest memory in its canonical form, a good NIC. -/
structure Good (s : State) : Prop where
  par : s.par.WellFormed
  mem : s.mem.cells.wf = true
  nic : NicOk s.par s.nic

/-- The reply is a fault outcome. -/
def Reply.isRaised : Reply → Bool
  | .raised _ => true
  | _ => false

/-- The step goes on: neither a fault nor a refusal. -/
def Answers (o : Host.Outcome State Fault Refusal) : Prop := ∃ t, o = .next t

/-- k clocks of the timer (R280), each on the state the one before left, and whether channel 0 reported an edge
at each. -/
def tickRun : Nat → Pit → Pit × List Bool
  | 0, t => (t, [])
  | k + 1, t => ((tickRun k t.tick).1, t.ch0.tick.2 :: (tickRun k t.tick).2)

end Sys2Proof.Machine
end

