-- ==== Sys2Proof/Certificates/Slice0/Obligations.lean ====
section
/-! DEFINITION. The statements for the provers, from the numbered rules of spec/. A next state is written as the
state before with the fields that change, so each statement is its own frame. `reply` is what the operation
returns to its caller (notes/assumptions/3.md). -/

open Sys2Proof
open Sys2Proof.Machine

/-! ### The step, the decoder and the encoder -/

/-- A step takes the next request, decodes it with the chips' steps and runs it, the request being gone (R73).
The inbox is the model's own (notes/assumptions/2.md). -/
def Obligations.StepRunsTheDecodedOperation : Prop :=
  ∀ (s : State) (r : Request) (rest : List Event) (i : Instr),
    s.inbox = .op r :: rest → decode s.par s.pic.steps r = .ok i →
    step s = exec i { s with inbox := rest }

/-- Whatever the decoder answers has the bits its row asks for and is decoded in the step its row asks for (R90,
R94, R102), and a timer access has a port (the model's inference: notes/assumptions/19.md). -/
def Obligations.DecodedOperationIsWellFormed : Prop :=
  ∀ (p : Params) (t : PicSteps) (r : Request) (i : Instr),
    decode p t r = .ok i → i.wf p = true ∧ i.atStep t = true

/-- Decode and encode agree on every operation of the table with every operand, in every legal configuration
(notes/assumptions/4.md). A timer access is well-formed where its register has a port (notes/assumptions/19.md). -/
def Obligations.DecodeOfEncodeIsTheOperation : Prop :=
  ∀ (p : Params) (t : PicSteps) (i : Instr),
    p.WellFormed → i.wf p = true → i.atStep t = true → decode p t (encode p i) = .ok i

/-- The other direction for a guest's accesses to the NIC's registers. A write within the window: the offset's
register and lane and the width are what the encoder puts back (R93, R63). A read within the window: `NIC.ICR.R` of
its lane and width exactly where it touches ICR, else `NIC.READ` of the access (R305, R316). -/
def Obligations.EncodeOfDecodedNicWriteIsTheAccess : Prop :=
  ∀ (p : Params) (t : PicSteps) (off : Quad) (w : NicWidth) (v : Dword),
    off.toNat < 0x20000 →
    encode p (decodeMmioWrite p off w.bytes (v.setWidth 64)) = .mmioWrite off w.bytes (v.setWidth 64)
    ∧ decode p t (.mmioRead off w.bytes) =
        .ok (if off.toNat / 4 = p.nicMap.icr.toNat then .nicIcrR (BitVec.ofNat 2 off.toNat) w
             else .nicRead off w.bytes)

/-- Words of the spec's encodings decode to the operations they stand for (R91, R94 to R101, R105, R120). -/
def Obligations.SpecWordsDecode : Prop :=
  let d (t : PicSteps) (r : Request) := decode Params.default t r
  let z : PicSteps := { master := .done, slave := .done }
  d z (.portWrite 0x20 1 0x11) = .ok (.picIcw1 .master 0x11)
  ∧ d { master := .icw2, slave := .done } (.portWrite 0x21 1 0x20) = .ok (.picIcw2 .master 0x20)
  ∧ d z (.portWrite 0xA1 1 0xFD) = .ok (.picOcw1 .slave 0xFD)
  ∧ d z (.portWrite 0xA0 1 0x62) = .ok (.picOcw2Seoi .slave 0x62)
  ∧ d z (.portWrite 0x20 1 0x0B) = .ok (.picOcw3Rr .master 0x0B)
  ∧ d z (.portWrite 0x43 1 0x34) = .ok (.pitCtrlMode .c0 .loHi 2#3 false)
  ∧ d z (.portWrite 0x43 1 0x80) = .ok (.pitCtrlLatch .c2 0#4)
  ∧ d z (.portRead 0x41 1) = .ok (.pitCountRead .c1)
  ∧ d z (.mmioWrite 0x3 1 0x04) = .ok (.nicCtrlW 3#2 .b1 0x04)
  ∧ d z (.mmioWrite 0x5404 4 0x5634) = .ok (.nicPlainW 5377#15 0#2 .b4 0x5634)
  ∧ d z (.mmioRead 0xC1 1) = .ok (.nicIcrR 1#2 .b1)

/-- A guest access that is malformed changes nothing: a write returns nothing and a read returns 0. A port access is
so where its width is not one byte or none of the block's devices decodes the port (R67), an access of the NIC's
window where its offset is past the window or its width is not 1, 2 or 4 (R302). Which ports the devices decode for a
`PIT_BASE` above 0xFFFC is the model's inference: the timer's ports past 0xFFFF do not exist, and port 0x0000 on is not
the timer's (notes/assumptions/19.md). That a port access carries 32 bits and the 0 returned is a 32-bit value is the
model's choice (notes/assumptions/13.md). -/
def Obligations.MalformedPortAccessIsAbsorbed : Prop :=
  ∀ (s : State) (rest : List Event) (w : Nat),
    let absorbed (r : Request) (back : Reply) : Prop :=
      s.inbox = .op r :: rest → step s = .next { s with inbox := rest, reply := back }
    (∀ (port : Half) (v : Dword), w ≠ 1 ∨ port.toNat ∉ s.par.ports →
      absorbed (.portWrite port w v) .unit ∧ absorbed (.portRead port w) (.value 0))
    ∧ (∀ (off v : Quad), 0x20000 ≤ off.toNat ∨ w ∉ [1, 2, 4] →
      absorbed (.mmioWrite off w v) .unit ∧ absorbed (.mmioRead off w) (.value 0))

/-! ### Every operation -/

/-- Every operation of the table has a result in one step (R75); none writes guest memory (R66), a parameter, or
the calls still to come. -/
def Obligations.EveryOperationCompletesInOneStep : Prop :=
  ∀ (i : Instr) (s : State),
    ∃ t, exec i s = .next t ∧ t.mem = s.mem ∧ t.par = s.par ∧ t.inbox = s.inbox

/-- An operation that raises or propagates a fault outcome writes no state of the block (R12, R403). -/
def Obligations.FaultOutcomesLeaveTheBlockUnchanged : Prop :=
  ∀ (i : Instr) (s t : State) (r : Raised),
    exec i s = .next t → t.reply = .raised r → t = { s with reply := .raised r }

/-- Device operations never fault: only the translation and the resolvers can return a fault outcome (R402). -/
def Obligations.DeviceOperationsNeverFault : Prop :=
  ∀ (i : Instr) (s t : State) (r : Raised),
    exec i s = .next t → t.reply = .raised r →
    (∃ la kind cpl cfg cr3, i = .translate la kind cpl cfg cr3)
    ∨ (∃ v base, i = .dpResolveReal v base)
    ∨ (∃ v base limit tc, i = .dpResolveProt v base limit tc)
    ∨ (∃ v base limit tc, i = .dpResolveLong v base limit tc)
    ∨ (∃ mode v base limit tc, i = .dpResolve mode v base limit tc)

/-! ### Power-on and the invariants -/

/-- Power-on of the chips, the channels, the NIC and the pipeline, for every choice of the parameters, the MAC
address and the EEPROM image (R29, R33, R37, R40). -/
def Obligations.PowerOnValues : Prop :=
  ∀ (p : Params) (mac : Mac) (eeprom : List Half), p.WellFormed →
    let s := State.powerOn p mac eeprom
    (∀ c, s.pic.chip c = { irr := 0, isr := 0, imr := 0, icw0 := 0, icw1 := 0, icw2 := 0, icw3 := 0, step := .done,
                           offset := 0, readIsr := false, autoEoi := false })
    ∧ (∀ c, s.pit.chan c = { reload := 0, counter := 0, out := false, mode := .m0, access := .loHi, latched := 0,
                             latchActive := false, writeHi := false, readHi := false, stagedLo := 0, gate := true,
                             enabled := false })
    ∧ (∀ i, s.nic.reg i =
        if i = p.nicMap.status then p.nicStatus
        else if i = p.nicMap.ral0 then
          BitVec.ofNat 32 (mac.b0.toNat + mac.b1.toNat * 2 ^ 8 + mac.b2.toNat * 2 ^ 16 + mac.b3.toNat * 2 ^ 24)
        else if i = p.nicMap.rah0 then
          BitVec.ofNat 32 (mac.b4.toNat + mac.b5.toNat * 2 ^ 8 + (if p.nicRahAv then 2 ^ 31 else 0))
        else 0)
    ∧ s.nic.mac = mac ∧ s.nic.eeprom = eeprom ∧ s.nic.rx = [] ∧ s.nic.tx = []
    ∧ s.dp = { pending0 := 0, pending1 := 0, pending2 := 0, pending3 := 0, shadow := false, handling := false }

/-- The invariant `Good` (canonical memory and register file, ICS and IMC empty, STATUS at its value, 64 EEPROM
words, a legal configuration) holds at power-on, with any legal parameters and any 64-word image, and so at
State.reset. -/
def Obligations.GoodAtPowerOn : Prop :=
  (∀ (p : Params) (mac : Mac) (eeprom : List Half), p.WellFormed → eeprom.length = 64 →
    Good (State.powerOn p mac eeprom))
  ∧ Good State.reset

/-- Every step keeps `Good`: among the rest, no operation ever writes STATUS, and ICS and IMC never hold anything
(R312, R318, R320). -/
def Obligations.EveryStepKeepsGood : Prop :=
  ∀ (s t : State), Good s → step s = .next t → Good t

/-- The cascade bit is set exactly when a slave line is pending and unmasked, and every step keeps it so, but for
three host calls on line 2: RAISE 2 and LOWER 2, which R471 says override the bit, and ACK 2, which by R230 clears it
without recomputing it; that ACK 2 is left out is the model's inference (notes/assumptions/18.md). -/
def Obligations.EveryStepKeepsTheCascadeInSync : Prop :=
  ∀ (s t : State), s.pic.CascadeInSync → step s = .next t →
    (∀ r rest, s.inbox = .op r :: rest → ¬ overridesCascade r) → t.pic.CascadeInSync

/-- The cascade bit is in step with the slave at power-on. -/
def Obligations.CascadeInSyncAtPowerOn : Prop :=
  ∀ (p : Params) (mac : Mac) (eeprom : List Half), (State.powerOn p mac eeprom).pic.CascadeInSync

/-- Only `DP.RAISE` sets a pending bit and only `DP.ACK` clears one; no other operation, the PIC's, the timer's and
the NIC's among them, touches the mask (R356). -/
def Obligations.OnlyRaiseAndAckTouchThePendingMask : Prop :=
  ∀ (i : Instr) (s t : State) (u : Byte), exec i s = .next t →
    t.dp.isPending u.toNat =
      (if i = .dpRaise u then true else if i = .dpAck u then false else s.dp.isPending u.toNat)

/-- A data-port write while a chip is being initialized never changes a mask register (R233). -/
def Obligations.DataWriteDuringInitKeepsTheMasks : Prop :=
  ∀ (s t : State) (rest : List Event) (c : Chip) (v : Byte), s.par.WellFormed →
    s.inbox = .op (putByte s.par (.picData c) v) :: rest → (s.pic.chip c).step ≠ .done →
    step s = .next t → ∀ d, (t.pic.chip d).imr = (s.pic.chip d).imr

/-- The received frames only grow, by `NIC.RECEIVE`, or are all dropped by a write of CTRL (R326); the transmit queue
only grows by `NIC.QUEUE_TX`, no register write appending to it (R328), or is emptied by `NIC.DRAIN_TX` or a write of
CTRL. `NIC_TX_PATH` stays outside the operations, as the model carries it (notes/assumptions/8.md). -/
def Obligations.QueuesChangeOnlyAsTheHooksSay : Prop :=
  ∀ (i : Instr) (s t : State), exec i s = .next t →
    let writesCtrl : Prop :=
      (∃ k w v, i = .nicCtrlW k w v)
      ∨ (∃ off w v, i = .nicWrite off w v ∧ off.toNat < 0x20000 ∧ w ∈ [1, 2, 4]
          ∧ off.toNat / 4 = s.par.nicMap.ctrl.toNat)
    (t.nic.rx = s.nic.rx ∨ (∃ f, i = .nicReceive f ∧ t.nic.rx = s.nic.rx ++ [f])
      ∨ (t.nic.rx = [] ∧ writesCtrl))
    ∧ (t.nic.tx = s.nic.tx ∨ (∃ f, i = .nicQueueTx f ∧ t.nic.tx = s.nic.tx ++ [f])
      ∨ (t.nic.tx = [] ∧ (i = .nicDrainTx ∨ writesCtrl)))

/-- A store into guest memory between two operations changes exactly the bytes it covers, in little-endian order,
and every byte of the 64-bit space reads as before elsewhere (R14, R62). That a store is an event of the inbox is
the model's choice (notes/assumptions/7.md). -/
def Obligations.HostStoreWritesExactlyItsBytes : Prop :=
  ∀ (s : State) (rest : List Event) (pa : Quad) (n : MemWidth) (v : Quad),
    s.mem.cells.wf = true → s.inbox = .store pa n v :: rest → pa.toNat + n.bytes ≤ 2 ^ 64 →
    s.mem.failure pa.toNat n.bytes = none →
    ∃ m, step s = .next { s with mem := { s.mem with cells := m }, inbox := rest, reply := .unit }
      ∧ (∀ j, j < n.bytes → m.byte (pa.toNat + j) = BitVec.ofNat 8 (v.toNat / 256 ^ j))
      ∧ (∀ a, a < pa.toNat ∨ pa.toNat + n.bytes ≤ a → m.byte a = s.mem.cells.byte a)

/-! ### Address translation -/

/-- `WALK2`: every outcome of `TRANSLATE` where neither long mode nor PAE is on (R155, R156), under either permission
scope (R170, R171): `early` is the rights test of one entry that `PerLevelInOrder` makes right after its present
test. -/
def Obligations.TwoLevelWalk : Prop :=
  ∀ (s : State) (la : Quad) (kind : AccessKind) (cpl : BitVec 2) (cfg : TransCfg) (cr3 : Quad),
    cfg.long = false → cfg.pae = false →
    let ec (p : Nat) : Dword := BitVec.ofNat 32
      (p + (if kind = .write then 2 else 0) + (if cpl = 3 then 4 else 0))
    let pf (p : Nat) : Reply := .raised (.pageFault la (ec p))
    let pa1 : Quad := (cr3 &&& 0xFFFFF000) + (la.extractLsb' 22 10).setWidth 64 * 4
    let pde : Quad := BitVec.ofNat 64 (s.mem.cells.readLE pa1.toNat 4)
    let pa2 : Quad := (pde &&& 0xFFFFF000) + (la.extractLsb' 12 10).setWidth 64 * 4
    let pte : Quad := BitVec.ofNat 64 (s.mem.cells.readLE pa2.toNat 4)
    let denied (es : List Quad) : Bool :=
      (cpl == 3 && es.any (fun e => !e.getLsbD 2))
        || (decide (kind = .write) && es.any (fun e => !e.getLsbD 1) && (cpl == 3 || cfg.wp))
    let early (e : Quad) : Bool := decide (s.par.permScope = .perLevelInOrder) && denied [e]
    let r : Reply :=
      match s.mem.failure pa1.toNat 4 with
      | some e => .raised (.memError e)
      | none =>
        if !pde.getLsbD 0 then pf 0
        else if early pde then pf 1
        else if cfg.pse && pde.getLsbD 7 then
          if denied [pde] then pf 1
          else .pa ((pde &&& 0xFFC00000) ||| (la.extractLsb' 0 22).setWidth 64)
        else
          match s.mem.failure pa2.toNat 4 with
          | some e => .raised (.memError e)
          | none =>
            if !pte.getLsbD 0 then pf 0
            else if early pte || denied [pde, pte] then pf 1
            else .pa ((pte &&& 0xFFFFF000) ||| (la.extractLsb' 0 12).setWidth 64)
    exec (.translate la kind cpl cfg cr3) s = .next { s with reply := r }

/-- `WALKPAE`: every outcome of `TRANSLATE` in PAE mode (R160, R161), under either permission scope (R170, R171); the
root entry contributes its present bit and base only. -/
def Obligations.PaeWalk : Prop :=
  ∀ (s : State) (la : Quad) (kind : AccessKind) (cpl : BitVec 2) (cfg : TransCfg) (cr3 : Quad),
    cfg.long = false → cfg.pae = true →
    let mask : Quad := BitVec.ofNat 64 (2 ^ s.par.maxPhyAddr - 1) &&& ~~~0xFFF
    let ec (p : Nat) : Dword := BitVec.ofNat 32
      (p + (if kind = .write then 2 else 0) + (if cpl = 3 then 4 else 0)
        + (if kind = .execute ∧ cfg.nxe = true then 16 else 0))
    let pf (p : Nat) : Reply := .raised (.pageFault la (ec p))
    let rd (a : Quad) : Quad := BitVec.ofNat 64 (s.mem.cells.readLE a.toNat 8)
    let pa1 : Quad := (cr3 &&& 0xFFFFFFE0) + (la.extractLsb' 30 2).setWidth 64 * 8
    let pa2 : Quad := (rd pa1 &&& mask) + (la.extractLsb' 21 9).setWidth 64 * 8
    let pde : Quad := rd pa2
    let pa3 : Quad := (pde &&& mask) + (la.extractLsb' 12 9).setWidth 64 * 8
    let pte : Quad := rd pa3
    let denied (es : List Quad) : Bool :=
      (cpl == 3 && es.any (fun e => !e.getLsbD 2))
        || (decide (kind = .write) && es.any (fun e => !e.getLsbD 1) && (cpl == 3 || cfg.wp))
        || (decide (kind = .execute) && cfg.nxe && es.any (fun e => e.getLsbD 63))
    let early (e : Quad) : Bool := decide (s.par.permScope = .perLevelInOrder) && denied [e]
    let r : Reply :=
      match s.mem.failure pa1.toNat 8 with
      | some e => .raised (.memError e)
      | none =>
        if !(rd pa1).getLsbD 0 then pf 0
        else
          match s.mem.failure pa2.toNat 8 with
          | some e => .raised (.memError e)
          | none =>
            if !pde.getLsbD 0 then pf 0
            else if early pde then pf 1
            else if pde.getLsbD 7 then
              if denied [pde] then pf 1
              else .pa ((pde &&& (mask &&& ~~~0x1FFFFF)) ||| (la.extractLsb' 0 21).setWidth 64)
            else
              match s.mem.failure pa3.toNat 8 with
              | some e => .raised (.memError e)
              | none =>
                if !pte.getLsbD 0 then pf 0
                else if early pte || denied [pde, pte] then pf 1
                else .pa ((pte &&& mask) ||| (la.extractLsb' 0 12).setWidth 64)
    exec (.translate la kind cpl cfg cr3) s = .next { s with reply := r }

/-- `WALK4`: every outcome of `TRANSLATE` in long mode, with pages of 4 KiB, 2 MiB and 1 GiB (R165, R166, R167), under
either permission scope (R170, R171). -/
def Obligations.FourLevelWalk : Prop :=
  ∀ (s : State) (la : Quad) (kind : AccessKind) (cpl : BitVec 2) (cfg : TransCfg) (cr3 : Quad),
    cfg.long = true →
    let mask : Quad := BitVec.ofNat 64 (2 ^ s.par.maxPhyAddr - 1) &&& ~~~0xFFF
    let ec (p : Nat) : Dword := BitVec.ofNat 32
      (p + (if kind = .write then 2 else 0) + (if cpl = 3 then 4 else 0)
        + (if kind = .execute ∧ cfg.nxe = true then 16 else 0))
    let pf (p : Nat) : Reply := .raised (.pageFault la (ec p))
    let rd (a : Quad) : Quad := BitVec.ofNat 64 (s.mem.cells.readLE a.toNat 8)
    let pa4 : Quad := (cr3 &&& mask) + (la.extractLsb' 39 9).setWidth 64 * 8
    let e4 : Quad := rd pa4
    let pa3 : Quad := (e4 &&& mask) + (la.extractLsb' 30 9).setWidth 64 * 8
    let e3 : Quad := rd pa3
    let pa2 : Quad := (e3 &&& mask) + (la.extractLsb' 21 9).setWidth 64 * 8
    let e2 : Quad := rd pa2
    let pa1 : Quad := (e2 &&& mask) + (la.extractLsb' 12 9).setWidth 64 * 8
    let e1 : Quad := rd pa1
    let denied (es : List Quad) : Bool :=
      (cpl == 3 && es.any (fun e => !e.getLsbD 2))
        || (decide (kind = .write) && es.any (fun e => !e.getLsbD 1) && (cpl == 3 || cfg.wp))
        || (decide (kind = .execute) && cfg.nxe && es.any (fun e => e.getLsbD 63))
    let early (e : Quad) : Bool := decide (s.par.permScope = .perLevelInOrder) && denied [e]
    let r : Reply :=
      match s.mem.failure pa4.toNat 8 with
      | some e => .raised (.memError e)
      | none =>
        if !e4.getLsbD 0 then pf 0
        else if early e4 then pf 1
        else
          match s.mem.failure pa3.toNat 8 with
          | some e => .raised (.memError e)
          | none =>
            if !e3.getLsbD 0 then pf 0
            else if early e3 then pf 1
            else if e3.getLsbD 7 then
              if denied [e4, e3] then pf 1
              else .pa ((e3 &&& (mask &&& ~~~0x3FFFFFFF)) ||| (la.extractLsb' 0 30).setWidth 64)
            else
              match s.mem.failure pa2.toNat 8 with
              | some e => .raised (.memError e)
              | none =>
                if !e2.getLsbD 0 then pf 0
                else if early e2 then pf 1
                else if e2.getLsbD 7 then
                  if denied [e4, e3, e2] then pf 1
                  else .pa ((e2 &&& (mask &&& ~~~0x1FFFFF)) ||| (la.extractLsb' 0 21).setWidth 64)
                else
                  match s.mem.failure pa1.toNat 8 with
                  | some e => .raised (.memError e)
                  | none =>
                    if !e1.getLsbD 0 then pf 0
                    else if early e1 || denied [e4, e3, e2, e1] then pf 1
                    else .pa ((e1 &&& mask) ||| (la.extractLsb' 0 12).setWidth 64)
    exec (.translate la kind cpl cfg cr3) s = .next { s with reply := r }

/-- The two permission scopes give the same physical address, and the same outcome but where `Combined` reports a
not-present fault or an accessor failure and `PerLevelInOrder` a rights fault (R171). -/
def Obligations.PermissionScopesAgreeUnlessALaterLevelFails : Prop :=
  ∀ (E : Type) (p : Params) (g : GuestMem E) (la : Quad) (kind : AccessKind) (cpl : BitVec 2) (cfg : TransCfg)
    (cr3 : Quad),
    let c := translate { p with permScope := .combined } g la kind cpl cfg cr3
    let o := translate { p with permScope := .perLevelInOrder } g la kind cpl cfg cr3
    (∀ a, c = .ok a ↔ o = .ok a)
    ∧ (c ≠ o →
        (∃ ec, o = .error (.pageFault la ec) ∧ ec.getLsbD 0 = true)
        ∧ ((∃ ec, c = .error (.pageFault la ec) ∧ ec.getLsbD 0 = false) ∨ (∃ e, c = .error (.memError e))))

/-- A translated address is below 2^32 in 2-level mode and below 2^MAXPHYADDR otherwise (R153), for a MAXPHYADDR
that covers the offset of the largest page (a bound of the model's: notes/assumptions/4.md). -/
def Obligations.TranslatedAddressIsBounded : Prop :=
  ∀ (E : Type) (p : Params) (g : GuestMem E) (la : Quad) (kind : AccessKind) (cpl : BitVec 2) (cfg : TransCfg)
    (cr3 a : Quad),
    30 ≤ p.maxPhyAddr → translate p g la kind cpl cfg cr3 = .ok a →
    (cfg.long = false → cfg.pae = false → a.toNat < 2 ^ 32)
    ∧ (cfg.long = true ∨ cfg.pae = true → a.toNat < 2 ^ p.maxPhyAddr)

/-- Every page fault of a translation carries the address passed, all 64 bits, and an error code whose bits other
than P depend on the kind, the privilege and the configuration alone; RSVD and the bits past ID are 0 (R172,
R173, R176). -/
def Obligations.PageFaultCarriesTheAddressAndCode : Prop :=
  ∀ (E : Type) (p : Params) (g : GuestMem E) (la : Quad) (kind : AccessKind) (cpl : BitVec 2) (cfg : TransCfg)
    (cr3 a : Quad) (ec : Dword), translate p g la kind cpl cfg cr3 = .error (.pageFault a ec) →
    a = la ∧ ec.getLsbD 1 = decide (kind = .write) ∧ ec.getLsbD 2 = decide (cpl = 3) ∧ ec.getLsbD 3 = false
    ∧ ec.getLsbD 4 = decide (kind = .execute ∧ cfg.nxe = true ∧ (cfg.pae = true ∨ cfg.long = true))
    ∧ ∀ n, 5 ≤ n → ec.getLsbD n = false

/-- Bits of the linear address that the selected walker does not use change nothing but the address a fault carries
(R152). -/
def Obligations.UnusedLinearAddressBitsAreIgnored : Prop :=
  ∀ (E : Type) (p : Params) (g : GuestMem E) (la la' : Quad) (kind : AccessKind) (cpl : BitVec 2) (cfg : TransCfg)
    (cr3 : Quad),
    (if cfg.long then la.extractLsb' 0 48 = la'.extractLsb' 0 48 else la.extractLsb' 0 32 = la'.extractLsb' 0 32) →
    translate p g la' kind cpl cfg cr3 =
      match translate p g la kind cpl cfg cr3 with
      | .ok a => .ok a
      | .error (.pageFault _ ec) => .error (.pageFault la' ec)
      | .error e => .error e

/-- A failure of the accessor is the outcome, unchanged, for every type of failures (R8, R14, D14, R157, R386): the
translation answers the failure e exactly where the walk reaches an entry whose read fails with e, every entry before
it having been read and passed, and a resolver exactly where one of its linear reads (`LinearReadGoesByteByByte`) ends
with e. So no failure is dropped, made a page fault or made up. That the accesses that fail are a list of rules is the
model's choice (notes/assumptions/5.md). -/
def Obligations.AccessorFailuresArePropagatedWhateverTheirType : Prop :=
  ∀ (E : Type) (p : Params) (g : GuestMem E) (e : E),
    (∀ (la : Quad) (kind : AccessKind) (cpl : BitVec 2) (cfg : TransCfg) (cr3 : Quad),
      let wide : Bool := cfg.long || cfg.pae
      let size : Nat := if wide then 8 else 4
      let mask : Quad := if wide then BitVec.ofNat 64 (2 ^ p.maxPhyAddr - 1) &&& ~~~0xFFF else 0xFFFFF000
      let rd (a : Quad) : Quad := BitVec.ofNat 64 (g.cells.readLE a.toNat size)
      let entry (base : Quad) (lo len : Nat) : Quad :=
        base + (la.extractLsb' lo len).setWidth 64 * BitVec.ofNat 64 size
      let denied (x : Quad) : Bool :=
        (cpl == 3 && !x.getLsbD 2)
          || (decide (kind = .write) && !x.getLsbD 1 && (cpl == 3 || cfg.wp))
          || (wide && decide (kind = .execute) && cfg.nxe && x.getLsbD 63)
      let fails (a : Quad) : Prop := g.failure a.toNat size = some e
      let present (a : Quad) : Prop := g.failure a.toNat size = none ∧ (rd a).getLsbD 0 = true
      let passed (a : Quad) : Prop := present a ∧ ¬ (p.permScope = .perLevelInOrder ∧ denied (rd a) = true)
      let table (a : Quad) : Prop := passed a ∧ (rd a).getLsbD 7 = false
      translate p g la kind cpl cfg cr3 = .error (.memError e) ↔
        if cfg.long then
          let a4 := entry (cr3 &&& mask) 39 9
          let a3 := entry (rd a4 &&& mask) 30 9
          let a2 := entry (rd a3 &&& mask) 21 9
          let a1 := entry (rd a2 &&& mask) 12 9
          fails a4 ∨ (passed a4 ∧ (fails a3 ∨ (table a3 ∧ (fails a2 ∨ (table a2 ∧ fails a1)))))
        else if cfg.pae then
          let a3 := entry (cr3 &&& 0xFFFFFFE0) 30 2
          let a2 := entry (rd a3 &&& mask) 21 9
          let a1 := entry (rd a2 &&& mask) 12 9
          fails a3 ∨ (present a3 ∧ (fails a2 ∨ (table a2 ∧ fails a1)))
        else
          let a2 := entry (cr3 &&& mask) 22 10
          let a1 := entry (rd a2 &&& mask) 12 10
          fails a2 ∨ (passed a2 ∧ (cfg.pse && (rd a2).getLsbD 7) = false ∧ fails a1))
    ∧ (∀ (v : Byte) (base : Quad) (tc : TransCtx),
      resolveReal p g v base = .error (.memError e) ↔
        linRead p g .real tc (BitVec.ofNat 64 ((base.toNat + 4 * v.toNat) % 2 ^ 32)) 4 = .error (.memError e))
    ∧ (∀ (v : Byte) (base : Quad) (limit : Half) (tc : TransCtx),
      resolveProt p g v base limit tc = .error (.memError e) ↔
        v.toNat * 8 + 7 ≤ limit.toNat
        ∧ linRead p g .prot tc (BitVec.ofNat 64 ((base.toNat + 8 * v.toNat) % 2 ^ 32)) 8 = .error (.memError e))
    ∧ (∀ (v : Byte) (base : Quad) (limit : Half) (tc : TransCtx),
      let addr : Quad := base + BitVec.ofNat 64 (16 * v.toNat)
      resolveLong p g v base limit tc = .error (.memError e) ↔
        v.toNat * 16 + 15 ≤ limit.toNat
        ∧ (linRead p g .long tc addr 8 = .error (.memError e)
          ∨ ∃ q, linRead p g .long tc addr 8 = .ok q ∧ linRead p g .long tc (addr + 8) 8 = .error (.memError e)))

/-! ### The PIC pair -/

/-- `PIC.ICW1` (R210): the chip's registers, flags and step; the other chip; the cascade bit recomputed. -/
def Obligations.Icw1ResetsTheChip : Prop :=
  ∀ (s : State) (c : Chip) (v : Byte),
    ∃ P, exec (.picIcw1 c v) s = .next { s with pic := P, reply := .unit }
      ∧ P.chip c = { (s.pic.chip c) with irr := (P.chip c).irr, isr := 0, imr := 0, icw0 := v, readIsr := false,
                                         autoEoi := false, step := .icw2 }
      ∧ (c = .master → P.s = s.pic.s ∧ ∀ n, P.m.irr.getLsbD n =
          (decide (n = 2) && (s.pic.s.irr &&& ~~~s.pic.s.imr) != 0))
      ∧ (c = .slave → P.s.irr = 0 ∧ P.m = { s.pic.m with irr := P.m.irr }
          ∧ ∀ n, P.m.irr.getLsbD n = (s.pic.m.irr.getLsbD n && decide (n ≠ 2)))

/-- `PIC.ICW2`, `PIC.ICW3`, `PIC.ICW4` (R212, R213, R214), each in the step its row asks for. -/
def Obligations.InitializationWords : Prop :=
  ∀ (s : State) (c : Chip) (v : Byte),
    ((s.pic.chip c).step = .icw2 →
      ∃ P, exec (.picIcw2 c v) s = .next { s with pic := P, reply := .unit }
        ∧ P.chip c = { (s.pic.chip c) with offset := v &&& s.par.icw2Mask, icw1 := v, step := .icw3 }
        ∧ ∀ d, d ≠ c → P.chip d = s.pic.chip d)
    ∧ ((s.pic.chip c).step = .icw3 →
      ∃ P, exec (.picIcw3 c v) s = .next { s with pic := P, reply := .unit }
        ∧ P.chip c = { (s.pic.chip c) with icw2 := v,
                                           step := if (s.pic.chip c).icw0.getLsbD 0 then .icw4 else .done }
        ∧ ∀ d, d ≠ c → P.chip d = s.pic.chip d)
    ∧ ((s.pic.chip c).step = .icw4 →
      ∃ P, exec (.picIcw4 c v) s = .next { s with pic := P, reply := .unit }
        ∧ P.chip c = { (s.pic.chip c) with icw3 := v, autoEoi := v.getLsbD 1, step := .done }
        ∧ ∀ d, d ≠ c → P.chip d = s.pic.chip d)

/-- `PIC.OCW1` (R215): the mask is replaced; a slave's mask write recomputes the cascade bit. -/
def Obligations.MaskWrite : Prop :=
  ∀ (s : State) (v : Byte),
    (s.pic.m.step = .done →
      exec (.picOcw1 .master v) s
        = .next { s with pic := { m := { s.pic.m with imr := v }, s := s.pic.s }, reply := .unit })
    ∧ (s.pic.s.step = .done →
      ∃ r, exec (.picOcw1 .slave v) s
          = .next { s with pic := { m := { s.pic.m with irr := r }, s := { s.pic.s with imr := v } }, reply := .unit }
        ∧ ∀ n, n < 8 → r.getLsbD n =
            (if n = 2 then (List.range 8).any (fun j => s.pic.s.irr.getLsbD j && !v.getLsbD j)
             else s.pic.m.irr.getLsbD n))

/-- `PIC.OCW2.NSEOI` and `PIC.OCW2.SEOI` (R216, R217): the lowest set in-service bit, or the one of the line in bits
2:0, is cleared and nothing else changes. -/
def Obligations.EndOfInterrupt : Prop :=
  ∀ (s : State) (c : Chip) (v : Byte),
    (∃ P x, exec (.picOcw2Nseoi c v) s = .next { s with pic := P, reply := .unit }
      ∧ P.chip c = { (s.pic.chip c) with isr := x } ∧ (∀ d, d ≠ c → P.chip d = s.pic.chip d)
      ∧ ∀ n, x.getLsbD n = true ↔
          (s.pic.chip c).isr.getLsbD n = true ∧ ∃ j, j < n ∧ (s.pic.chip c).isr.getLsbD j = true)
    ∧ (∃ P x, exec (.picOcw2Seoi c v) s = .next { s with pic := P, reply := .unit }
      ∧ P.chip c = { (s.pic.chip c) with isr := x } ∧ (∀ d, d ≠ c → P.chip d = s.pic.chip d)
      ∧ ∀ n, x.getLsbD n = ((s.pic.chip c).isr.getLsbD n && decide (n ≠ v.toNat % 8)))

/-- The accepted commands without effect (R218, R220, R259), and the control-port read (R267). -/
def Obligations.CommandsWithoutEffect : Prop :=
  ∀ (s : State) (c : Chip) (v : Byte) (low : BitVec 6),
    exec (.picOcw2Other c v) s = .next { s with reply := .unit }
    ∧ exec (.picOcw3Norr c v) s = .next { s with reply := .unit }
    ∧ exec (.pitCtrlReadback low) s = .next { s with reply := .unit }
    ∧ exec .pitCtrlRead s = .next { s with reply := .byte 0 }

/-- `PIC.OCW3.RR`, `PIC.READ_CMD`, `PIC.READ_DATA` (R219, R221, R222). -/
def Obligations.ReadSelectAndPortReads : Prop :=
  ∀ (s : State) (c : Chip) (v : Byte),
    (∃ P, exec (.picOcw3Rr c v) s = .next { s with pic := P, reply := .unit }
      ∧ P.chip c = { (s.pic.chip c) with readIsr := v.getLsbD 0 } ∧ ∀ d, d ≠ c → P.chip d = s.pic.chip d)
    ∧ ((s.pic.chip c).readIsr = true → exec (.picReadCmd c) s = .next { s with reply := .byte (s.pic.chip c).isr })
    ∧ ((s.pic.chip c).readIsr = false → exec (.picReadCmd c) s = .next { s with reply := .byte (s.pic.chip c).irr })
    ∧ exec (.picReadData c) s = .next { s with reply := .byte (s.pic.chip c).imr }

/-- `PIC.RAISE(n)` and `PIC.LOWER(n)` (R225, R226): the line's request bit, and for a slave line the cascade bit. -/
def Obligations.RaiseAndLowerALine : Prop :=
  ∀ (s : State) (n : Nat) (level : Bool),
    ∃ P, exec (if level then .picRaise n else .picLower n) s = .next { s with pic := P, reply := .unit }
      ∧ P.m = { s.pic.m with irr := P.m.irr } ∧ P.s = { s.pic.s with irr := P.s.irr }
      ∧ (n < 8 → P.s = s.pic.s ∧ ∀ k, k < 8 → P.m.irr.getLsbD k = (if k = n then level else s.pic.m.irr.getLsbD k))
      ∧ (8 ≤ n → n < 16 →
          (∀ k, k < 8 → P.s.irr.getLsbD k = (if k = n - 8 then level else s.pic.s.irr.getLsbD k))
          ∧ (∀ k, k < 8 → P.m.irr.getLsbD k =
              (if k = 2 then (List.range 8).any (fun j => P.s.irr.getLsbD j && !s.pic.s.imr.getLsbD j)
               else s.pic.m.irr.getLsbD k)))
      ∧ (16 ≤ n → P = s.pic)

/-- `PIC.RESOLVE()` (R228): the lowest eligible line of the master wins; through line 2 the slave's. -/
def Obligations.ResolutionPicksTheLowestEligibleLine : Prop :=
  ∀ (s : State),
    let el (x : PicChip) (n : Nat) : Prop :=
      n < 8 ∧ x.irr.getLsbD n = true ∧ x.imr.getLsbD n = false ∧ x.isr.getLsbD n = false
    let low (x : PicChip) (n : Nat) : Prop := el x n ∧ ∀ j, j < n → ¬ el x j
    ∃ r, exec .picResolve s = .next { s with reply := .line r }
      ∧ ((∀ n, ¬ el s.pic.m n) → r = none)
      ∧ (∀ b, low s.pic.m b → b ≠ 2 → r = some (b, BitVec.ofNat 8 (s.pic.m.offset.toNat + b)))
      ∧ (low s.pic.m 2 → (∀ n, ¬ el s.pic.s n) → r = none)
      ∧ (∀ k, low s.pic.m 2 → low s.pic.s k → r = some (8 + k, BitVec.ofNat 8 (s.pic.s.offset.toNat + k)))

/-- While master line 2 is in service no slave line is delivered (R232). -/
def Obligations.SlaveIsBlockedWhileMasterLine2IsInService : Prop :=
  ∀ (s t : State) (n : Nat) (v : Byte),
    s.pic.m.isr.getLsbD 2 = true → exec .picResolve s = .next t → t.reply = .line (some (n, v)) → n < 8

/-- `PIC.ACK(n)` (R230): the line moves from request to service, under auto-EOI out of it again; a slave line also
moves master line 2 by the master's own flag, and the cascade bit is recomputed. -/
def Obligations.Acknowledgment : Prop :=
  ∀ (s : State) (n : Nat),
    ∃ P, exec (.picAck n) s = .next { s with pic := P, reply := .unit }
      ∧ P.m = { s.pic.m with irr := P.m.irr, isr := P.m.isr } ∧ P.s = { s.pic.s with irr := P.s.irr, isr := P.s.isr }
      ∧ (n < 8 → P.s = s.pic.s ∧ ∀ k, k < 8 →
          P.m.irr.getLsbD k = (s.pic.m.irr.getLsbD k && decide (k ≠ n))
          ∧ P.m.isr.getLsbD k = (if k = n then !s.pic.m.autoEoi else s.pic.m.isr.getLsbD k))
      ∧ (8 ≤ n → n < 16 → ∀ k, k < 8 →
          P.s.irr.getLsbD k = (s.pic.s.irr.getLsbD k && decide (k ≠ n - 8))
          ∧ P.s.isr.getLsbD k = (if k = n - 8 then !s.pic.s.autoEoi else s.pic.s.isr.getLsbD k)
          ∧ P.m.isr.getLsbD k = (if k = 2 then !s.pic.m.autoEoi else s.pic.m.isr.getLsbD k)
          ∧ P.m.irr.getLsbD k =
              (if k = 2 then (List.range 8).any (fun j => P.s.irr.getLsbD j && !s.pic.s.imr.getLsbD j)
               else s.pic.m.irr.getLsbD k))
      ∧ (16 ≤ n → P = s.pic)

/-! ### The interval timer -/

/-- `PIT.CTRL.MODE` (R256) and `PIT.CTRL.LATCH` (R258) on their channel; the other channels are unchanged. -/
def Obligations.ControlWordAndLatch : Prop :=
  ∀ (s : State) (c : PitChan) (rw : PitAccess) (m : BitVec 3) (bcd : Bool) (low : BitVec 4),
    (∃ T, exec (.pitCtrlMode c rw m bcd) s = .next { s with pit := T, reply := .unit }
      ∧ (∃ mode, (m = 0 → mode = .m0) ∧ (m = 1 → mode = .m1) ∧ (m = 2 ∨ m = 6 → mode = .m2)
          ∧ (m = 3 ∨ m = 7 → mode = .m3) ∧ (m = 4 → mode = .m4) ∧ (m = 5 → mode = .m5)
          ∧ T.chan c = { (s.pit.chan c) with access := rw, mode := mode, writeHi := false, readHi := false,
                                             latchActive := false, enabled := false, out := decide (mode ≠ .m0) })
      ∧ ∀ d, d ≠ c → T.chan d = s.pit.chan d)
    ∧ (∃ T, exec (.pitCtrlLatch c low) s = .next { s with pit := T, reply := .unit }
      ∧ ((s.pit.chan c).latchActive = true → T = s.pit)
      ∧ ((s.pit.chan c).latchActive = false →
          T.chan c = { (s.pit.chan c) with latched := (s.pit.chan c).counter, latchActive := true })
      ∧ ∀ d, d ≠ c → T.chan d = s.pit.chan d)

/-- `PIT.COUNT.WRITE` with `LOAD` (R262, R263): by the access mode, a byte completes the reload value or is
staged; a completed value is loaded at once. -/
def Obligations.CountWriteLoadsTheChannel : Prop :=
  ∀ (s : State) (c : PitChan) (v : Byte),
    let ch := s.pit.chan c
    let loaded (x : PitChannel) (r : Nat) : PitChannel :=
      { x with reload := BitVec.ofNat 16 r, counter := BitVec.ofNat 16 r, enabled := true, out := decide (x.mode ≠ .m0) }
    ∃ T, exec (.pitCountWrite c v) s = .next { s with pit := T, reply := .unit }
      ∧ (ch.access = .loOnly → T.chan c = loaded ch v.toNat)
      ∧ (ch.access = .hiOnly → T.chan c = loaded ch (v.toNat * 256))
      ∧ (ch.access = .loHi → ch.writeHi = false → T.chan c = { ch with stagedLo := v, writeHi := true })
      ∧ (ch.access = .loHi → ch.writeHi = true →
          T.chan c = loaded { ch with writeHi := false } (ch.stagedLo.toNat + v.toNat * 256))
      ∧ ∀ d, d ≠ c → T.chan d = s.pit.chan d

/-- `PIT.COUNT.READ` (R265): the byte of the latched or live value, the toggle and the latch's release. -/
def Obligations.CountReadReturnsTheByte : Prop :=
  ∀ (s : State) (c : PitChan),
    let ch := s.pit.chan c
    let val : Nat := if ch.latchActive then ch.latched.toNat else ch.counter.toNat
    ∃ T b, exec (.pitCountRead c) s = .next { s with pit := T, reply := .byte b }
      ∧ (ch.access = .loOnly → b.toNat = val % 256 ∧ T.chan c = { ch with latchActive := false })
      ∧ (ch.access = .hiOnly → b.toNat = val / 256 ∧ T.chan c = { ch with latchActive := false })
      ∧ (ch.access = .loHi → ch.readHi = false → b.toNat = val % 256 ∧ T.chan c = { ch with readHi := true })
      ∧ (ch.access = .loHi → ch.readHi = true →
          b.toNat = val / 256 ∧ T.chan c = { ch with readHi := false, latchActive := false })
      ∧ ∀ d, d ≠ c → T.chan d = s.pit.chan d

/-- `PIT.TICK()` (R280): every channel advances by its mode (R270 to R278), and channel 0's edge is returned: its
low-to-high transition, in mode 2 its reload (R279). -/
def Obligations.TickAdvancesEveryChannelByItsMode : Prop :=
  ∀ (s : State),
    let next (a b : PitChannel) : Prop :=
      (a.enabled = false ∨ a.gate = false → b = a)
      ∧ (a.enabled = true → a.gate = true →
          b = { a with counter := b.counter, out := b.out }
          ∧ (a.mode = .m0 → b.counter.toNat = (a.counter.toNat + 65535) % 65536
              ∧ b.out = (a.out || decide (b.counter = 0)))
          ∧ (a.mode = .m2 → a.counter = 1 → b.counter = a.reload ∧ b.out = true)
          ∧ (a.mode = .m2 → a.counter ≠ 1 → b.counter.toNat = (a.counter.toNat + 65535) % 65536
              ∧ b.out = decide (b.counter ≠ 1))
          ∧ (a.mode = .m3 → 1 ≤ a.counter.toNat → a.counter.toNat ≤ 3 → b.counter = a.reload ∧ b.out = !a.out)
          ∧ (a.mode = .m3 → a.counter = 0 → b.counter.toNat = 65534 ∧ b.out = a.out)
          ∧ (a.mode = .m3 → 4 ≤ a.counter.toNat → b.counter.toNat + 2 = a.counter.toNat ∧ b.out = a.out)
          ∧ (a.mode = .m1 ∨ a.mode = .m4 ∨ a.mode = .m5 → b.out = a.out
              ∧ (a.counter = 1 → b.counter = a.reload)
              ∧ (a.counter ≠ 1 → b.counter.toNat = (a.counter.toNat + 65535) % 65536)))
    let edge (a b : PitChannel) : Bool :=
      a.enabled && a.gate &&
        match a.mode with
        | .m0 => !a.out && b.out
        | .m2 => decide (a.counter = 1)
        | .m3 => !a.out && b.out
        | .m1 => false
        | .m4 => false
        | .m5 => false
    ∃ T, exec .pitTick s = .next { s with pit := T, reply := .bool (edge s.pit.ch0 T.ch0) }
      ∧ ∀ c, next (s.pit.chan c) (T.chan c)

/-- `PIT.SETGATE(c, level)` (R282). -/
def Obligations.SetGateWritesTheGate : Prop :=
  ∀ (s : State) (c : Nat) (level : Bool),
    exec (.pitSetGate c level) s = .next { s with
      pit := { ch0 := { s.pit.ch0 with gate := if c = 0 then level else s.pit.ch0.gate },
               ch1 := { s.pit.ch1 with gate := if c = 1 then level else s.pit.ch1.gate },
               ch2 := { s.pit.ch2 with gate := if c = 2 then level else s.pit.ch2.gate } },
      reply := .unit }

/-- Mode 2 loaded with N (0 standing for 65536) and left alone reports an edge at every N-th tick and at no other,
for ever (43_pit.md section 5). -/
def Obligations.RateGeneratorPeriod : Prop :=
  ∀ (t : Pit) (k : Nat), t.ch0.mode = .m2 → t.ch0.enabled = true → t.ch0.gate = true → t.ch0.counter = t.ch0.reload →
    let N := if t.ch0.reload = 0 then 65536 else t.ch0.reload.toNat
    (tickRun k t).2 = (List.range k).map (fun j => decide ((j + 1) % N = 0))

/-- Mode 3 loaded with N and left alone, its output high, reports an edge at every multiple of its period and at no
other: N for even N >= 2, N - 1 for odd N >= 3, 2 for N = 1, 65536 for N = 0 (43_pit.md section 5). -/
def Obligations.SquareWavePeriod : Prop :=
  ∀ (t : Pit) (k : Nat), t.ch0.mode = .m3 → t.ch0.enabled = true → t.ch0.gate = true → t.ch0.counter = t.ch0.reload →
    t.ch0.out = true →
    let T := if t.ch0.reload = 0 then 65536 else if t.ch0.reload = 1 then 2 else t.ch0.reload.toNat / 2 * 2
    (tickRun k t).2 = (List.range k).map (fun j => decide ((j + 1) % T = 0))

/-- Mode 0 loaded with N (0 standing for 65536) and left alone, its output low, reports one edge, at tick N
(43_pit.md section 5). -/
def Obligations.TerminalCountHasOneEdge : Prop :=
  ∀ (t : Pit) (k : Nat), t.ch0.mode = .m0 → t.ch0.enabled = true → t.ch0.gate = true → t.ch0.counter = t.ch0.reload →
    t.ch0.out = false →
    let N := if t.ch0.reload = 0 then 65536 else t.ch0.reload.toNat
    (tickRun k t).2 = (List.range k).map (fun j => decide (j + 1 = N))

/-! ### The NIC -/

/-- `NIC.READ` and `NIC.ICR.R` (R302, R303, R305, R316): a malformed access reads 0 and changes nothing; an access
reads its bytes inside the dword, and one that touches ICR then clears all of it: in a good NIC, ICR reads 0 after it
and every other register as before. -/
def Obligations.NicReadReturnsTheLanes : Prop :=
  ∀ (s : State) (off : Quad) (w : Nat) (k : BitVec 2) (nw : NicWidth),
    let lanes (reg : Dword) (k n : Nat) : Dword := BitVec.ofNat 32 (reg.toNat / 2 ^ (8 * k) % 2 ^ (8 * min n (4 - k)))
    (0x20000 ≤ off.toNat ∨ w ∉ [1, 2, 4] → exec (.nicRead off w) s = .next { s with reply := .value 0 })
    ∧ (off.toNat < 0x20000 → w ∈ [1, 2, 4] →
        let idx : BitVec 15 := BitVec.ofNat 15 (off.toNat / 4)
        ∃ N, exec (.nicRead off w) s
              = .next { s with nic := N, reply := .value (lanes (s.nic.reg idx) (off.toNat % 4) w) }
          ∧ (idx ≠ s.par.nicMap.icr → N = s.nic)
          ∧ (idx = s.par.nicMap.icr → N = s.nic.setReg s.par.nicMap.icr 0))
    ∧ exec (.nicIcrR k nw) s
        = .next { s with nic := s.nic.setReg s.par.nicMap.icr 0,
                         reply := .value (lanes (s.nic.reg s.par.nicMap.icr) k.toNat nw.bytes) }
    ∧ (NicOk s.par s.nic → ∀ j : BitVec 15,
        (s.nic.setReg s.par.nicMap.icr 0).reg j = if j = s.par.nicMap.icr then 0 else s.nic.reg j)

/-- `NIC.WRITE(off, w, v)` (R306, R302): a malformed access is ignored; any other is the row of the register it
touches. -/
def Obligations.NicWriteIsItsRegistersRow : Prop :=
  ∀ (s : State) (off : Quad) (w : Nat) (v : Quad),
    (0x20000 ≤ off.toNat ∨ w ∉ [1, 2, 4] → exec (.nicWrite off w v) s = .next { s with reply := .unit })
    ∧ ∀ (nw : NicWidth), off.toNat < 0x20000 → w = nw.bytes →
        let idx : BitVec 15 := BitVec.ofNat 15 (off.toNat / 4)
        let k : BitVec 2 := BitVec.ofNat 2 off.toNat
        let x : Dword := v.setWidth 32
        let n := s.par.nicMap
        exec (.nicWrite off w v) s =
          exec (if idx = n.ctrl then .nicCtrlW k nw x else if idx = n.status then .nicStatusW k nw x
                else if idx = n.eerd then .nicEerdW k nw x else if idx = n.icr then .nicIcrW k nw x
                else if idx = n.ics then .nicIcsW k nw x else if idx = n.ims then .nicImsW k nw x
                else if idx = n.imc then .nicImcW k nw x else .nicPlainW idx k nw x) s
          ∧ ∃ N, exec (.nicWrite off w v) s = .next { s with nic := N, reply := .unit }

/-- `NIC.PLAIN.W` and the write that merges (R321, R303): only the covered lanes of the one register change.
`NIC.STATUS.W` changes nothing (R312). -/
def Obligations.PlainWriteMergesItsLanes : Prop :=
  ∀ (s : State) (idx : BitVec 15) (k : BitVec 2) (w : NicWidth) (v : Dword), NicOk s.par s.nic →
    (Instr.nicPlainW idx k w v).wf s.par = true →
    exec (.nicStatusW k w v) s = .next { s with reply := .unit }
    ∧ ∃ R, exec (.nicPlainW idx k w v) s = .next { s with nic := { s.nic with regs := R }, reply := .unit }
      ∧ (∀ j : BitVec 15, j ≠ idx → Cells.get R j.toNat = s.nic.reg j)
      ∧ ∀ b, b < 32 → (Cells.get R idx.toNat).getLsbD b =
          (if 8 * k.toNat ≤ b ∧ b < 8 * (k.toNat + w.bytes) then v.getLsbD (b - 8 * k.toNat)
           else (s.nic.reg idx).getLsbD b)

/-- `NIC.CTRL.W` with the reset procedure (R310, R311), `merged` being the dword after the write. -/
def Obligations.ControlWriteStoresOrResets : Prop :=
  ∀ (s : State) (k : BitVec 2) (w : NicWidth) (v merged : Dword), NicOk s.par s.nic →
    (∀ b, b < 32 → merged.getLsbD b =
      (if 8 * k.toNat ≤ b ∧ b < 8 * (k.toNat + w.bytes) then v.getLsbD (b - 8 * k.toNat)
       else (s.nic.reg s.par.nicMap.ctrl).getLsbD b)) →
    let n := s.par.nicMap
    (merged.getLsbD 26 = false →
      ∃ R, exec (.nicCtrlW k w v) s = .next { s with nic := { s.nic with regs := R }, reply := .unit }
        ∧ ∀ j : BitVec 15, Cells.get R j.toNat = if j = n.ctrl then merged else s.nic.reg j)
    ∧ (merged.getLsbD 26 = true →
      ∃ R, exec (.nicCtrlW k w v) s
            = .next { s with nic := { s.nic with regs := R, rx := [], tx := [] }, reply := .unit }
        ∧ ∀ j : BitVec 15, Cells.get R j.toNat =
            if j = n.status ∨ j = n.ral0 ∨ j = n.rah0 then s.nic.reg j else 0)

/-- `NIC.EERD.W` (R314), `merged` being the dword after the write: with START the addressed EEPROM word comes back
with DONE set; an address past the 64 words gives 0. -/
def Obligations.EepromReadCompletesAtOnce : Prop :=
  ∀ (s : State) (k : BitVec 2) (w : NicWidth) (v merged : Dword), NicOk s.par s.nic →
    (∀ b, b < 32 → merged.getLsbD b =
      (if 8 * k.toNat ≤ b ∧ b < 8 * (k.toNat + w.bytes) then v.getLsbD (b - 8 * k.toNat)
       else (s.nic.reg s.par.nicMap.eerd).getLsbD b)) →
    let a := merged.toNat / 256 % 256
    ∃ R, exec (.nicEerdW k w v) s = .next { s with nic := { s.nic with regs := R }, reply := .unit }
      ∧ (∀ j : BitVec 15, j ≠ s.par.nicMap.eerd → Cells.get R j.toNat = s.nic.reg j)
      ∧ (merged.getLsbD 0 = false → Cells.get R s.par.nicMap.eerd.toNat = merged)
      ∧ (merged.getLsbD 0 = true → 64 ≤ a →
          (Cells.get R s.par.nicMap.eerd.toNat).toNat = a * 256 + 16)
      ∧ (merged.getLsbD 0 = true → ∀ d, s.nic.eeprom[a]? = some d →
          (Cells.get R s.par.nicMap.eerd.toNat).toNat = d.toNat * 65536 + a * 256 + 16)

/-- `NIC.ICR.W`, `NIC.ICS.W`, `NIC.IMS.W`, `NIC.IMC.W` (R317 to R320), `lane` being the written value in its lanes:
ICR is cleared or set by it, the mask at IMS is set or cleared by it, and no other register changes. -/
def Obligations.CauseAndMaskWrites : Prop :=
  ∀ (s : State) (k : BitVec 2) (w : NicWidth) (v lane : Dword), NicOk s.par s.nic →
    (∀ b, b < 32 → lane.getLsbD b =
      (decide (8 * k.toNat ≤ b ∧ b < 8 * (k.toNat + w.bytes)) && v.getLsbD (b - 8 * k.toNat))) →
    let n := s.par.nicMap
    let one (i : Instr) (dest : BitVec 15) (x : Dword) : Prop :=
      ∃ R, exec i s = .next { s with nic := { s.nic with regs := R }, reply := .unit }
        ∧ ∀ j : BitVec 15, Cells.get R j.toNat = if j = dest then x else s.nic.reg j
    one (.nicIcrW k w v) n.icr (s.nic.reg n.icr &&& ~~~lane)
    ∧ one (.nicIcsW k w v) n.icr (s.nic.reg n.icr ||| lane)
    ∧ one (.nicImsW k w v) n.ims (s.nic.reg n.ims ||| lane)
    ∧ one (.nicImcW k w v) n.ims (s.nic.reg n.ims &&& ~~~lane)

/-- `NIC.RECEIVE`, `NIC.DRAIN_TX`, `NIC.QUEUE_TX`, `NIC.IRQ_LEVEL` (R325, R327, R330). -/
def Obligations.FrameQueuesAndInterruptLevel : Prop :=
  ∀ (s : State) (f : Frame), NicOk s.par s.nic →
    (∃ R, exec (.nicReceive f) s
        = .next { s with nic := { s.nic with regs := R, rx := s.nic.rx ++ [f] }, reply := .unit }
      ∧ ∀ j : BitVec 15, Cells.get R j.toNat =
          if j = s.par.nicMap.icr then s.nic.reg j ||| 0x80 else s.nic.reg j)
    ∧ exec .nicDrainTx s = .next { s with nic := { s.nic with tx := [] }, reply := .frames s.nic.tx }
    ∧ exec (.nicQueueTx f) s = .next { s with nic := { s.nic with tx := s.nic.tx ++ [f] }, reply := .unit }
    ∧ exec .nicIrqLevel s = .next { s with reply := .bool ((List.range 32).any
        (fun b => (s.nic.reg s.par.nicMap.icr).getLsbD b && (s.nic.reg s.par.nicMap.ims).getLsbD b)) }

/-! ### The delivery pipeline and the resolvers -/

/-- `DP.RAISE(v)` and `DP.ACK(v)` (R352, R354): one pending bit is written. -/
def Obligations.RaiseAndAckOneVector : Prop :=
  ∀ (s : State) (v : Byte) (b : Bool),
    ∃ D, exec (if b then .dpRaise v else .dpAck v) s = .next { s with dp := D, reply := .unit }
      ∧ D.shadow = s.dp.shadow ∧ D.handling = s.dp.handling
      ∧ ∀ u, u < 256 → D.isPending u = if u = v.toNat then b else s.dp.isPending u

/-- `DP.SAMPLE(flags)` (R360): the lowest pending vector, if and only if IF is set and no shadow is active. -/
def Obligations.SampleReturnsTheLowestPendingVector : Prop :=
  ∀ (s : State) (flags : Quad),
    ∃ r, exec (.dpSample flags) s = .next { s with reply := .vector r }
      ∧ ∀ v : Byte, r = some v ↔
          s.dp.shadow = false ∧ flags.getLsbD 9 = true ∧ s.dp.isPending v.toNat = true
          ∧ ∀ u, u < v.toNat → s.dp.isPending u = false

/-- `DP.SET_SHADOW`, `DP.SET_HANDLING`, `DP.GET_HANDLING` (R362, R364, R365), and that no other operation writes the
shadow or the handling flag. -/
def Obligations.ShadowAndHandlingFlags : Prop :=
  ∀ (s : State) (b : Bool),
    exec (.dpSetShadow b) s = .next { s with dp := { s.dp with shadow := b }, reply := .unit }
    ∧ exec (.dpSetHandling b) s = .next { s with dp := { s.dp with handling := b }, reply := .unit }
    ∧ exec .dpGetHandling s = .next { s with reply := .bool s.dp.handling }
    ∧ ∀ (i : Instr) (t : State), exec i s = .next t →
        ((∀ c, i ≠ .dpSetShadow c) → t.dp.shadow = s.dp.shadow)
        ∧ ((∀ c, i ≠ .dpSetHandling c) → t.dp.handling = s.dp.handling)

/-- `LinRead` (R70), the 64-bit value the resolvers call for and the sum of bytes beneath it: the bytes at consecutive
linear addresses, wrapped to the mode's width, each translated as a supervisor read unless the mode is real or paging
is off, the first byte least significant; the lowest failing byte's outcome ends the read. A read of up to eight bytes
loses none. That the translation is handed the wrapped address is the model's reading (notes/assumptions/10.md). -/
def Obligations.LinearReadGoesByteByByte : Prop :=
  ∀ (E : Type) (p : Params) (g : GuestMem E) (mode : ExecMode) (tc : TransCtx) (la : Quad) (n : Nat),
    let dest (i : Nat) : Quad :=
      if mode = .long then la + BitVec.ofNat 64 i else BitVec.ofNat 64 ((la.toNat + i) % 2 ^ 32)
    let tr (i : Nat) : Except (Raised E) Quad :=
      if mode = .real ∨ tc.paging = false then .ok (dest i) else translate p g (dest i) .read 0 tc.cfg tc.cr3
    (∀ pa : Nat → Quad, (∀ i, i < n → tr i = .ok (pa i) ∧ g.failure (pa i).toNat 1 = none) →
      let sum : Nat := ((List.range n).map (fun i => (g.cells.byte (pa i).toNat).toNat * 256 ^ i)).sum
      linBytes p g mode tc la n = .ok sum
      ∧ (n ≤ 8 → sum < 2 ^ 64 ∧ linRead p g mode tc la n = .ok (BitVec.ofNat 64 sum)))
    ∧ (∀ i e, i < n → (∀ j, j < i → ∃ pa, tr j = .ok pa ∧ g.failure pa.toNat 1 = none) →
        (tr i = .error e ∨ ∃ pa m, tr i = .ok pa ∧ g.failure pa.toNat 1 = some m ∧ e = .memError m) →
        linBytes p g mode tc la n = .error e ∧ linRead p g mode tc la n = .error e)

/-- `DP.RESOLVE_REAL(v, idt_base)` (R370): four untranslated bytes, offset then segment; an accessor failure of the
lowest failing byte is propagated. -/
def Obligations.RealModeResolver : Prop :=
  ∀ (s : State) (v : Byte) (base : Quad),
    let a (i : Nat) : Nat := (base.toNat + 4 * v.toNat + i) % 2 ^ 32
    let b (i : Nat) : Nat := (s.mem.cells.byte (a i)).toNat
    ((∀ i, i < 4 → s.mem.failure (a i) 1 = none) →
      let target : RealTarget :=
        { segment := BitVec.ofNat 16 (b 2 + b 3 * 256), offset := BitVec.ofNat 16 (b 0 + b 1 * 256) }
      exec (.dpResolveReal v base) s = .next { s with reply := .realTarget target })
    ∧ (∀ i e, i < 4 → (∀ j, j < i → s.mem.failure (a j) 1 = none) → s.mem.failure (a i) 1 = some e →
      exec (.dpResolveReal v base) s = .next { s with reply := .raised (.memError e) })

/-- `DP.RESOLVE_PROT(v, idt_base, idt_limit)` (R375): the limit test, the read of eight bytes by `LinRead`, the
type test, the gate's fields, S, DPL and P among them, reported and not checked (D61). -/
def Obligations.ProtectedModeResolver : Prop :=
  ∀ (s : State) (v : Byte) (base : Quad) (limit : Half) (tc : TransCtx),
    let gp : Reply := .raised (.generalProtection (BitVec.ofNat 16 (v.toNat * 8 + 2)))
    let addr : Quad := BitVec.ofNat 64 ((base.toNat + 8 * v.toNat) % 2 ^ 32)
    (limit.toNat < v.toNat * 8 + 7 → exec (.dpResolveProt v base limit tc) s = .next { s with reply := gp })
    ∧ (v.toNat * 8 + 7 ≤ limit.toNat →
        (∀ e, linRead s.par s.mem .prot tc addr 8 = .error e →
          exec (.dpResolveProt v base limit tc) s = .next { s with reply := .raised e })
        ∧ (∀ q, linRead s.par s.mem .prot tc addr 8 = .ok q →
          let t : Nat := q.toNat / 2 ^ 40 % 16
          let off : Nat := q.toNat / 2 ^ 48 * 65536 + q.toNat % 65536
          let gate (kind : ProtGateKind) (entry : Nat) : Reply := .protGate
            { kind := kind, selector := BitVec.ofNat 16 (q.toNat / 2 ^ 16), offset := BitVec.ofNat 32 off,
              entry := BitVec.ofNat 32 entry, s := q.getLsbD 44, dpl := BitVec.ofNat 2 (q.toNat / 2 ^ 45),
              present := q.getLsbD 47 }
          let r : Reply :=
            if t = 5 then gate .task off else if t = 6 then gate .int16 (off % 65536)
            else if t = 7 then gate .trap16 (off % 65536) else if t = 14 then gate .int32 off
            else if t = 15 then gate .trap32 off else gp
          exec (.dpResolveProt v base limit tc) s = .next { s with reply := r }))

/-- `DP.RESOLVE_LONG(v, idt_base, idt_limit)` (R380): the limit test, both reads, the type test, the gate's fields,
S, DPL and P among them, reported and not checked (D61). The fault code is `v*LM_GP_SCALE + 2` wherever that fits the
code's 16 bits (R146); which code a larger scale gives is the model's choice (notes/assumptions/4.md) and not stated. -/
def Obligations.LongModeResolver : Prop :=
  ∀ (s : State) (v : Byte) (base : Quad) (limit : Half) (tc : TransCtx), ∃ ec : Half,
    (v.toNat * s.par.lmGpScale + 2 < 2 ^ 16 → ec.toNat = v.toNat * s.par.lmGpScale + 2) ∧
    let gp : Reply := .raised (.generalProtection ec)
    let addr : Quad := base + BitVec.ofNat 64 (16 * v.toNat)
    let r0 := linRead s.par s.mem .long tc addr 8
    let r1 := linRead s.par s.mem .long tc (addr + 8) 8
    (limit.toNat < v.toNat * 16 + 15 → exec (.dpResolveLong v base limit tc) s = .next { s with reply := gp })
    ∧ (v.toNat * 16 + 15 ≤ limit.toNat →
        (∀ e, r0 = .error e ∨ (∃ q0, r0 = .ok q0 ∧ r1 = .error e) →
          exec (.dpResolveLong v base limit tc) s = .next { s with reply := .raised e })
        ∧ (∀ q0 q1, r0 = .ok q0 → r1 = .ok q1 →
          let t : Nat := q0.toNat / 2 ^ 40 % 16
          let gate (kind : LongGateKind) : Reply := .longGate
            { kind := kind, selector := BitVec.ofNat 16 (q0.toNat / 2 ^ 16),
              offset := BitVec.ofNat 64
                (q1.toNat % 2 ^ 32 * 2 ^ 32 + q0.toNat / 2 ^ 48 * 65536 + q0.toNat % 65536),
              ist := BitVec.ofNat 3 (q0.toNat / 2 ^ 32), s := q0.getLsbD 44, dpl := BitVec.ofNat 2 (q0.toNat / 2 ^ 45),
              present := q0.getLsbD 47 }
          let r : Reply := if t = 14 then gate .int64 else if t = 15 then gate .trap64 else gp
          exec (.dpResolveLong v base limit tc) s = .next { s with reply := r }))

/-- `DP.RESOLVE` (R385): the execution mode selects the resolver. -/
def Obligations.ResolveSelectsByMode : Prop :=
  ∀ (s : State) (v : Byte) (base : Quad) (limit : Half) (tc : TransCtx),
    exec (.dpResolve .real v base limit tc) s = exec (.dpResolveReal v base) s
    ∧ exec (.dpResolve .prot v base limit tc) s = exec (.dpResolveProt v base limit tc) s
    ∧ exec (.dpResolve .long v base limit tc) s = exec (.dpResolveLong v base limit tc) s
    ∧ ∀ mode, ∃ r, exec (.dpResolve mode v base limit tc) s = .next { s with reply := r }

/-- A page fault out of a resolver is that of a supervisor read, which breaks no right (R158), so its error code is 0,
and the address is that of one of the entry's bytes: eight in protected mode, sixteen in long mode (R386, R401). That the
address it carries is the wrapped one is the model's reading (notes/assumptions/10.md). -/
def Obligations.ResolverPageFaultIsASupervisorRead : Prop :=
  ∀ (s t : State) (mode : ExecMode) (v : Byte) (base : Quad) (limit : Half) (tc : TransCtx) (a : Quad) (ec : Dword),
    exec (.dpResolve mode v base limit tc) s = .next t → t.reply = .raised (.pageFault a ec) →
    mode ≠ .real ∧ tc.paging = true ∧ ec = 0
    ∧ ∃ i, i < (if mode = .prot then 8 else 16)
        ∧ a = (let n := base.toNat + (if mode = .prot then 8 else 16) * v.toNat + i
               if mode = .prot then BitVec.ofNat 64 (n % 2 ^ 32) else BitVec.ofNat 64 n)
end

