-- ==== Sys2Proof/Laws/State.lean ====
section
/-! SUPPORT. One lemma per field per update of the state, and of the parts of the PIC, the timer and the NIC that
hold several alike, so that no proof unfolds a record update. -/

namespace Sys2Proof.Machine

@[simp] theorem State.setMem_par (s : State) (g : GuestMem) : (s.setMem g).par = s.par := rfl
@[simp] theorem State.setMem_mem (s : State) (g : GuestMem) : (s.setMem g).mem = g := rfl
@[simp] theorem State.setMem_pic (s : State) (g : GuestMem) : (s.setMem g).pic = s.pic := rfl
@[simp] theorem State.setMem_pit (s : State) (g : GuestMem) : (s.setMem g).pit = s.pit := rfl
@[simp] theorem State.setMem_nic (s : State) (g : GuestMem) : (s.setMem g).nic = s.nic := rfl
@[simp] theorem State.setMem_dp (s : State) (g : GuestMem) : (s.setMem g).dp = s.dp := rfl
@[simp] theorem State.setMem_inbox (s : State) (g : GuestMem) : (s.setMem g).inbox = s.inbox := rfl
@[simp] theorem State.setMem_reply (s : State) (g : GuestMem) : (s.setMem g).reply = s.reply := rfl

@[simp] theorem State.setPic_par (s : State) (p : Pic) : (s.setPic p).par = s.par := rfl
@[simp] theorem State.setPic_mem (s : State) (p : Pic) : (s.setPic p).mem = s.mem := rfl
@[simp] theorem State.setPic_pic (s : State) (p : Pic) : (s.setPic p).pic = p := rfl
@[simp] theorem State.setPic_pit (s : State) (p : Pic) : (s.setPic p).pit = s.pit := rfl
@[simp] theorem State.setPic_nic (s : State) (p : Pic) : (s.setPic p).nic = s.nic := rfl
@[simp] theorem State.setPic_dp (s : State) (p : Pic) : (s.setPic p).dp = s.dp := rfl
@[simp] theorem State.setPic_inbox (s : State) (p : Pic) : (s.setPic p).inbox = s.inbox := rfl
@[simp] theorem State.setPic_reply (s : State) (p : Pic) : (s.setPic p).reply = s.reply := rfl

@[simp] theorem State.setPit_par (s : State) (t : Pit) : (s.setPit t).par = s.par := rfl
@[simp] theorem State.setPit_mem (s : State) (t : Pit) : (s.setPit t).mem = s.mem := rfl
@[simp] theorem State.setPit_pic (s : State) (t : Pit) : (s.setPit t).pic = s.pic := rfl
@[simp] theorem State.setPit_pit (s : State) (t : Pit) : (s.setPit t).pit = t := rfl
@[simp] theorem State.setPit_nic (s : State) (t : Pit) : (s.setPit t).nic = s.nic := rfl
@[simp] theorem State.setPit_dp (s : State) (t : Pit) : (s.setPit t).dp = s.dp := rfl
@[simp] theorem State.setPit_inbox (s : State) (t : Pit) : (s.setPit t).inbox = s.inbox := rfl
@[simp] theorem State.setPit_reply (s : State) (t : Pit) : (s.setPit t).reply = s.reply := rfl

@[simp] theorem State.setNic_par (s : State) (n : Nic) : (s.setNic n).par = s.par := rfl
@[simp] theorem State.setNic_mem (s : State) (n : Nic) : (s.setNic n).mem = s.mem := rfl
@[simp] theorem State.setNic_pic (s : State) (n : Nic) : (s.setNic n).pic = s.pic := rfl
@[simp] theorem State.setNic_pit (s : State) (n : Nic) : (s.setNic n).pit = s.pit := rfl
@[simp] theorem State.setNic_nic (s : State) (n : Nic) : (s.setNic n).nic = n := rfl
@[simp] theorem State.setNic_dp (s : State) (n : Nic) : (s.setNic n).dp = s.dp := rfl
@[simp] theorem State.setNic_inbox (s : State) (n : Nic) : (s.setNic n).inbox = s.inbox := rfl
@[simp] theorem State.setNic_reply (s : State) (n : Nic) : (s.setNic n).reply = s.reply := rfl

@[simp] theorem State.setDp_par (s : State) (d : Dp) : (s.setDp d).par = s.par := rfl
@[simp] theorem State.setDp_mem (s : State) (d : Dp) : (s.setDp d).mem = s.mem := rfl
@[simp] theorem State.setDp_pic (s : State) (d : Dp) : (s.setDp d).pic = s.pic := rfl
@[simp] theorem State.setDp_pit (s : State) (d : Dp) : (s.setDp d).pit = s.pit := rfl
@[simp] theorem State.setDp_nic (s : State) (d : Dp) : (s.setDp d).nic = s.nic := rfl
@[simp] theorem State.setDp_dp (s : State) (d : Dp) : (s.setDp d).dp = d := rfl
@[simp] theorem State.setDp_inbox (s : State) (d : Dp) : (s.setDp d).inbox = s.inbox := rfl
@[simp] theorem State.setDp_reply (s : State) (d : Dp) : (s.setDp d).reply = s.reply := rfl

@[simp] theorem State.setInbox_par (s : State) (es : List Event) : (s.setInbox es).par = s.par := rfl
@[simp] theorem State.setInbox_mem (s : State) (es : List Event) : (s.setInbox es).mem = s.mem := rfl
@[simp] theorem State.setInbox_pic (s : State) (es : List Event) : (s.setInbox es).pic = s.pic := rfl
@[simp] theorem State.setInbox_pit (s : State) (es : List Event) : (s.setInbox es).pit = s.pit := rfl
@[simp] theorem State.setInbox_nic (s : State) (es : List Event) : (s.setInbox es).nic = s.nic := rfl
@[simp] theorem State.setInbox_dp (s : State) (es : List Event) : (s.setInbox es).dp = s.dp := rfl
@[simp] theorem State.setInbox_inbox (s : State) (es : List Event) : (s.setInbox es).inbox = es := rfl
@[simp] theorem State.setInbox_reply (s : State) (es : List Event) : (s.setInbox es).reply = s.reply := rfl

@[simp] theorem State.setReply_par (s : State) (r : Reply) : (s.setReply r).par = s.par := rfl
@[simp] theorem State.setReply_mem (s : State) (r : Reply) : (s.setReply r).mem = s.mem := rfl
@[simp] theorem State.setReply_pic (s : State) (r : Reply) : (s.setReply r).pic = s.pic := rfl
@[simp] theorem State.setReply_pit (s : State) (r : Reply) : (s.setReply r).pit = s.pit := rfl
@[simp] theorem State.setReply_nic (s : State) (r : Reply) : (s.setReply r).nic = s.nic := rfl
@[simp] theorem State.setReply_dp (s : State) (r : Reply) : (s.setReply r).dp = s.dp := rfl
@[simp] theorem State.setReply_inbox (s : State) (r : Reply) : (s.setReply r).inbox = s.inbox := rfl
@[simp] theorem State.setReply_reply (s : State) (r : Reply) : (s.setReply r).reply = r := rfl

/-! ### The pair of chips -/

@[simp] theorem Pic.chip_master (p : Pic) : p.chip .master = p.m := rfl
@[simp] theorem Pic.chip_slave (p : Pic) : p.chip .slave = p.s := rfl
@[simp] theorem Pic.setChip_master (p : Pic) (x : PicChip) : p.setChip .master x = { m := x, s := p.s } := rfl
@[simp] theorem Pic.setChip_slave (p : Pic) (x : PicChip) : p.setChip .slave x = { m := p.m, s := x } := rfl
@[simp] theorem Pic.steps_of (p : Pic) (c : Chip) : p.steps.of c = (p.chip c).step := by cases c <;> rfl

theorem Pic.chip_setChip (p : Pic) (c : Chip) (x : PicChip) : (p.setChip c x).chip c = x := by cases c <;> rfl

theorem Pic.chip_setChip_other (p : Pic) (c d : Chip) (x : PicChip) (h : d ≠ c) :
    (p.setChip c x).chip d = p.chip d := by
  cases c <;> cases d <;> first | rfl | exact absurd rfl h

/-! ### The three channels -/

@[simp] theorem Pit.chan_c0 (t : Pit) : t.chan .c0 = t.ch0 := rfl
@[simp] theorem Pit.chan_c1 (t : Pit) : t.chan .c1 = t.ch1 := rfl
@[simp] theorem Pit.chan_c2 (t : Pit) : t.chan .c2 = t.ch2 := rfl

theorem Pit.chan_setChan (t : Pit) (c : PitChan) (x : PitChannel) : (t.setChan c x).chan c = x := by
  cases c <;> rfl

theorem Pit.chan_setChan_other (t : Pit) (c d : PitChan) (x : PitChannel) (h : d ≠ c) :
    (t.setChan c x).chan d = t.chan d := by
  cases c <;> cases d <;> first | rfl | exact absurd rfl h

/-- A clock advances each channel by itself (R280). -/
theorem Pit.tick_chan (t : Pit) (c : PitChan) : t.tick.chan c = (t.chan c).tick.1 := by cases c <;> rfl

/-! ### The NIC -/

@[simp] theorem Nic.setReg_mac (n : Nic) (i : BitVec 15) (v : Dword) : (n.setReg i v).mac = n.mac := rfl
@[simp] theorem Nic.setReg_eeprom (n : Nic) (i : BitVec 15) (v : Dword) : (n.setReg i v).eeprom = n.eeprom := rfl
@[simp] theorem Nic.setReg_rx (n : Nic) (i : BitVec 15) (v : Dword) : (n.setReg i v).rx = n.rx := rfl
@[simp] theorem Nic.setReg_tx (n : Nic) (i : BitVec 15) (v : Dword) : (n.setReg i v).tx = n.tx := rfl

/-! ### How an operation ends -/

/-- An operation that finishes answers the state with its reply and nothing else changed (R12). -/
theorem State.finish_eq (s : State) (r : Reply) : s.finish r = .next { s with reply := r } := rfl

/-- A fault outcome changes the reply and nothing else (R12, R403). -/
theorem State.raise_eq (s : State) (r : Raised) : s.raise r = .next { s with reply := .raised r } := rfl

/-- Everything an operation that reads guest memory can do: it answers, and only the reply changes. -/
theorem State.conclude_eq {α : Type} (s : State) (r : Except Raised α) (f : α → Reply) :
    (∃ a, r = .ok a ∧ s.conclude r f = .next { s with reply := f a })
    ∨ (∃ e, r = .error e ∧ s.conclude r f = .next { s with reply := .raised e }) := by
  cases r with
  | ok a => exact .inl ⟨a, rfl, rfl⟩
  | error e => exact .inr ⟨e, rfl, rfl⟩

/-- An operation that reads guest memory always goes on, and only the reply changes. -/
theorem State.conclude_next {α : Type} (s : State) (r : Except Raised α) (f : α → Reply) :
    ∃ x, s.conclude r f = .next { s with reply := x } := by
  cases r <;> exact ⟨_, rfl⟩

/-- Everything an absorbed access can do (R67). -/
theorem State.absorb_eq (s : State) (j : Reject) (h : j ≠ .notHostCall) :
    s.absorb j = .next { s with reply := .unit } ∨ s.absorb j = .next { s with reply := .value 0 } := by
  cases j with
  | wideWrite w => exact .inl rfl
  | unknownWrite q => exact .inl rfl
  | wideRead w => exact .inr rfl
  | unknownRead q => exact .inr rfl
  | notHostCall => exact absurd rfl h

end Sys2Proof.Machine
end

