-- ==== Sys2Proof/Laws/Cells.lean ====
section
/-! SUPPORT. Sparse storage: a read after a write, the canonical form, and that every operation keeps it. -/

namespace Sys2Proof.Machine

variable {w : Nat}

@[simp] theorem Cells.get_nil (k : Nat) : Cells.get ([] : Cells w) k = 0#w := rfl

theorem Cells.get_cons (a : Nat) (x : BitVec w) (t : Cells w) (k : Nat) :
    Cells.get ((a, x) :: t) k = if k = a then x else Cells.get t k := rfl

theorem Cells.wf_cons (b lo a : Nat) (x : BitVec w) (t : Cells w) :
    Cells.wf b lo ((a, x) :: t) = true ↔ lo ≤ a ∧ a < b ∧ x ≠ 0#w ∧ Cells.wf b (a + 1) t = true := by
  simp [Cells.wf]

/-- The canonical form from lo on is the canonical form from any lower key on. -/
theorem Cells.wf_mono (b : Nat) : ∀ (c : Cells w) (lo lo' : Nat), lo' ≤ lo → Cells.wf b lo c = true →
    Cells.wf b lo' c = true
  | [], _, _, _, _ => rfl
  | (a, x) :: t, lo, lo', h, hc => by
    rw [Cells.wf_cons] at hc ⊢
    exact ⟨h.trans hc.1, hc.2⟩

/-- A canonical list has nothing below its first key. -/
theorem Cells.get_below (b : Nat) : ∀ (c : Cells w) (lo k : Nat), Cells.wf b lo c = true → k < lo → Cells.get c k = 0#w
  | [], _, _, _, _ => rfl
  | (a, x) :: t, lo, k, hc, hk => by
    rw [Cells.wf_cons] at hc
    rw [Cells.get_cons, if_neg (by omega)]
    exact Cells.get_below b t (a + 1) k hc.2.2.2 (by omega)

/-- A canonical list has nothing at or above its bound. -/
theorem Cells.get_above (b : Nat) : ∀ (c : Cells w) (lo k : Nat), Cells.wf b lo c = true → b ≤ k → Cells.get c k = 0#w
  | [], _, _, _, _ => rfl
  | (a, x) :: t, lo, k, hc, hk => by
    rw [Cells.wf_cons] at hc
    rw [Cells.get_cons, if_neg (by omega)]
    exact Cells.get_above b t (a + 1) k hc.2.2.2 hk

/-- A write leaves every other key alone. -/
theorem Cells.get_set_other (k j : Nat) (v : BitVec w) (h : j ≠ k) :
    ∀ c : Cells w, Cells.get (Cells.set c k v) j = Cells.get c j
  | [] => by
    by_cases hv : v = 0#w <;> simp [Cells.set, hv, Cells.get_cons, h]
  | (a, x) :: t => by
    have ih := Cells.get_set_other k j v h t
    unfold Cells.set
    split
    · split <;> simp [Cells.get_cons, h]
    · split
      · next hka => subst hka; split <;> simp [Cells.get_cons, h]
      · simp [Cells.get_cons, ih]

/-- A read after a write of a canonical list gives the value written. -/
theorem Cells.get_set_same (b k : Nat) (v : BitVec w) :
    ∀ (c : Cells w) (lo : Nat), Cells.wf b lo c = true → Cells.get (Cells.set c k v) k = v
  | [], _, _ => by
    by_cases hv : v = 0#w <;> simp [Cells.set, hv, Cells.get_cons]
  | (a, x) :: t, lo, hc => by
    rw [Cells.wf_cons] at hc
    have ih := Cells.get_set_same b k v t (a + 1) hc.2.2.2
    unfold Cells.set
    split
    · next hka =>
      split
      · next hv => rw [hv, Cells.get_cons, if_neg (by omega)]; exact Cells.get_below b t (a + 1) k hc.2.2.2 (by omega)
      · simp [Cells.get_cons]
    · split
      · next hka =>
        subst hka
        split
        · next hv => rw [hv]; exact Cells.get_below b t (k + 1) k hc.2.2.2 (by omega)
        · simp [Cells.get_cons]
      · next h1 h2 => rw [Cells.get_cons, if_neg h2]; exact ih

/-- A write within the bound keeps the canonical form. -/
theorem Cells.set_wf (b k : Nat) (v : BitVec w) (hk : k < b) :
    ∀ (c : Cells w) (lo : Nat), lo ≤ k → Cells.wf b lo c = true → Cells.wf b lo (Cells.set c k v) = true
  | [], lo, hlo, _ => by
    by_cases hv : v = 0#w <;> simp [Cells.set, hv, Cells.wf, hlo, hk]
  | (a, x) :: t, lo, hlo, hc => by
    have hc' := hc
    rw [Cells.wf_cons] at hc
    unfold Cells.set
    split
    · next hka =>
      split
      · exact hc'
      · next hv =>
        rw [Cells.wf_cons, Cells.wf_cons]
        exact ⟨hlo, hk, hv, by omega, hc.2.1, hc.2.2.1, hc.2.2.2⟩
    · split
      · next hka =>
        subst hka
        split
        · exact Cells.wf_mono b t (k + 1) lo (by omega) hc.2.2.2
        · next hv => rw [Cells.wf_cons]; exact ⟨hc.1, hc.2.1, hv, hc.2.2.2⟩
      · next h1 h2 =>
        rw [Cells.wf_cons]
        exact ⟨hc.1, hc.2.1, hc.2.2.1, Cells.set_wf b k v hk t (a + 1) (by omega) hc.2.2.2⟩

/-- Keeping some entries keeps the canonical form. -/
theorem Cells.keep_wf (b : Nat) (q : Nat → Bool) :
    ∀ (c : Cells w) (lo : Nat), Cells.wf b lo c = true → Cells.wf b lo (Cells.keep q c) = true
  | [], _, _ => rfl
  | (a, x) :: t, lo, hc => by
    rw [Cells.wf_cons] at hc
    have ih := Cells.keep_wf b q t (a + 1) hc.2.2.2
    unfold Cells.keep
    split
    · rw [Cells.wf_cons]; exact ⟨hc.1, hc.2.1, hc.2.2.1, ih⟩
    · exact Cells.wf_mono b _ (a + 1) lo (by omega) ih

/-- A kept key reads as before, any other as 0. -/
theorem Cells.get_keep (q : Nat → Bool) (k : Nat) :
    ∀ c : Cells w, Cells.get (Cells.keep q c) k = if q k then Cells.get c k else 0#w
  | [] => by simp [Cells.keep]
  | (a, x) :: t => by
    have ih := Cells.get_keep q k t
    by_cases hk : k = a
    · subst hk
      by_cases hq : q k <;> simp [Cells.keep, hq, Cells.get_cons, ih]
    · by_cases hq : q a <;> simp [Cells.keep, hq, Cells.get_cons, ih, hk]

end Sys2Proof.Machine
end

