-- ==== Sys2Proof/Laws/Memory.lean ====
section
/-! SUPPORT. Guest memory: a read after a write, what a write leaves alone, that every memory operation keeps the
canonical form and power-on has it, and what the accessor's operations can do. -/

namespace Sys2Proof.Machine

/-- A store leaves every byte outside it alone. -/
theorem Memory.byte_writeLE_other (b : Nat) : ∀ (n : Nat) (m : Memory) (a v : Nat), b < a ∨ a + n ≤ b →
    (m.writeLE a v n).byte b = m.byte b
  | 0, _, _, _, _ => rfl
  | n + 1, m, a, v, h => by
    rw [Memory.writeLE, Memory.byte_writeLE_other b n _ (a + 1) (v / 256) (by omega)]
    exact Cells.get_set_other a b _ (by omega) m

/-- A store inside the 64-bit space keeps the canonical form. -/
theorem Memory.writeLE_wf : ∀ (n : Nat) (m : Memory) (a v : Nat), a + n ≤ 2 ^ 64 → m.wf = true →
    (m.writeLE a v n).wf = true
  | 0, _, _, _, _, h => h
  | n + 1, m, a, v, ha, h => by
    rw [Memory.writeLE]
    exact Memory.writeLE_wf n _ (a + 1) (v / 256) (by omega)
      (Cells.set_wf (2 ^ 64) a _ (by omega) m 0 (Nat.zero_le a) h)

/-- A store puts byte j of the value at address j of its range, in little-endian order (R62). -/
theorem Memory.byte_writeLE_same : ∀ (n : Nat) (m : Memory) (a v j : Nat), a + n ≤ 2 ^ 64 → m.wf = true → j < n →
    (m.writeLE a v n).byte (a + j) = BitVec.ofNat 8 (v / 256 ^ j)
  | 0, _, _, _, j, _, _, hj => absurd hj (Nat.not_lt_zero j)
  | n + 1, m, a, v, 0, _, h, _ => by
    rw [Memory.writeLE, Memory.byte_writeLE_other (a + 0) n _ (a + 1) (v / 256) (by omega)]
    simpa [Memory.byte] using Cells.get_set_same (2 ^ 64) a _ m 0 h
  | n + 1, m, a, v, j + 1, ha, h, hj => by
    have hw := Cells.set_wf (2 ^ 64) a (BitVec.ofNat 8 v) (by omega) m 0 (Nat.zero_le a) h
    have e : a + (j + 1) = (a + 1) + j := by omega
    rw [Memory.writeLE, e, Memory.byte_writeLE_same n _ (a + 1) (v / 256) j (by omega) hw (by omega),
      Nat.div_div_eq_div_mul, Nat.pow_succ, Nat.mul_comm]

/-- n bytes read as a number are below 256 to the n. -/
theorem Memory.readLE_lt (m : Memory) : ∀ (n a : Nat), m.readLE a n < 256 ^ n
  | 0, _ => by simp [Memory.readLE]
  | n + 1, a => by
    have h := Memory.readLE_lt m n (a + 1)
    have hb := (m.byte a).isLt
    rw [Memory.readLE, Nat.pow_succ]
    omega

/-- Two memories that agree on the bytes read give the same number. -/
theorem Memory.readLE_congr (m m' : Memory) : ∀ (n a : Nat), (∀ j, j < n → m.byte (a + j) = m'.byte (a + j)) →
    m.readLE a n = m'.readLE a n
  | 0, _, _ => rfl
  | n + 1, a, h => by
    rw [Memory.readLE, Memory.readLE, Memory.readLE_congr m m' n (a + 1)
      (fun j hj => by have := h (j + 1) (by omega); rwa [Nat.add_assoc, Nat.add_comm 1 j]),
      show m.byte a = m'.byte a from h 0 (by omega)]

/-- A read after a store of the same bytes gives the value stored. -/
theorem Memory.readLE_writeLE : ∀ (n : Nat) (m : Memory) (a v : Nat), a + n ≤ 2 ^ 64 → m.wf = true →
    (m.writeLE a v n).readLE a n = v % 256 ^ n
  | 0, m, a, v, _, _ => by simp [Memory.readLE, Nat.mod_one]
  | n + 1, m, a, v, ha, h => by
    have hw := Cells.set_wf (2 ^ 64) a (BitVec.ofNat 8 v) (by omega) m 0 (Nat.zero_le a) h
    have h0 := Memory.byte_writeLE_same (n + 1) m a v 0 ha h (by omega)
    rw [Memory.readLE, show (m.writeLE a v (n + 1)).byte a = BitVec.ofNat 8 v by simpa using h0, Memory.writeLE,
      Memory.readLE_writeLE n _ (a + 1) (v / 256) (by omega) hw, Nat.pow_succ, BitVec.toNat_ofNat,
      Nat.mul_comm (256 ^ n) 256, Nat.mod_mul]

/-- Everything a read through the accessor can do (R14). -/
theorem memRead_eq {E : Type} (g : GuestMem E) (pa n : Nat) :
    (g.failure pa n = none ∧ memRead g pa n = .ok (g.cells.readLE pa n))
    ∨ (∃ e, g.failure pa n = some e ∧ memRead g pa n = .error (.memError e)) := by
  unfold memRead
  cases h : g.failure pa n with
  | none => exact .inl ⟨rfl, rfl⟩
  | some e => exact .inr ⟨e, rfl, rfl⟩

/-- Everything a store event can do: the bytes are stored, or the accessor fails, or it reaches past the space. -/
theorem hostStore_eq (s : State) (pa : Quad) (n : MemWidth) (v : Quad) :
    (pa.toNat + n.bytes ≤ 2 ^ 64 ∧ s.mem.failure pa.toNat n.bytes = none ∧ hostStore s pa n v
      = .next { s with mem := { s.mem with cells := s.mem.cells.writeLE pa.toNat v.toNat n.bytes }, reply := .unit })
    ∨ (∃ e, s.mem.failure pa.toNat n.bytes = some e ∧ hostStore s pa n v
      = .next { s with reply := .raised (.memError e) })
    ∨ (2 ^ 64 < pa.toNat + n.bytes ∧ hostStore s pa n v = .fault .beyondAddressSpace) := by
  unfold hostStore
  by_cases hb : 2 ^ 64 < pa.toNat + n.bytes
  · exact .inr (.inr ⟨hb, by rw [if_pos hb]⟩)
  · rw [if_neg hb]
    cases h : s.mem.failure pa.toNat n.bytes with
    | none => exact .inl ⟨by omega, rfl, rfl⟩
    | some e => exact .inr (.inl ⟨e, rfl, rfl⟩)

/-- A change of the accessor keeps the bytes. -/
theorem hostAccessor_eq (s : State) (rules : List MemRule) :
    hostAccessor s rules = .next { s with mem := { s.mem with rules := rules }, reply := .unit } := rfl

/-- A store event keeps the canonical form. -/
theorem hostStore_wf (s t : State) (pa : Quad) (n : MemWidth) (v : Quad) (h : s.mem.cells.wf = true)
    (ht : hostStore s pa n v = .next t) : t.mem.cells.wf = true := by
  rcases hostStore_eq s pa n v with ⟨hb, _, e⟩ | ⟨_, _, e⟩ | ⟨_, e⟩
  · rw [e] at ht; injection ht with ht; subst ht
    exact Memory.writeLE_wf n.bytes _ pa.toNat v.toNat hb h
  · rw [e] at ht; injection ht with ht; subst ht; exact h
  · rw [e] at ht; cases ht

/-- Memory after power-on is canonical. -/
theorem State.powerOn_mem_wf (p : Params) (mac : Mac) (eeprom : List Half) :
    (State.powerOn p mac eeprom).mem.cells.wf = true := rfl

/-- Memory after State.reset is canonical. -/
theorem State.reset_mem_wf : State.reset.mem.cells.wf = true := rfl

end Sys2Proof.Machine
end

