-- ==== Sys2Proof/Laws/Atu.lean ====
section
/-! SUPPORT. The walkers: what reading an entry, its tests and the shared permission check can do. -/

namespace Sys2Proof.Machine

variable {E : Type}

/-- Everything reading an entry can do (R157). -/
theorem readEntry_eq (g : GuestMem E) (pa : Quad) (size : Nat) :
    readEntry g pa size =
      match g.failure pa.toNat size with
      | some e => .error (.memError e)
      | none => .ok (BitVec.ofNat 64 (g.cells.readLE pa.toNat size)) := by
  unfold readEntry memRead
  cases g.failure pa.toNat size <;> rfl

/-- Everything the present test can do (R170). -/
theorem Walk.present_eq (q : Walk) (e : Quad) :
    (flag e 0 = true ∧ (q.present e : Except (Raised E) Unit) = .ok ())
      ∨ (flag e 0 = false ∧ (q.present e : Except (Raised E) Unit) = q.fault false) := by
  unfold Walk.present
  cases flag e 0
  · exact .inr ⟨rfl, rfl⟩
  · exact .inl ⟨rfl, rfl⟩

/-- Everything reaching an entry that carries rights can do (R170, R171). -/
theorem Walk.visit_eq (q : Walk) (e : Quad) (nx : Bool) :
    (q.visit e nx : Except (Raised E) Unit) =
      if flag e 0 = false then q.fault false
      else if q.scope = .perLevelInOrder ∧ q.denied [e] nx = true then q.fault true
      else .ok () := by
  unfold Walk.visit Walk.present Walk.check
  cases flag e 0 <;> cases q.scope <;> cases q.denied [e] nx <;> rfl

/-- Everything reaching the mapping level can do (R170, R171). -/
theorem Walk.arrive_eq (q : Walk) (es : List Quad) (nx : Bool) :
    (q.arrive es nx : Except (Raised E) Unit)
      = if q.scope = .combined ∧ q.denied es nx = true then q.fault true else .ok () := by
  unfold Walk.arrive Walk.check
  cases q.scope <;> cases q.denied es nx <;> rfl

/-- The rights of several entries are refused together exactly when one of them is refused alone (R158, R171). -/
theorem Walk.denied_cons (q : Walk) (e : Quad) (es : List Quad) (nx : Bool) :
    q.denied (e :: es) nx = (q.denied [e] nx || q.denied es nx) := by
  unfold Walk.denied
  simp only [List.any_cons, List.any_nil, Bool.or_false]
  cases q.user <;> cases flag e 2 <;> cases flag e 1 <;> cases flag e 63 <;> cases q.cfg.wp <;> cases q.cfg.nxe <;>
    cases nx <;> cases (decide (q.kind = .write)) <;> cases (decide (q.kind = .execute)) <;>
    simp [Bool.or_assoc, Bool.or_comm]

/-- A supervisor read breaks no right (R158). -/
theorem Walk.denied_supervisor_read (q : Walk) (es : List Quad) (nx : Bool) (hu : q.user = false)
    (hk : q.kind = .read) : q.denied es nx = false := by
  simp [Walk.denied, hu, hk]

@[simp] theorem Walk.denied_nil (q : Walk) (nx : Bool) : q.denied [] nx = false := by simp [Walk.denied]

/-- The error code of a fault, bit by bit (R140). -/
theorem errorCode_bits (kind : AccessKind) (user : Bool) (cfg : TransCfg) (present : Bool) :
    errorCode kind user cfg present = BitVec.ofNat 32
      (present.toNat + (if kind = .write then 2 else 0) + (if user = true then 4 else 0)
        + (if fetchBit kind cfg = true then 16 else 0)) := by
  unfold errorCode
  cases fetchBit kind cfg <;> cases user <;> cases present <;> cases kind <;> rfl

/-- An access with the kind Read or Write never sets the fetch bit (R140). -/
theorem fetchBit_read (cfg : TransCfg) : fetchBit .read cfg = false := rfl

/-! ### Where a walk ends with a failure of the accessor -/

/-- Reading an entry ends with the accessor's failure, or what follows does (R157). -/
theorem readEntry_bind_memError (g : GuestMem E) (pa : Quad) (n : Nat) (f : Quad → Except (Raised E) Quad) (e : E) :
    (readEntry g pa n >>= f) = .error (.memError e) ↔
      g.failure pa.toNat n = some e
      ∨ (g.failure pa.toNat n = none ∧ f (BitVec.ofNat 64 (g.cells.readLE pa.toNat n)) = .error (.memError e)) := by
  rw [readEntry_eq]
  cases g.failure pa.toNat n with
  | none => simp [bind, Except.bind]
  | some m => simp [bind, Except.bind]

/-- The tests of an entry end with no failure of the accessor: only what follows them can (R170, R171). -/
theorem Walk.visit_bind_memError (q : Walk) (x : Quad) (nx : Bool) (f : Unit → Except (Raised E) Quad) (e : E) :
    (q.visit x nx >>= f) = .error (.memError e) ↔
      flag x 0 = true ∧ ¬ (q.scope = .perLevelInOrder ∧ q.denied [x] nx = true) ∧ f () = .error (.memError e) := by
  rw [Walk.visit_eq]
  cases flag x 0 with
  | false => simp [Walk.fault, bind, Except.bind]
  | true =>
    by_cases h : q.scope = .perLevelInOrder ∧ q.denied [x] nx = true
    · rw [if_neg (by decide), if_pos h]
      exact ⟨fun k => (nomatch k), fun k => absurd h k.2.1⟩
    · rw [if_neg (by decide), if_neg h]
      exact ⟨fun k => ⟨rfl, h, k⟩, fun k => k.2.2⟩

theorem Walk.present_bind_memError (q : Walk) (x : Quad) (f : Unit → Except (Raised E) Quad) (e : E) :
    (q.present x >>= f) = .error (.memError e) ↔ flag x 0 = true ∧ f () = .error (.memError e) := by
  unfold Walk.present
  cases flag x 0 <;> simp [Walk.fault, bind, Except.bind]

/-- The mapping level ends with no failure of the accessor (R170, R171). -/
theorem Walk.arrive_bind_memError (q : Walk) (es : List Quad) (nx : Bool) (a : Quad) (e : E) :
    ((q.arrive es nx >>= fun _ => .ok a : Except (Raised E) Quad) = .error (.memError e)) ↔ False := by
  rw [Walk.arrive_eq, iff_false]
  split <;> exact fun k => (nomatch k)

/-! ### What a walk can end with -/

/-- The errors a walk ends with: its own fault, not present or rights, or a failure of the accessor (R157, R401). -/
def Walk.Ends (q : Walk) (e : Raised E) : Prop :=
  (∃ b, e = .pageFault q.la (errorCode q.kind q.user q.cfg b)) ∨ ∃ m, e = .memError m

/-- A walk's result: an address that is one of the walk's leaves, or one of its errors. -/
def Walk.Result (q : Walk) (leaf : Quad → Prop) : Except (Raised E) Quad → Prop
  | .ok a => leaf a
  | .error e => q.Ends e

theorem Walk.Result.entry {q : Walk} {leaf : Quad → Prop} {g : GuestMem E} {pa : Quad} {n : Nat}
    {f : Quad → Except (Raised E) Quad} (h : ∀ e, q.Result leaf (f e)) : q.Result leaf (readEntry g pa n >>= f) := by
  rw [readEntry_eq]
  cases g.failure pa.toNat n with
  | none => exact h _
  | some m => exact .inr ⟨m, rfl⟩

theorem Walk.Result.visit {q : Walk} {leaf : Quad → Prop} {e : Quad} {nx : Bool} {f : Unit → Except (Raised E) Quad}
    (h : q.Result leaf (f ())) : q.Result leaf (q.visit e nx >>= f) := by
  rw [Walk.visit_eq]
  split
  · exact .inl ⟨false, rfl⟩
  · split
    · exact .inl ⟨true, rfl⟩
    · exact h

theorem Walk.Result.present {q : Walk} {leaf : Quad → Prop} {e : Quad} {f : Unit → Except (Raised E) Quad}
    (h : q.Result leaf (f ())) : q.Result leaf (q.present e >>= f) := by
  rcases q.present_eq e with ⟨_, p⟩ | ⟨_, p⟩ <;> rw [p]
  · exact h
  · exact .inl ⟨false, rfl⟩

theorem Walk.Result.arrive {q : Walk} {leaf : Quad → Prop} {es : List Quad} {nx : Bool}
    {f : Unit → Except (Raised E) Quad} (h : q.Result leaf (f ())) : q.Result leaf (q.arrive es nx >>= f) := by
  rw [Walk.arrive_eq]
  split
  · exact .inl ⟨true, rfl⟩
  · exact h

/-- Everything the 2-level walker can answer (R155). -/
theorem walk2_result (leaf : Quad → Prop) (g : GuestMem E) (q : Walk) (cr3 : Quad)
    (large : ∀ e, leaf ((e &&& frameMask22) ||| slice q.la 0 22))
    (small : ∀ e, leaf ((e &&& baseMask2) ||| slice q.la 0 12)) : q.Result leaf (walk2 g q cr3) := by
  refine .entry fun pde => .visit ?_
  split
  · exact .arrive (large _)
  · exact .entry fun pte => .visit (.arrive (small _))

/-- Everything the PAE walker can answer (R160). -/
theorem walkPae_result (leaf : Quad → Prop) (p : Params) (g : GuestMem E) (q : Walk) (cr3 : Quad)
    (large : ∀ e, leaf ((e &&& frameMask21 p) ||| slice q.la 0 21))
    (small : ∀ e, leaf ((e &&& addrMask p) ||| slice q.la 0 12)) : q.Result leaf (walkPae p g q cr3) := by
  refine .entry fun root => .present (.entry fun pde => .visit ?_)
  split
  · exact .arrive (large _)
  · exact .entry fun pte => .visit (.arrive (small _))

/-- Everything the 4-level walker can answer (R165). -/
theorem walk4_result (leaf : Quad → Prop) (p : Params) (g : GuestMem E) (q : Walk) (cr3 : Quad)
    (huge : ∀ e, leaf ((e &&& frameMask30 p) ||| slice q.la 0 30))
    (large : ∀ e, leaf ((e &&& frameMask21 p) ||| slice q.la 0 21))
    (small : ∀ e, leaf ((e &&& addrMask p) ||| slice q.la 0 12)) : q.Result leaf (walk4 p g q cr3) := by
  refine .entry fun e4 => .visit (.entry fun e3 => .visit ?_)
  split
  · exact .arrive (huge _)
  · refine .entry fun e2 => .visit ?_
    split
    · exact .arrive (large _)
    · exact .entry fun e1 => .visit (.arrive (small _))

/-- Every way `TRANSLATE` can fail (R150, R157). -/
theorem translate_error (p : Params) (g : GuestMem E) (la : Quad) (kind : AccessKind) (cpl : BitVec 2) (cfg : TransCfg)
    (cr3 : Quad) (e : Raised E) (h : translate p g la kind cpl cfg cr3 = .error e) :
    (∃ b, e = .pageFault la (errorCode kind (isUser cpl) cfg b)) ∨ ∃ m, e = .memError m := by
  have r : Walk.Result { la := la, kind := kind, user := isUser cpl, cfg := cfg, scope := p.permScope }
      (fun _ => True) (translate p g la kind cpl cfg cr3) := by
    unfold Sys2Proof.Machine.translate
    dsimp only
    split
    · exact walk4_result _ _ _ _ _ (fun _ => trivial) (fun _ => trivial) (fun _ => trivial)
    · split
      · exact walkPae_result _ _ _ _ _ (fun _ => trivial) (fun _ => trivial)
      · exact walk2_result _ _ _ _ (fun _ => trivial) (fun _ => trivial)
  rw [h] at r
  exact r

/-- `TRANSLATE` answers through the reply and changes nothing else (R175). -/
theorem execTranslate_eq (la : Quad) (kind : AccessKind) (cpl : BitVec 2) (cfg : TransCfg) (cr3 : Quad) (s : State) :
    execTranslate la kind cpl cfg cr3 s = .next { s with reply :=
      (match translate s.par s.mem la kind cpl cfg cr3 with
       | .ok a => .pa a
       | .error e => .raised e) } := by
  unfold execTranslate State.conclude
  cases translate s.par s.mem la kind cpl cfg cr3 <;> rfl

end Sys2Proof.Machine
end

