-- ==== Sys2Proof/Laws/Bits.lean ====
section
/-! SUPPORT. Bit fields: a bit written and read back, the least significant set bit, and when a byte is zero. -/

namespace Sys2Proof.Machine

/-- Writing a bit changes that bit and no other (R10). -/
theorem getLsbD_withBit {w : Nat} (x : BitVec w) (n k : Nat) (b : Bool) (hn : n < w) :
    (withBit x n b).getLsbD k = if k = n then b else x.getLsbD k := by
  unfold withBit
  by_cases hk : k = n
  · subst hk
    cases b <;> simp [hn]
  · by_cases hw : k < w
    · cases b <;> simp [hk, hw]
    · rw [BitVec.getLsbD_of_ge _ _ (by omega), if_neg hk, BitVec.getLsbD_of_ge _ _ (by omega)]

/-- Writing a bit past the width changes nothing. -/
theorem withBit_of_le {w : Nat} (x : BitVec w) (n : Nat) (b : Bool) (hn : w ≤ n) : withBit x n b = x := by
  apply BitVec.eq_of_getLsbD_eq
  intro k hk
  have hk' : ¬ k = n := by omega
  unfold withBit
  cases b <;> simp [hk, hk']

/-- `find?` over a range gives the least number that passes the test. -/
theorem find_range_some (q : Nat → Bool) (b n : Nat) :
    (List.range b).find? q = some n ↔ n < b ∧ q n = true ∧ ∀ j, j < n → q j = false := by
  rw [List.find?_range_eq_some]
  constructor
  · rintro ⟨h1, h2, h3⟩; exact ⟨List.mem_range.1 h2, h1, fun j hj => by simpa using h3 j hj⟩
  · rintro ⟨h1, h2, h3⟩; exact ⟨h2, List.mem_range.2 h1, fun j hj => by simpa using h3 j hj⟩

theorem find_range_none (q : Nat → Bool) (b : Nat) :
    (List.range b).find? q = none ↔ ∀ j, j < b → q j = false := by
  simp

/-- `lowest` answers the least set bit (R10). -/
theorem lowest_eq_some (x : Byte) (n : Nat) :
    lowest x = some n ↔ n < 8 ∧ x.getLsbD n = true ∧ ∀ j, j < n → x.getLsbD j = false :=
  find_range_some _ _ _

/-- `lowest` answers none exactly for 0 (R10). -/
theorem lowest_eq_none (x : Byte) : lowest x = none ↔ ∀ j, j < 8 → x.getLsbD j = false :=
  find_range_none _ _

/-- A word is nonzero exactly when one of its bits is set. -/
theorem ne_zero_eq_any {w : Nat} (x : BitVec w) : (x != 0#w) = (List.range w).any (fun j => x.getLsbD j) := by
  rw [Bool.eq_iff_iff]
  simp only [bne_iff_ne, ne_eq, List.any_eq_true, List.mem_range]
  constructor
  · intro h
    by_contra hc
    apply h
    apply BitVec.eq_of_getLsbD_eq
    intro i hi
    by_cases hx : x.getLsbD i = true
    · exact absurd ⟨i, hi, hx⟩ hc
    · simpa using hx
  · rintro ⟨i, hi, hx⟩ h
    simp [h] at hx

end Sys2Proof.Machine
end

