-- ==== Sys2Proof/Laws/Decode.lean ====
section
/-! SUPPORT. The decoder and the encoder: ports, command bytes, control words and NIC offsets, each read back. -/

namespace Sys2Proof

/-- The numbers of the device registers' ports are the configuration's list of ports (R91, R104). -/
theorem portDevs_map_portNumber (p : Params) : portDevs.map (portNumber p) = p.ports := rfl

theorem mem_portDevs (d : PortDev) : d ∈ portDevs := by
  rcases d with ⟨_ | _⟩ | ⟨_ | _⟩ | ⟨_ | _ | _⟩ | _ <;> decide

/-- A port is a device register only if it has its number. -/
theorem portDevice_eq_some (p : Params) (port : Half) (d : PortDev) (h : portDevice p port = some d) :
    port.toNat = portNumber p d :=
  of_decide_eq_true (List.find?_some (p := fun d => decide (port.toNat = portNumber p d)) h)

/-- What a port reaches has a port. -/
theorem portNumber_lt (p : Params) (port : Half) (d : PortDev) (h : portDevice p port = some d) :
    portNumber p d < 2 ^ 16 := portDevice_eq_some p port d h ▸ port.isLt

/-- In a legal configuration a device register's port is that register's, where it is a port at all (R61). -/
theorem portDevice_devicePort (p : Params) (h : p.WellFormed) (d : PortDev) (hd : portNumber p d < 2 ^ 16) :
    portDevice p (devicePort p d) = some d := by
  have hn : (devicePort p d).toNat = portNumber p d := Nat.mod_eq_of_lt hd
  cases hf : portDevice p (devicePort p d) with
  | none => exact absurd (decide_eq_true hn) (List.find?_eq_none.1 hf d (mem_portDevs d))
  | some d' =>
    have hd' := portDevice_eq_some p _ _ hf
    rw [hn] at hd'
    rw [List.inj_on_of_nodup_map (portDevs_map_portNumber p ▸ h.1) (mem_portDevs d) (mem_portDevs d') hd']

/-- A port that is none of the block's eight is no device. -/
theorem portDevice_none (p : Params) (port : Half) (h : port.toNat ∉ p.ports) : portDevice p port = none := by
  refine List.find?_eq_none.2 fun d hd hn => h ?_
  rw [of_decide_eq_true hn, ← portDevs_map_portNumber]
  exact List.mem_map_of_mem hd

/-- The PIC's ports are ports, whatever the parameters. -/
theorem portNumber_picCmd (p : Params) (c : Chip) : portNumber p (.picCmd c) < 2 ^ 16 := by
  cases c <;> exact BitVec.isLt _

theorem portNumber_picData (p : Params) (c : Chip) : portNumber p (.picData c) < 2 ^ 16 := by
  cases c <;> exact BitVec.isLt _

/-- A timer register has a port exactly where its operations are well-formed. -/
theorem portNumber_pitCount (p : Params) (c : PitChan) :
    p.hasPitPort c.number = true ↔ portNumber p (.pitCount c) < 2 ^ 16 := decide_eq_true_iff

theorem portNumber_pitCtrl (p : Params) : p.hasPitPort 3 = true ↔ portNumber p .pitCtrl < 2 ^ 16 := decide_eq_true_iff

/-- A byte write to a device's port decodes as that device's write. -/
theorem decode_putByte (p : Params) (t : PicSteps) (h : p.WellFormed) (d : PortDev) (hd : portNumber p d < 2 ^ 16)
    (v : Byte) : decode p t (putByte p d v) = .ok (decodePortWrite t d v) := by
  have hv : (v.setWidth 32).setWidth 8 = v := by
    apply BitVec.eq_of_toNat_eq; simp
  simp [decode, putByte, portDevice_devicePort p h d hd, hv]

/-- A byte read of a device's port decodes as that device's read. -/
theorem decode_getByte (p : Params) (t : PicSteps) (h : p.WellFormed) (d : PortDev) (hd : portNumber p d < 2 ^ 16) :
    decode p t (getByte p d) = .ok (decodePortRead d) := by
  simp [decode, getByte, portDevice_devicePort p h d hd]

/-- Whatever a command byte decodes to has the bits of its row. -/
theorem decodeCommand_wf (p : Params) (t : PicSteps) (c : Chip) (v : Byte) :
    (decodeCommand c v).wf p = true ∧ (decodeCommand c v).atStep t = true := by
  revert v
  cases c <;> simp only [decodeCommand] <;> intro v <;> split <;> (try split) <;> (try split) <;> (try split) <;>
    simp_all [Instr.wf, Instr.atStep] <;> revert v <;> decide

/-- Whatever a data byte decodes to is decoded in the step of its row. -/
theorem decodeData_wf (p : Params) (t : PicSteps) (c : Chip) (v : Byte) :
    (decodeData (t.of c) c v).wf p = true ∧ (decodeData (t.of c) c v).atStep t = true := by
  cases h : t.of c <;> simp [decodeData, Instr.wf, Instr.atStep, h]

/-- Whatever a control word decodes to is well formed. -/
theorem decodeControl_wf (p : Params) (t : PicSteps) (v : Byte) (h : p.hasPitPort 3 = true) :
    (decodeControl v).wf p = true ∧ (decodeControl v).atStep t = true := by
  unfold decodeControl
  split
  · exact ⟨h, rfl⟩
  · split <;> exact ⟨h, rfl⟩

/-- A write of a register decodes to a well-formed row. -/
theorem decodeNicWrite_wf (p : Params) (t : PicSteps) (idx : BitVec 15) (k : BitVec 2) (w : NicWidth) (v : Dword) :
    (decodeNicWrite p.nicMap idx k w v).wf p = true ∧ (decodeNicWrite p.nicMap idx k w v).atStep t = true := by
  unfold decodeNicWrite
  repeat' split
  all_goals first
    | exact ⟨rfl, rfl⟩
    | refine ⟨?_, rfl⟩
      simp_all [Instr.wf, NicMap.sideEffecting]

/-- A mode command's control word decodes back to it. -/
theorem decodeControl_controlWord (c : PitChan) (rw : PitAccess) (m : BitVec 3) (bcd : Bool) :
    decodeControl (controlWord c rw m bcd) = .pitCtrlMode c rw m bcd := by
  revert m
  cases c <;> cases rw <;> cases bcd <;> decide

/-- A latch command's control byte decodes back to it. -/
theorem decodeControl_latchWord (c : PitChan) (low : BitVec 4) :
    decodeControl (latchWord c low) = .pitCtrlLatch c low := by
  revert low
  cases c <;> decide

/-- A read-back command's control byte decodes back to it. -/
theorem decodeControl_readbackWord (low : BitVec 6) : decodeControl (readbackWord low) = .pitCtrlReadback low := by
  revert low
  decide

/-- The NIC accepts the width of an accepted access. -/
@[simp] theorem nicWidthOf_bytes (w : NicWidth) : nicWidthOf w.bytes = some w := by cases w <;> rfl

/-- The widths the NIC accepts are 1, 2 and 4 (R302). -/
theorem nicWidthOf_eq_none (w : Nat) : nicWidthOf w = none ↔ w ∉ [1, 2, 4] := by
  unfold nicWidthOf
  by_cases h1 : w = 1 <;> by_cases h2 : w = 2 <;> by_cases h4 : w = 4 <;> simp_all

/-- An accepted width's byte count is the width asked for. -/
theorem nicWidthOf_eq_some (w : Nat) (nw : NicWidth) (h : nicWidthOf w = some nw) : nw.bytes = w := by
  unfold nicWidthOf at h
  repeat' split at h
  all_goals (cases h; try subst_vars; try rfl)

/-- A lane's offset as a number. -/
theorem nicOffset_toNat (idx : BitVec 15) (k : BitVec 2) : (nicOffset idx k).toNat = 4 * idx.toNat + k.toNat := by
  have h1 := idx.isLt
  have h2 := k.isLt
  simp only [nicOffset, BitVec.toNat_ofNat]
  omega

/-- Every lane of every register is inside the window (R34, R302). -/
theorem nicOffset_lt (idx : BitVec 15) (k : BitVec 2) : (nicOffset idx k).toNat < nicWindow := by
  have h1 := idx.isLt
  have h2 := k.isLt
  rw [nicOffset_toNat, nicWindow]
  omega

/-- The register of a lane's offset. -/
theorem nicIndex_nicOffset (idx : BitVec 15) (k : BitVec 2) : nicIndex (nicOffset idx k) = idx := by
  apply BitVec.eq_of_toNat_eq
  have h1 := idx.isLt
  have h2 := k.isLt
  rw [nicIndex, nicOffset_toNat, BitVec.toNat_ofNat]
  omega

/-- The lane of a lane's offset. -/
theorem nicLane_nicOffset (idx : BitVec 15) (k : BitVec 2) : nicLane (nicOffset idx k) = k := by
  apply BitVec.eq_of_toNat_eq
  have h2 := k.isLt
  rw [nicLane, nicOffset_toNat, BitVec.toNat_ofNat]
  omega

/-- An offset inside the window is the offset of its register's lane (R93). -/
theorem nicOffset_eq (off : Quad) (h : off.toNat < nicWindow) : nicOffset (nicIndex off) (nicLane off) = off := by
  apply BitVec.eq_of_toNat_eq
  rw [nicWindow] at h
  rw [nicOffset_toNat, nicIndex, nicLane, BitVec.toNat_ofNat, BitVec.toNat_ofNat]
  omega

/-- A register write's request decodes as a write of that register. -/
theorem decode_putReg (p : Params) (t : PicSteps) (idx : BitVec 15) (k : BitVec 2) (w : NicWidth) (v : Dword) :
    decode p t (putReg idx k w v) = .ok (decodeNicWrite p.nicMap idx k w v) := by
  have hv : (v.setWidth 64).setWidth 32 = v := by
    apply BitVec.eq_of_toNat_eq; simp
  simp [decode, putReg, decodeMmioWrite, nicOffset_lt, nicIndex_nicOffset, nicLane_nicOffset, hv]

end Sys2Proof
end

