-- ==== Sys2Proof/Laws/Delivery.lean ====
section
/-! SUPPORT. The delivery pipeline and the linear reads of the resolvers. -/

namespace Sys2Proof.Machine

variable {E : Type}

/-! ### The pending mask -/

@[simp] theorem Dp.setWord_shadow (d : Dp) (k : Nat) (x : Quad) : (d.setWord k x).shadow = d.shadow := by
  unfold Dp.setWord; split <;> rfl

@[simp] theorem Dp.setWord_handling (d : Dp) (k : Nat) (x : Quad) : (d.setWord k x).handling = d.handling := by
  unfold Dp.setWord; split <;> rfl

/-- A mask word read after a mask word written (R38). -/
theorem Dp.word_setWord (d : Dp) (k j : Nat) (x : Quad) (hk : k < 4) (hj : j < 4) :
    (d.setWord k x).word j = if j = k then x else d.word j := by
  match k, hk, j, hj with
  | 0, _, 0, _ | 0, _, 1, _ | 0, _, 2, _ | 0, _, 3, _ | 1, _, 0, _ | 1, _, 1, _ | 1, _, 2, _ | 1, _, 3, _
  | 2, _, 0, _ | 2, _, 1, _ | 2, _, 2, _ | 2, _, 3, _ | 3, _, 0, _ | 3, _, 1, _ | 3, _, 2, _ | 3, _, 3, _ => rfl

/-- One vector's bit is written and no other (R352, R354). -/
theorem Dp.isPending_mark (d : Dp) (v : Byte) (b : Bool) (u : Nat) (hu : u < 256) :
    (d.mark v b).isPending u = if u = v.toNat then b else d.isPending u := by
  have hv := v.isLt
  rw [Dp.isPending, Dp.mark, Dp.word_setWord _ _ _ _ (by omega) (by omega), Dp.isPending]
  by_cases hk : u / 64 = v.toNat / 64
  · rw [if_pos hk, getLsbD_withBit _ _ _ _ (by omega), hk]
    by_cases hm : u % 64 = v.toNat % 64
    · rw [if_pos hm, if_pos (by omega)]
    · rw [if_neg hm, if_neg (by omega)]
  · rw [if_neg hk, if_neg (by omega)]

/-- What sampling answers (R360). -/
theorem Dp.sample_eq_some (d : Dp) (flags : Quad) (v : Byte) :
    d.sample flags = some v ↔ d.shadow = false ∧ flags.getLsbD 9 = true ∧ d.isPending v.toNat = true
      ∧ ∀ u, u < v.toNat → d.isPending u = false := by
  have hv := v.isLt
  unfold Dp.sample interruptEnable
  cases d.shadow
  · cases hf : flags.getLsbD 9
    · simp
    · simp only [Bool.false_eq_true, if_false, if_true, Option.map_eq_some_iff, true_and]
      constructor
      · rintro ⟨n, hn, e⟩
        obtain ⟨h1, h2, h3⟩ := (find_range_some _ _ _).1 hn
        have e' : n = v.toNat := by rw [← e, BitVec.toNat_ofNat]; omega
        subst e'
        exact ⟨h2, h3⟩
      · rintro ⟨h2, h3⟩
        exact ⟨v.toNat, (find_range_some _ _ _).2 ⟨hv, h2, h3⟩, by simp⟩
  · simp

/-! ### Linear reads -/

/-- A linear read, one byte first (R70). -/
theorem linBytes_succ (p : Params) (g : GuestMem E) (mode : ExecMode) (tc : TransCtx) (la : Quad) (n : Nat) :
    linBytes p g mode tc la (n + 1) =
      match linearToPhysical p g mode tc (wrapLinear mode la) with
      | .error e => .error e
      | .ok pa =>
        match g.failure pa.toNat 1 with
        | some e => .error (.memError e)
        | none =>
          match linBytes p g mode tc (la + 1) n with
          | .error e => .error e
          | .ok rest => .ok ((g.cells.byte pa.toNat).toNat + 256 * rest) := by
  rw [linBytes]
  cases linearToPhysical p g mode tc (wrapLinear mode la) with
  | error e => rfl
  | ok pa =>
    simp only [memRead, bind, Except.bind]
    cases g.failure pa.toNat 1 with
    | some e => rfl
    | none => cases linBytes p g mode tc (la + 1) n <;> simp [Memory.readLE]

/-- A linear address wrapped to the mode's width, as a number (D69). -/
theorem wrapLinear_eq (mode : ExecMode) (la : Quad) :
    wrapLinear mode la = if mode = .long then la else BitVec.ofNat 64 (la.toNat % 2 ^ 32) := by
  have h : slice la 0 32 = BitVec.ofNat 64 (la.toNat % 2 ^ 32) := by
    apply BitVec.eq_of_toNat_eq
    simp [slice]
  cases mode <;> simp [wrapLinear, h]

/-- When a resolver's byte is translated: never in real mode, else with paging on, as a supervisor read (R70). -/
theorem linearToPhysical_eq (p : Params) (g : GuestMem E) (mode : ExecMode) (tc : TransCtx) (la : Quad) :
    linearToPhysical p g mode tc la =
      if mode = .real ∨ tc.paging = false then .ok la else translate p g la .read 0 tc.cfg tc.cr3 := by
  cases mode <;> cases h : tc.paging <;> simp [linearToPhysical, h]

/-- The address of a vector's entry, as a number (R370, R375, R380). -/
theorem gateAddr_eq (mode : ExecMode) (base : Quad) (v : Byte) (size : Nat) :
    gateAddr mode base v size =
      if mode = .long then base + BitVec.ofNat 64 (size * v.toNat)
      else BitVec.ofNat 64 ((base.toNat + size * v.toNat) % 2 ^ 32) := by
  rw [gateAddr, wrapLinear_eq, Nat.mul_comm]
  split
  · rfl
  · apply BitVec.eq_of_toNat_eq
    simp

/-- A field of a descriptor, as a number (R10). -/
theorem extract_eq (q : Quad) (lo len : Nat) : q.extractLsb' lo len = BitVec.ofNat len (q.toNat / 2 ^ lo) := by
  apply BitVec.eq_of_toNat_eq
  simp [BitVec.extractLsb'_toNat, Nat.shiftRight_eq_div_pow]

/-- A gate's type nibble, as a number (R142, R144). -/
theorem gateType_eq (q : Quad) (n : Nat) (hn : n < 16) :
    gateType q = BitVec.ofNat 4 n ↔ q.toNat / 2 ^ 40 % 16 = n := by
  have h : (gateType q).toNat = q.toNat / 2 ^ 40 % 16 := by
    simp [gateType, BitVec.extractLsb'_toNat, Nat.shiftRight_eq_div_pow]
  rw [← h]
  constructor
  · intro e; rw [e]; simp; omega
  · intro e; apply BitVec.eq_of_toNat_eq; simp; omega

/-- The real-mode target of four bytes (R141). -/
theorem realTargetOf_bytes (b0 b1 b2 b3 : Nat) (h0 : b0 < 256) (h1 : b1 < 256) :
    realTargetOf ((BitVec.ofNat 64 (b0 + 256 * b1 + 65536 * b2 + 16777216 * b3)).setWidth 32)
      = { segment := BitVec.ofNat 16 (b2 + 256 * b3), offset := BitVec.ofNat 16 (b0 + 256 * b1) } := by
  unfold realTargetOf
  rw [RealTarget.mk.injEq]
  constructor
  · apply BitVec.eq_of_toNat_eq
    simp only [BitVec.extractLsb'_toNat, BitVec.toNat_setWidth, BitVec.toNat_ofNat, Nat.shiftRight_eq_div_pow]
    omega
  · apply BitVec.eq_of_toNat_eq
    simp only [BitVec.extractLsb'_toNat, BitVec.toNat_setWidth, BitVec.toNat_ofNat, Nat.shiftRight_eq_div_pow]
    omega

end Sys2Proof.Machine
end

