-- ==== Sys2Proof/Laws/Nic.lean ====
section
/-! SUPPORT. The NIC: lanes bit by bit, the register file read back, and that each operation keeps `NicOk`. -/

namespace Sys2Proof.Machine

/-! ### Lanes -/

/-- The covered lanes, bit by bit: the bytes from lane k on, inside the dword (R303). -/
theorem nicMask_bit (k : BitVec 2) (w : NicWidth) (b : Nat) (hb : b < 32) :
    (nicMask k w).getLsbD b = decide (8 * k.toNat ≤ b ∧ b < 8 * (k.toNat + w.bytes)) := by
  have h : ∀ k : BitVec 2, ∀ b : Fin 32,
      (nicMask k w).getLsbD b.val = decide (8 * k.toNat ≤ b.val ∧ b.val < 8 * (k.toNat + w.bytes)) := by
    cases w <;> decide
  exact h k ⟨b, hb⟩

/-- A written value in its lanes, bit by bit (R303). -/
theorem nicLaneValue_bit (k : BitVec 2) (w : NicWidth) (v : Dword) (b : Nat) (hb : b < 32) :
    (nicLaneValue k w v).getLsbD b
      = (decide (8 * k.toNat ≤ b ∧ b < 8 * (k.toNat + w.bytes)) && v.getLsbD (b - 8 * k.toNat)) := by
  rw [nicLaneValue, BitVec.getLsbD_and, nicMask_bit k w b hb, BitVec.getLsbD_shiftLeft]
  by_cases h : 8 * k.toNat ≤ b
  · have h' : ¬ b < 8 * k.toNat := by omega
    simp [hb, h, h', Bool.and_comm]
  · simp [h]

/-- A merged dword, bit by bit: the covered lanes are the value's, the others the register's (R303). -/
theorem nicMerged_bit (old : Dword) (k : BitVec 2) (w : NicWidth) (v : Dword) (b : Nat) (hb : b < 32) :
    (nicMerged old k w v).getLsbD b
      = if 8 * k.toNat ≤ b ∧ b < 8 * (k.toNat + w.bytes) then v.getLsbD (b - 8 * k.toNat) else old.getLsbD b := by
  rw [nicMerged, BitVec.getLsbD_or, nicLaneValue_bit k w v b hb, BitVec.getLsbD_and, BitVec.getLsbD_not,
    nicMask_bit k w b hb]
  by_cases h : 8 * k.toNat ≤ b ∧ b < 8 * (k.toNat + w.bytes) <;> simp [h, hb]

/-- A dword that has the merged dword's bits is the merged dword. -/
theorem nicMerged_eq (old merged : Dword) (k : BitVec 2) (w : NicWidth) (v : Dword)
    (h : ∀ b, b < 32 → merged.getLsbD b
      = if 8 * k.toNat ≤ b ∧ b < 8 * (k.toNat + w.bytes) then v.getLsbD (b - 8 * k.toNat) else old.getLsbD b) :
    nicMerged old k w v = merged :=
  BitVec.eq_of_getLsbD_eq fun b hb => by rw [nicMerged_bit old k w v b hb, h b hb]

/-- A dword that has the lane value's bits is the lane value. -/
theorem nicLaneValue_eq (lane : Dword) (k : BitVec 2) (w : NicWidth) (v : Dword)
    (h : ∀ b, b < 32 → lane.getLsbD b
      = (decide (8 * k.toNat ≤ b ∧ b < 8 * (k.toNat + w.bytes)) && v.getLsbD (b - 8 * k.toNat))) :
    nicLaneValue k w v = lane :=
  BitVec.eq_of_getLsbD_eq fun b hb => by rw [nicLaneValue_bit k w v b hb, h b hb]

/-- What a read of the covered lanes returns, as a number (R303, R305). -/
theorem nicExtract_eq (reg : Dword) (k : BitVec 2) (w : NicWidth) :
    nicExtract reg k w = BitVec.ofNat 32 (reg.toNat / 2 ^ (8 * k.toNat) % 2 ^ (8 * min w.bytes (4 - k.toNat))) := by
  have hk := k.isLt
  have hw : 1 ≤ w.bytes ∧ w.bytes ≤ 4 := by cases w <;> decide
  apply BitVec.eq_of_getLsbD_eq
  intro b hb
  rw [nicExtract, BitVec.getLsbD_ushiftRight, BitVec.getLsbD_and, BitVec.getLsbD_ofNat, Nat.testBit_mod_two_pow,
    Nat.testBit_div_two_pow, ← BitVec.testBit_toNat]
  by_cases h32 : 8 * k.toNat + b < 32
  · rw [nicMask_bit k w _ h32, Nat.add_comm b]
    have e : decide (8 * k.toNat ≤ 8 * k.toNat + b ∧ 8 * k.toNat + b < 8 * (k.toNat + w.bytes))
        = decide (b < 8 * min w.bytes (4 - k.toNat)) := decide_eq_decide.2 (by omega)
    rw [e, decide_eq_true hb, Bool.true_and, Bool.and_comm]
  · have hge : reg.toNat.testBit (8 * k.toNat + b) = false :=
      Nat.testBit_lt_two_pow (Nat.lt_of_lt_of_le reg.isLt (Nat.pow_le_pow_right (by omega) (by omega)))
    rw [Nat.add_comm b, hge]
    simp

/-! ### The register file -/

/-- A register read after a write of any register (R34). -/
theorem Nic.reg_setReg (n : Nic) (i j : BitVec 15) (v : Dword) (h : Cells.wf 32768 0 n.regs = true) :
    (n.setReg i v).reg j = if j = i then v else n.reg j := by
  by_cases hj : j = i
  · subst hj
    rw [if_pos rfl]
    exact Cells.get_set_same 32768 _ v n.regs 0 h
  · rw [if_neg hj]
    exact Cells.get_set_other _ _ v (fun e => hj (BitVec.eq_of_toNat_eq e)) n.regs

/-- A register write keeps the file canonical. -/
theorem Nic.setReg_wf (n : Nic) (i : BitVec 15) (v : Dword) (h : Cells.wf 32768 0 n.regs = true) :
    Cells.wf 32768 0 (n.setReg i v).regs = true :=
  Cells.set_wf 32768 _ v i.isLt n.regs 0 (Nat.zero_le _) h

/-- The registers after the reset procedure (R311). -/
theorem Nic.reg_reset (n : Nic) (r : NicMap) (j : BitVec 15) :
    (n.reset r).reg j = if j = r.status ∨ j = r.ral0 ∨ j = r.rah0 then n.reg j else 0 := by
  have e : (n.reset r).reg j
      = if (j.toNat == r.status.toNat || j.toNat == r.ral0.toNat || j.toNat == r.rah0.toNat) then n.reg j else 0#32 :=
    Cells.get_keep _ _ n.regs
  rw [e]
  simp only [Bool.or_eq_true, beq_iff_eq, BitVec.toNat_inj, or_assoc]
  rfl

/-- What a register write keeps of a good NIC: a register other than ICS, IMC and STATUS. -/
theorem NicOk.setReg {p : Params} {n : Nic} (h : NicOk p n) (i : BitVec 15) (v : Dword) (hs : i ≠ p.nicMap.status)
    (hc : i ≠ p.nicMap.ics) (hm : i ≠ p.nicMap.imc) : NicOk p (n.setReg i v) where
  regs := n.setReg_wf i v h.regs
  ics := by rw [n.reg_setReg _ _ _ h.regs, if_neg (Ne.symm hc), h.ics]
  imc := by rw [n.reg_setReg _ _ _ h.regs, if_neg (Ne.symm hm), h.imc]
  status := by rw [n.reg_setReg _ _ _ h.regs, if_neg (Ne.symm hs), h.status]
  eeprom := h.eeprom

/-- A change of the queues keeps a good NIC. -/
theorem NicOk.queues {p : Params} {n : Nic} (h : NicOk p n) (rx tx : List Frame) :
    NicOk p { n with rx := rx, tx := tx } :=
  ⟨h.regs, h.ics, h.imc, h.status, h.eeprom⟩

/-- The distinctness of the named registers, pair by pair (R120). -/
theorem nicMap_distinct (r : NicMap) (h : r.indexes.Nodup) :
    (r.ctrl ≠ r.status ∧ r.ctrl ≠ r.ics ∧ r.ctrl ≠ r.imc)
    ∧ (r.eerd ≠ r.status ∧ r.eerd ≠ r.ics ∧ r.eerd ≠ r.imc)
    ∧ (r.icr ≠ r.status ∧ r.icr ≠ r.ics ∧ r.icr ≠ r.imc)
    ∧ (r.ims ≠ r.status ∧ r.ims ≠ r.ics ∧ r.ims ≠ r.imc)
    ∧ (r.ics ≠ r.status ∧ r.ics ≠ r.ral0 ∧ r.ics ≠ r.rah0)
    ∧ (r.imc ≠ r.status ∧ r.imc ≠ r.ral0 ∧ r.imc ≠ r.rah0)
    ∧ (r.status ≠ r.ral0 ∧ r.status ≠ r.rah0 ∧ r.ral0 ≠ r.rah0) := by
  simp only [NicMap.indexes, List.nodup_cons, List.mem_cons, List.not_mem_nil, or_false, not_or] at h
  obtain ⟨⟨a1, a2, a3, a4, a5, a6, a7, a8⟩, ⟨b2, b3, b4, b5, b6, b7, b8⟩, ⟨c3, c4, c5, c6, c7, c8⟩,
    ⟨d4, d5, d6, d7, d8⟩, ⟨e5, e6, e7, e8⟩, ⟨f6, f7, f8⟩, ⟨g7, g8⟩, i8, -⟩ := h
  exact ⟨⟨a1, a4, a6⟩, ⟨Ne.symm b2, c4, c6⟩, ⟨Ne.symm b3, d4, d6⟩, ⟨Ne.symm b5, Ne.symm e5, f6⟩,
    ⟨Ne.symm b4, e7, e8⟩, ⟨Ne.symm b6, g7, g8⟩, ⟨b7, b8, i8⟩⟩

/-- The reset procedure keeps a good NIC (R311). -/
theorem NicOk.reset {p : Params} {n : Nic} (h : NicOk p n) (hd : p.nicMap.indexes.Nodup) : NicOk p (n.reset p.nicMap) := by
  obtain ⟨-, -, -, -, ⟨c1, c2, c3⟩, ⟨m1, m2, m3⟩, -⟩ := nicMap_distinct p.nicMap hd
  exact ⟨Cells.keep_wf 32768 _ n.regs 0 h.regs, by rw [Nic.reg_reset, if_neg (by simp [c1, c2, c3])],
    by rw [Nic.reg_reset, if_neg (by simp [m1, m2, m3])], by rw [Nic.reg_reset, if_pos (.inl rfl), h.status], h.eeprom⟩

/-- The NIC at power-on, register by register (R37). -/
theorem Nic.reg_powerOn (p : Params) (mac : Mac) (eeprom : List Half) (hd : p.nicMap.indexes.Nodup) (j : BitVec 15) :
    (Nic.powerOn p mac eeprom).reg j =
      if j = p.nicMap.status then p.nicStatus
      else if j = p.nicMap.ral0 then mac.ral
      else if j = p.nicMap.rah0 then mac.rah p.nicRahAv
      else 0 := by
  obtain ⟨-, -, -, -, -, -, ⟨s1, s2, s3⟩⟩ := nicMap_distinct p.nicMap hd
  let n0 : Nic := { regs := [], mac := mac, eeprom := eeprom, rx := [], tx := [] }
  have e : Nic.powerOn p mac eeprom
      = ((n0.setReg p.nicMap.status p.nicStatus).setReg p.nicMap.ral0 mac.ral).setReg p.nicMap.rah0
          (mac.rah p.nicRahAv) := rfl
  have w0 : Cells.wf 32768 0 n0.regs = true := rfl
  have w1 := Nic.setReg_wf _ p.nicMap.status p.nicStatus w0
  have w2 := Nic.setReg_wf _ p.nicMap.ral0 mac.ral w1
  rw [e, Nic.reg_setReg _ _ _ _ w2, Nic.reg_setReg _ _ _ _ w1, Nic.reg_setReg _ _ _ _ w0,
    show n0.reg j = 0 from rfl]
  by_cases h1 : j = p.nicMap.status
  · subst h1; simp [s1, s2]
  · by_cases h2 : j = p.nicMap.ral0
    · subst h2; simp [h1, s3]
    · simp [h1, h2]

/-- The NIC at power-on is good (R37). -/
theorem NicOk.powerOn (p : Params) (mac : Mac) (eeprom : List Half) (hd : p.nicMap.indexes.Nodup)
    (he : eeprom.length = 64) : NicOk p (Nic.powerOn p mac eeprom) := by
  obtain ⟨-, -, -, -, ⟨c1, c2, c3⟩, ⟨m1, m2, m3⟩, -⟩ := nicMap_distinct p.nicMap hd
  refine ⟨?_, by rw [Nic.reg_powerOn _ _ _ hd]; simp [c1, c2, c3], by rw [Nic.reg_powerOn _ _ _ hd]; simp [m1, m2, m3],
    by rw [Nic.reg_powerOn _ _ _ hd, if_pos rfl], he⟩
  let n0 : Nic := { regs := [], mac := mac, eeprom := eeprom, rx := [], tx := [] }
  exact Nic.setReg_wf _ _ _ (Nic.setReg_wf _ _ _ (Nic.setReg_wf n0 _ _ rfl))

/-! ### Each operation keeps a good NIC -/

theorem NicOk.ctrlWrite {p : Params} {n : Nic} (h : NicOk p n) (hd : p.nicMap.indexes.Nodup) (x : Dword) :
    NicOk p (n.ctrlWrite p.nicMap x) := by
  obtain ⟨⟨a, b, c⟩, -⟩ := nicMap_distinct p.nicMap hd
  unfold Nic.ctrlWrite
  split
  · exact h.reset hd
  · exact h.setReg _ _ a b c

theorem NicOk.eerdWrite {p : Params} {n : Nic} (h : NicOk p n) (hd : p.nicMap.indexes.Nodup) (x : Dword) :
    NicOk p (n.eerdWrite p.nicMap x) := by
  obtain ⟨-, ⟨a, b, c⟩, -⟩ := nicMap_distinct p.nicMap hd
  unfold Nic.eerdWrite
  split <;> exact h.setReg _ _ a b c

theorem NicOk.icr {p : Params} {n : Nic} (h : NicOk p n) (hd : p.nicMap.indexes.Nodup) (x : Dword) :
    NicOk p (n.setReg p.nicMap.icr x) := by
  obtain ⟨-, -, ⟨a, b, c⟩, -⟩ := nicMap_distinct p.nicMap hd
  exact h.setReg _ _ a b c

theorem NicOk.ims {p : Params} {n : Nic} (h : NicOk p n) (hd : p.nicMap.indexes.Nodup) (x : Dword) :
    NicOk p (n.setReg p.nicMap.ims x) := by
  obtain ⟨-, -, -, ⟨a, b, c⟩, -⟩ := nicMap_distinct p.nicMap hd
  exact h.setReg _ _ a b c

/-- A plain register is none of the registers with a side effect (R306, R321). -/
theorem NicOk.plain {p : Params} {n : Nic} (h : NicOk p n) (idx : BitVec 15) (x : Dword)
    (hi : idx ∉ p.nicMap.sideEffecting) : NicOk p (n.setReg idx x) := by
  simp only [NicMap.sideEffecting, List.mem_cons, List.not_mem_nil, or_false, not_or] at hi
  exact h.setReg _ _ hi.2.1 hi.2.2.2.2.1 hi.2.2.2.2.2.2

theorem NicOk.store {p : Params} {n : Nic} (h : NicOk p n) (hd : p.nicMap.indexes.Nodup) (idx : BitVec 15)
    (k : BitVec 2) (w : NicWidth) (v : Dword) : NicOk p (n.store p.nicMap idx k w v) := by
  unfold Nic.store
  split; · exact h.ctrlWrite hd _
  split; · exact h
  split; · exact h.eerdWrite hd _
  split; · exact h.icr hd _
  split; · exact h.icr hd _
  split; · exact h.ims hd _
  split; · exact h.ims hd _
  exact h.plain idx _ (by simp only [NicMap.sideEffecting, List.mem_cons, List.not_mem_nil, or_false, not_or]; tauto)

theorem NicOk.afterRead {p : Params} {n : Nic} (h : NicOk p n) (hd : p.nicMap.indexes.Nodup) (idx : BitVec 15) :
    NicOk p (n.afterRead p.nicMap idx) := by
  unfold Nic.afterRead
  split
  · next e => rw [e]; exact h.icr hd _
  · exact h

theorem NicOk.receive {p : Params} {n : Nic} (h : NicOk p n) (hd : p.nicMap.indexes.Nodup) (f : Frame) :
    NicOk p (n.receive p.nicMap f) :=
  (h.queues (n.rx ++ [f]) n.tx).icr hd _

end Sys2Proof.Machine
end

