-- ==== Sys2Proof/Laws/PerInstr.lean ====
section
/-! SUPPORT. Decode and encode agree, one lemma for each operation of the table. -/

namespace Sys2Proof

theorem decodeCommand_picIcw1 (p : Params) (c : Chip) (v : Byte) (h : (Instr.picIcw1 c v).wf p = true) :
    decodeCommand c v = .picIcw1 c v := by
  revert h
  simp only [Instr.wf, decodeCommand]
  revert v
  cases c <;> decide

theorem decodeCommand_picOcw2Nseoi (p : Params) (c : Chip) (v : Byte) (h : (Instr.picOcw2Nseoi c v).wf p = true) :
    decodeCommand c v = .picOcw2Nseoi c v := by
  revert h
  simp only [Instr.wf, decodeCommand]
  revert v
  cases c <;> decide

theorem decodeCommand_picOcw2Seoi (p : Params) (c : Chip) (v : Byte) (h : (Instr.picOcw2Seoi c v).wf p = true) :
    decodeCommand c v = .picOcw2Seoi c v := by
  revert h
  simp only [Instr.wf, decodeCommand]
  revert v
  cases c <;> decide

theorem decodeCommand_picOcw2Other (p : Params) (c : Chip) (v : Byte) (h : (Instr.picOcw2Other c v).wf p = true) :
    decodeCommand c v = .picOcw2Other c v := by
  revert h
  simp only [Instr.wf, decodeCommand]
  revert v
  cases c <;> decide

theorem decodeCommand_picOcw3Rr (p : Params) (c : Chip) (v : Byte) (h : (Instr.picOcw3Rr c v).wf p = true) :
    decodeCommand c v = .picOcw3Rr c v := by
  revert h
  simp only [Instr.wf, decodeCommand]
  revert v
  cases c <;> decide

theorem decodeCommand_picOcw3Norr (p : Params) (c : Chip) (v : Byte) (h : (Instr.picOcw3Norr c v).wf p = true) :
    decodeCommand c v = .picOcw3Norr c v := by
  revert h
  simp only [Instr.wf, decodeCommand]
  revert v
  cases c <;> decide

/-- The registers with a side effect, each by its index (R306). -/
theorem decodeNicWrite_named (p : Params) (h : p.WellFormed) (k : BitVec 2) (w : NicWidth) (v : Dword) :
    decodeNicWrite p.nicMap p.nicMap.ctrl k w v = .nicCtrlW k w v
    ∧ decodeNicWrite p.nicMap p.nicMap.status k w v = .nicStatusW k w v
    ∧ decodeNicWrite p.nicMap p.nicMap.eerd k w v = .nicEerdW k w v
    ∧ decodeNicWrite p.nicMap p.nicMap.icr k w v = .nicIcrW k w v
    ∧ decodeNicWrite p.nicMap p.nicMap.ics k w v = .nicIcsW k w v
    ∧ decodeNicWrite p.nicMap p.nicMap.ims k w v = .nicImsW k w v
    ∧ decodeNicWrite p.nicMap p.nicMap.imc k w v = .nicImcW k w v := by
  obtain ⟨-, h⟩ := h
  simp only [NicMap.indexes, List.nodup_cons, List.mem_cons, List.not_mem_nil, or_false, not_or] at h
  obtain ⟨⟨a1, a2, a3, a4, a5, a6, -⟩, ⟨b2, b3, b4, b5, b6, -⟩, ⟨c3, c4, c5, c6, -⟩, ⟨d4, d5, d6, -⟩,
    ⟨e5, e6, -⟩, ⟨f6, -⟩, -⟩ := h
  simp only [decodeNicWrite, Ne.symm a1, Ne.symm a2, Ne.symm a3, Ne.symm a4, Ne.symm a5, Ne.symm a6, Ne.symm b2,
    Ne.symm b3, Ne.symm b4, Ne.symm b5, Ne.symm b6, Ne.symm c3, Ne.symm c4, Ne.symm c5, Ne.symm c6, Ne.symm d4,
    Ne.symm d5, Ne.symm d6, Ne.symm e5, Ne.symm e6, Ne.symm f6, if_true, if_false, and_self]

/-- Every other register's write is plain (R321). -/
theorem decodeNicWrite_plain (p : Params) (idx : BitVec 15) (k : BitVec 2) (w : NicWidth) (v : Dword)
    (h : (Instr.nicPlainW idx k w v).wf p = true) : decodeNicWrite p.nicMap idx k w v = .nicPlainW idx k w v := by
  simp [Instr.wf, NicMap.sideEffecting] at h
  obtain ⟨h0, h1, h2, h3, h4, h5, h6⟩ := h
  simp only [decodeNicWrite, h0, h1, h2, h3, h4, h5, h6, if_false]

end Sys2Proof

namespace Sys2Proof.Laws.RoundTrip

/-- Decoding what the encoder gives is the operation, in every legal configuration and every step its row allows. -/
def Statement (i : Instr) : Prop :=
  ∀ (p : Params) (t : PicSteps), p.WellFormed → i.wf p = true → i.atStep t = true →
    decode p t (encode p i) = .ok i

theorem translate (la : Quad) (kind : AccessKind) (cpl : BitVec 2) (cfg : TransCfg) (cr3 : Quad) :
    Statement (.translate la kind cpl cfg cr3) := by
  intro _ _ _ _ _
  rfl

theorem picIcw1 (c : Chip) (v : Byte) : Statement (.picIcw1 c v) := by
  intro p t h hw _
  rw [encode, decode_putByte p t h _ (portNumber_picCmd p c)]
  exact congrArg Except.ok (decodeCommand_picIcw1 p c v hw)

theorem picIcw2 (c : Chip) (v : Byte) : Statement (.picIcw2 c v) := by
  intro p t h _ hs
  rw [encode, decode_putByte p t h _ (portNumber_picData p c), decodePortWrite, beq_iff_eq.1 hs]
  rfl

theorem picIcw3 (c : Chip) (v : Byte) : Statement (.picIcw3 c v) := by
  intro p t h _ hs
  rw [encode, decode_putByte p t h _ (portNumber_picData p c), decodePortWrite, beq_iff_eq.1 hs]
  rfl

theorem picIcw4 (c : Chip) (v : Byte) : Statement (.picIcw4 c v) := by
  intro p t h _ hs
  rw [encode, decode_putByte p t h _ (portNumber_picData p c), decodePortWrite, beq_iff_eq.1 hs]
  rfl

theorem picOcw1 (c : Chip) (v : Byte) : Statement (.picOcw1 c v) := by
  intro p t h _ hs
  rw [encode, decode_putByte p t h _ (portNumber_picData p c), decodePortWrite, beq_iff_eq.1 hs]
  rfl

theorem picOcw2Nseoi (c : Chip) (v : Byte) : Statement (.picOcw2Nseoi c v) := by
  intro p t h hw _
  rw [encode, decode_putByte p t h _ (portNumber_picCmd p c)]
  exact congrArg Except.ok (decodeCommand_picOcw2Nseoi p c v hw)

theorem picOcw2Seoi (c : Chip) (v : Byte) : Statement (.picOcw2Seoi c v) := by
  intro p t h hw _
  rw [encode, decode_putByte p t h _ (portNumber_picCmd p c)]
  exact congrArg Except.ok (decodeCommand_picOcw2Seoi p c v hw)

theorem picOcw2Other (c : Chip) (v : Byte) : Statement (.picOcw2Other c v) := by
  intro p t h hw _
  rw [encode, decode_putByte p t h _ (portNumber_picCmd p c)]
  exact congrArg Except.ok (decodeCommand_picOcw2Other p c v hw)

theorem picOcw3Rr (c : Chip) (v : Byte) : Statement (.picOcw3Rr c v) := by
  intro p t h hw _
  rw [encode, decode_putByte p t h _ (portNumber_picCmd p c)]
  exact congrArg Except.ok (decodeCommand_picOcw3Rr p c v hw)

theorem picOcw3Norr (c : Chip) (v : Byte) : Statement (.picOcw3Norr c v) := by
  intro p t h hw _
  rw [encode, decode_putByte p t h _ (portNumber_picCmd p c)]
  exact congrArg Except.ok (decodeCommand_picOcw3Norr p c v hw)

theorem picReadCmd (c : Chip) : Statement (.picReadCmd c) := by
  intro p t h _ _
  rw [encode, decode_getByte p t h _ (portNumber_picCmd p c)]
  rfl

theorem picReadData (c : Chip) : Statement (.picReadData c) := by
  intro p t h _ _
  rw [encode, decode_getByte p t h _ (portNumber_picData p c)]
  rfl

theorem picRaise (n : Nat) : Statement (.picRaise n) := by
  intro _ _ _ _ _
  rfl

theorem picLower (n : Nat) : Statement (.picLower n) := by
  intro _ _ _ _ _
  rfl

theorem picResolve : Statement .picResolve := by
  intro _ _ _ _ _
  rfl

theorem picAck (n : Nat) : Statement (.picAck n) := by
  intro _ _ _ _ _
  rfl

theorem pitCtrlMode (c : PitChan) (rw : PitAccess) (m : BitVec 3) (bcd : Bool) :
    Statement (.pitCtrlMode c rw m bcd) := by
  intro p t h hw _
  rw [encode, decode_putByte p t h _ ((portNumber_pitCtrl p).1 hw), decodePortWrite, decodeControl_controlWord]

theorem pitCtrlLatch (c : PitChan) (low : BitVec 4) : Statement (.pitCtrlLatch c low) := by
  intro p t h hw _
  rw [encode, decode_putByte p t h _ ((portNumber_pitCtrl p).1 hw), decodePortWrite, decodeControl_latchWord]

theorem pitCtrlReadback (low : BitVec 6) : Statement (.pitCtrlReadback low) := by
  intro p t h hw _
  rw [encode, decode_putByte p t h _ ((portNumber_pitCtrl p).1 hw), decodePortWrite, decodeControl_readbackWord]

theorem pitCountWrite (c : PitChan) (v : Byte) : Statement (.pitCountWrite c v) := by
  intro p t h hw _
  rw [encode, decode_putByte p t h _ ((portNumber_pitCount p c).1 hw)]
  rfl

theorem pitCountRead (c : PitChan) : Statement (.pitCountRead c) := by
  intro p t h hw _
  rw [encode, decode_getByte p t h _ ((portNumber_pitCount p c).1 hw)]
  rfl

theorem pitCtrlRead : Statement .pitCtrlRead := by
  intro p t h hw _
  rw [encode, decode_getByte p t h _ ((portNumber_pitCtrl p).1 hw)]
  rfl

theorem pitTick : Statement .pitTick := by
  intro _ _ _ _ _
  rfl

theorem pitSetGate (c : Nat) (level : Bool) : Statement (.pitSetGate c level) := by
  intro _ _ _ _ _
  rfl

theorem nicRead (off : Quad) (w : Nat) : Statement (.nicRead off w) := by
  intro _ _ _ _ _
  rfl

theorem nicWrite (off : Quad) (w : Nat) (v : Quad) : Statement (.nicWrite off w v) := by
  intro _ _ _ _ _
  rfl

theorem nicCtrlW (k : BitVec 2) (w : NicWidth) (v : Dword) : Statement (.nicCtrlW k w v) := by
  intro p t h _ _
  rw [encode, decode_putReg, (decodeNicWrite_named p h k w v).1]

theorem nicStatusW (k : BitVec 2) (w : NicWidth) (v : Dword) : Statement (.nicStatusW k w v) := by
  intro p t h _ _
  rw [encode, decode_putReg, (decodeNicWrite_named p h k w v).2.1]

theorem nicEerdW (k : BitVec 2) (w : NicWidth) (v : Dword) : Statement (.nicEerdW k w v) := by
  intro p t h _ _
  rw [encode, decode_putReg, (decodeNicWrite_named p h k w v).2.2.1]

theorem nicIcrW (k : BitVec 2) (w : NicWidth) (v : Dword) : Statement (.nicIcrW k w v) := by
  intro p t h _ _
  rw [encode, decode_putReg, (decodeNicWrite_named p h k w v).2.2.2.1]

theorem nicIcsW (k : BitVec 2) (w : NicWidth) (v : Dword) : Statement (.nicIcsW k w v) := by
  intro p t h _ _
  rw [encode, decode_putReg, (decodeNicWrite_named p h k w v).2.2.2.2.1]

theorem nicImsW (k : BitVec 2) (w : NicWidth) (v : Dword) : Statement (.nicImsW k w v) := by
  intro p t h _ _
  rw [encode, decode_putReg, (decodeNicWrite_named p h k w v).2.2.2.2.2.1]

theorem nicImcW (k : BitVec 2) (w : NicWidth) (v : Dword) : Statement (.nicImcW k w v) := by
  intro p t h _ _
  rw [encode, decode_putReg, (decodeNicWrite_named p h k w v).2.2.2.2.2.2]

theorem nicIcrR (k : BitVec 2) (w : NicWidth) : Statement (.nicIcrR k w) := by
  intro p t _ _ _
  simp [encode, decode, decodeMmioRead, nicOffset_lt, nicIndex_nicOffset, nicLane_nicOffset]

theorem nicPlainW (idx : BitVec 15) (k : BitVec 2) (w : NicWidth) (v : Dword) : Statement (.nicPlainW idx k w v) := by
  intro p t _ hw _
  rw [encode, decode_putReg, decodeNicWrite_plain p idx k w v hw]

theorem nicReceive (f : Frame) : Statement (.nicReceive f) := by
  intro _ _ _ _ _
  rfl

theorem nicDrainTx : Statement .nicDrainTx := by
  intro _ _ _ _ _
  rfl

theorem nicQueueTx (f : Frame) : Statement (.nicQueueTx f) := by
  intro _ _ _ _ _
  rfl

theorem nicIrqLevel : Statement .nicIrqLevel := by
  intro _ _ _ _ _
  rfl

theorem dpRaise (v : Byte) : Statement (.dpRaise v) := by
  intro _ _ _ _ _
  rfl

theorem dpAck (v : Byte) : Statement (.dpAck v) := by
  intro _ _ _ _ _
  rfl

theorem dpSample (flags : Quad) : Statement (.dpSample flags) := by
  intro _ _ _ _ _
  rfl

theorem dpSetShadow (b : Bool) : Statement (.dpSetShadow b) := by
  intro _ _ _ _ _
  rfl

theorem dpSetHandling (b : Bool) : Statement (.dpSetHandling b) := by
  intro _ _ _ _ _
  rfl

theorem dpGetHandling : Statement .dpGetHandling := by
  intro _ _ _ _ _
  rfl

theorem dpResolveReal (v : Byte) (base : Quad) : Statement (.dpResolveReal v base) := by
  intro _ _ _ _ _
  rfl

theorem dpResolveProt (v : Byte) (base : Quad) (limit : Half) (tc : TransCtx) :
    Statement (.dpResolveProt v base limit tc) := by
  intro _ _ _ _ _
  rfl

theorem dpResolveLong (v : Byte) (base : Quad) (limit : Half) (tc : TransCtx) :
    Statement (.dpResolveLong v base limit tc) := by
  intro _ _ _ _ _
  rfl

theorem dpResolve (mode : ExecMode) (v : Byte) (base : Quad) (limit : Half) (tc : TransCtx) :
    Statement (.dpResolve mode v base limit tc) := by
  intro _ _ _ _ _
  rfl

end Sys2Proof.Laws.RoundTrip
end

