-- ==== Sys2Proof/Laws/Pic.lean ====
section
/-! SUPPORT. The PIC pair: what each operation over the pair leaves, said once. -/

namespace Sys2Proof.Machine

/-! ### The cascade bit -/

@[simp] theorem Pic.cascadeSync_s (p : Pic) : p.cascadeSync.s = p.s := rfl
@[simp] theorem Pic.cascadeSync_m_isr (p : Pic) : p.cascadeSync.m.isr = p.m.isr := rfl
@[simp] theorem Pic.cascadeSync_m_imr (p : Pic) : p.cascadeSync.m.imr = p.m.imr := rfl

/-- `CASCADE_SYNC` changes the master's request register and nothing else (R201). -/
theorem Pic.cascadeSync_m (p : Pic) : p.cascadeSync.m = { p.m with irr := p.cascadeSync.m.irr } := rfl

/-- What `CASCADE_SYNC` leaves in each request bit of the master (R201). -/
theorem Pic.cascadeSync_irr (p : Pic) (k : Nat) :
    p.cascadeSync.m.irr.getLsbD k = if k = 2 then (p.s.irr &&& ~~~p.s.imr) != 0 else p.m.irr.getLsbD k :=
  getLsbD_withBit _ _ _ _ (by omega)

/-- A slave line is pending and unmasked, by bits. -/
theorem Pic.pending_eq_any (irr imr : Byte) :
    ((irr &&& ~~~imr) != 0) = (List.range 8).any (fun j => irr.getLsbD j && !imr.getLsbD j) := by
  show ((irr &&& ~~~imr) != 0#8) = _
  rw [ne_zero_eq_any, Bool.eq_iff_iff, List.any_eq_true, List.any_eq_true]
  refine exists_congr fun j => and_congr_right fun hj => ?_
  have hj := List.mem_range.1 hj
  simp [hj]

/-- `CASCADE_SYNC` establishes the cascade invariant. -/
theorem Pic.cascadeSync_inSync (p : Pic) : p.cascadeSync.CascadeInSync := by
  rw [Pic.CascadeInSync, Pic.cascadeSync_irr]
  rfl

/-- The invariant reads the master's request bit 2 and the slave's requests and masks, and nothing else. -/
theorem Pic.CascadeInSync.congr {p q : Pic} (h : p.CascadeInSync) (hm : q.m.irr.getLsbD 2 = p.m.irr.getLsbD 2)
    (hr : q.s.irr = p.s.irr) (hi : q.s.imr = p.s.imr) : q.CascadeInSync := by
  rw [Pic.CascadeInSync, hm, hr, hi]
  exact h

/-! ### Each operation keeps the cascade in step -/

theorem Pic.icw1_inSync (p : Pic) (c : Chip) (v : Byte) : (p.icw1 c v).CascadeInSync := Pic.cascadeSync_inSync _

theorem Pic.icw2_inSync (p : Pic) (mask : Byte) (c : Chip) (v : Byte) (h : p.CascadeInSync) :
    (p.icw2 mask c v).CascadeInSync := by cases c <;> exact h

theorem Pic.icw3_inSync (p : Pic) (c : Chip) (v : Byte) (h : p.CascadeInSync) : (p.icw3 c v).CascadeInSync := by
  cases c <;> exact h

theorem Pic.icw4_inSync (p : Pic) (c : Chip) (v : Byte) (h : p.CascadeInSync) : (p.icw4 c v).CascadeInSync := by
  cases c <;> exact h

theorem Pic.ocw1_inSync (p : Pic) (c : Chip) (v : Byte) (h : p.CascadeInSync) : (p.ocw1 c v).CascadeInSync := by
  cases c
  · exact h
  · exact Pic.cascadeSync_inSync _

theorem Pic.nseoi_inSync (p : Pic) (c : Chip) (h : p.CascadeInSync) : (p.nseoi c).CascadeInSync := by
  unfold Pic.nseoi
  split
  · exact h
  · cases c <;> exact h

theorem Pic.seoi_inSync (p : Pic) (c : Chip) (v : Byte) (h : p.CascadeInSync) : (p.seoi c v).CascadeInSync := by
  cases c <;> exact h

theorem Pic.selectRead_inSync (p : Pic) (c : Chip) (v : Byte) (h : p.CascadeInSync) :
    (p.selectRead c v).CascadeInSync := by cases c <;> exact h

theorem Pic.line_inSync (p : Pic) (n : Nat) (level : Bool) (hn : n ≠ 2) (h : p.CascadeInSync) :
    (p.line n level).CascadeInSync := by
  unfold Pic.line
  split
  · next hl => exact h.congr (by rw [getLsbD_withBit _ _ _ _ hl, if_neg (Ne.symm hn)]) rfl rfl
  · split
    · exact Pic.cascadeSync_inSync _
    · exact h

theorem Pic.ack_inSync (p : Pic) (n : Nat) (hn : n ≠ 2) (h : p.CascadeInSync) : (p.ack n).CascadeInSync := by
  unfold Pic.ack
  split
  · next hl =>
    exact h.congr (by rw [PicChip.accept, getLsbD_withBit _ _ _ _ hl, if_neg (Ne.symm hn)]) rfl rfl
  · split
    · exact Pic.cascadeSync_inSync _
    · exact h

/-! ### Lines -/

/-- A line of the master written (R225, R226). -/
theorem Pic.line_master (p : Pic) (n : Nat) (level : Bool) (hn : n < 8) :
    p.line n level = { m := { p.m with irr := withBit p.m.irr n level }, s := p.s } := by
  rw [Pic.line, if_pos hn]

/-- A line of the slave written (R225, R226). -/
theorem Pic.line_slave (p : Pic) (n : Nat) (level : Bool) (h8 : 8 ≤ n) (hn : n < 16) :
    p.line n level
      = ({ m := p.m, s := { p.s with irr := withBit p.s.irr (n - 8) level } } : Pic).cascadeSync := by
  rw [Pic.line, if_neg (by omega), if_pos hn]

/-- No line past 15 exists (D29). -/
theorem Pic.line_none (p : Pic) (n : Nat) (level : Bool) (hn : 16 ≤ n) : p.line n level = p := by
  rw [Pic.line, if_neg (by omega), if_neg (by omega)]

/-- A line of the master acknowledged (R230). -/
theorem Pic.ack_master (p : Pic) (n : Nat) (hn : n < 8) : p.ack n = { m := p.m.accept n, s := p.s } := by
  rw [Pic.ack, if_pos hn]

/-- A line of the slave acknowledged (R230). -/
theorem Pic.ack_slave (p : Pic) (n : Nat) (h8 : 8 ≤ n) (hn : n < 16) :
    p.ack n = ({ m := p.m.accept 2, s := p.s.accept (n - 8) } : Pic).cascadeSync := by
  rw [Pic.ack, if_neg (by omega), if_pos hn]

/-- No line past 15 exists (D29). -/
theorem Pic.ack_none (p : Pic) (n : Nat) (hn : 16 ≤ n) : p.ack n = p := by
  rw [Pic.ack, if_neg (by omega), if_neg (by omega)]

/-- The request bits after an acknowledgment (R230). -/
theorem PicChip.accept_irr (x : PicChip) (n k : Nat) (hn : n < 8) :
    (x.accept n).irr.getLsbD k = if k = n then false else x.irr.getLsbD k := getLsbD_withBit _ _ _ _ hn

/-- The in-service bits after an acknowledgment (R230). -/
theorem PicChip.accept_isr (x : PicChip) (n k : Nat) (hn : n < 8) :
    (x.accept n).isr.getLsbD k = if k = n then !x.autoEoi else x.isr.getLsbD k := getLsbD_withBit _ _ _ _ hn

/-! ### Resolution -/

/-- A chip's eligible lines, by bits (R228). -/
theorem PicChip.eligible_bit (x : PicChip) (n : Nat) (hn : n < 8) :
    x.eligible.getLsbD n = (x.irr.getLsbD n && !x.imr.getLsbD n && !x.isr.getLsbD n) := by
  simp [PicChip.eligible, hn]

/-- The lowest eligible line of a chip (R228). -/
theorem PicChip.lowest_eligible (x : PicChip) (n : Nat) :
    lowest x.eligible = some n ↔
      (n < 8 ∧ x.irr.getLsbD n = true ∧ x.imr.getLsbD n = false ∧ x.isr.getLsbD n = false)
      ∧ ∀ j, j < n → ¬ (j < 8 ∧ x.irr.getLsbD j = true ∧ x.imr.getLsbD j = false ∧ x.isr.getLsbD j = false) := by
  rw [lowest_eq_some]
  constructor
  · rintro ⟨hn, hb, hl⟩
    rw [PicChip.eligible_bit x n hn] at hb
    refine ⟨⟨hn, by simpa [and_assoc] using hb⟩, fun j hj hc => ?_⟩
    have := hl j hj
    rw [PicChip.eligible_bit x j (by omega)] at this
    simp [hc.2.1, hc.2.2.1, hc.2.2.2] at this
  · rintro ⟨⟨hn, h1, h2, h3⟩, hl⟩
    refine ⟨hn, by rw [PicChip.eligible_bit x n hn]; simp [h1, h2, h3], fun j hj => ?_⟩
    have := hl j hj
    rw [PicChip.eligible_bit x j (by omega)]
    by_contra hc
    simp at hc
    exact this ⟨by omega, hc.1, hc.2.1, hc.2.2⟩

/-- No line of a chip is eligible (R228). -/
theorem PicChip.lowest_eligible_none (x : PicChip) :
    lowest x.eligible = none ↔
      ∀ n, ¬ (n < 8 ∧ x.irr.getLsbD n = true ∧ x.imr.getLsbD n = false ∧ x.isr.getLsbD n = false) := by
  rw [lowest_eq_none]
  constructor
  · rintro h n ⟨hn, h1, h2, h3⟩
    have := h n hn
    rw [PicChip.eligible_bit x n hn] at this
    simp [h1, h2, h3] at this
  · intro h n hn
    rw [PicChip.eligible_bit x n hn]
    by_contra hc
    simp at hc
    exact h n ⟨hn, hc.1, hc.2.1, hc.2.2⟩

/-- Everything resolution can answer (R228, R229). -/
theorem Pic.resolve_eq (p : Pic) :
    (lowest p.m.eligible = none ∧ p.resolve = none)
    ∨ (∃ b, lowest p.m.eligible = some b ∧ b ≠ 2 ∧ p.resolve = some (b, p.m.vector b))
    ∨ (lowest p.m.eligible = some 2 ∧ lowest p.s.eligible = none ∧ p.resolve = none)
    ∨ (∃ k, lowest p.m.eligible = some 2 ∧ lowest p.s.eligible = some k
        ∧ p.resolve = some (8 + k, p.s.vector k)) := by
  unfold Pic.resolve
  cases hm : lowest p.m.eligible with
  | none => exact .inl ⟨rfl, rfl⟩
  | some b =>
    by_cases hb : b = 2
    · subst hb
      cases hs : lowest p.s.eligible with
      | none => exact .inr (.inr (.inl ⟨rfl, rfl, by simp⟩))
      | some k => exact .inr (.inr (.inr ⟨k, rfl, rfl, by simp⟩))
    · exact .inr (.inl ⟨b, rfl, hb, by simp [hb]⟩)

end Sys2Proof.Machine
end

