-- ==== Sys2Proof/Laws/Pit.lean ====
section
/-! SUPPORT. The interval timer: a clock of a channel, mode by mode, and runs of clocks. -/

namespace Sys2Proof.Machine

/-- A disabled or gate-low channel does not advance (R270). -/
theorem PitChannel.tick_off (ch : PitChannel) (h : ch.enabled = false ∨ ch.gate = false) : ch.tick = (ch, false) := by
  rcases h with h | h <;> simp [PitChannel.tick, h]

theorem PitChannel.tick_m0 (ch : PitChannel) (he : ch.enabled = true) (hg : ch.gate = true) (hm : ch.mode = .m0) :
    ch.tick = ch.tick0 := by simp [PitChannel.tick, he, hg, hm]

theorem PitChannel.tick_m2 (ch : PitChannel) (he : ch.enabled = true) (hg : ch.gate = true) (hm : ch.mode = .m2) :
    ch.tick = ch.tick2 := by simp [PitChannel.tick, he, hg, hm]

theorem PitChannel.tick_m3 (ch : PitChannel) (he : ch.enabled = true) (hg : ch.gate = true) (hm : ch.mode = .m3) :
    ch.tick = ch.tick3 := by simp [PitChannel.tick, he, hg, hm]

theorem PitChannel.tick_other (ch : PitChannel) (he : ch.enabled = true) (hg : ch.gate = true)
    (hm : ch.mode = .m1 ∨ ch.mode = .m4 ∨ ch.mode = .m5) : ch.tick = ch.tickOther := by
  rcases hm with hm | hm | hm <;> simp [PitChannel.tick, he, hg, hm]

/-- One less, as a number: 0 wraps to 65535 (R272, R274, R278). -/
theorem half_pred (x : Half) : (x - 1).toNat = (x.toNat + 65535) % 65536 := by
  have := x.isLt
  rw [BitVec.toNat_sub]
  simp
  omega

/-- One less is 0 exactly for 1. -/
theorem half_pred_eq_zero (x : Half) : x - 1 = 0 ↔ x = 1 := by
  constructor
  · intro h
    have e := congrArg BitVec.toNat h
    rw [half_pred] at e
    have := x.isLt
    apply BitVec.eq_of_toNat_eq
    simp at e ⊢
    omega
  · rintro rfl; rfl

/-- A mode-3 clock that toggles: the counter at 1, 2 or 3 (R276). -/
theorem PitChannel.tick3_toggle (ch : PitChannel) (h1 : 1 ≤ ch.counter.toNat) (h3 : ch.counter.toNat ≤ 3) :
    ch.tick3 = ({ ch with out := !ch.out, counter := ch.reload }, !ch.out) := by
  have h0 : ¬ ch.counter = 0 := fun h => by rw [h] at h1; simp at h1
  have hd : ((ch.counter.toNat : Int) - 2 ≤ 1) := by omega
  simp only [PitChannel.tick3, h0, if_false, hd, if_true]

/-- A mode-3 clock that counts by two: the counter at 0, which stands for 65536, or from 4 on (R276). -/
theorem PitChannel.tick3_count (ch : PitChannel) (h : ch.counter.toNat = 0 ∨ 4 ≤ ch.counter.toNat) :
    ch.tick3 = ({ ch with counter := BitVec.ofNat 16 (ch.counter.toNat + 65534) }, false) := by
  have hlt := ch.counter.isLt
  rcases h with h | h
  · have h0 : ch.counter = 0 := BitVec.eq_of_toNat_eq (by simpa using h)
    have e : (BitVec.ofInt 16 (65536 - 2) : Half) = BitVec.ofNat 16 (ch.counter.toNat + 65534) := by rw [h]; decide
    simp only [PitChannel.tick3, h0, if_true]
    rw [← h0, ← e]
    rfl
  · have h0 : ¬ ch.counter = 0 := fun e => by rw [e] at h; simp at h
    have hd : ¬ ((ch.counter.toNat : Int) - 2 ≤ 1) := by omega
    have e : BitVec.ofInt 16 ((ch.counter.toNat : Int) - 2) = BitVec.ofNat 16 (ch.counter.toNat + 65534) := by
      apply BitVec.eq_of_toNat_eq
      rw [BitVec.toNat_ofInt, BitVec.toNat_ofNat]
      omega
    simp only [PitChannel.tick3, h0, if_false, hd, e]

/-- A clock changes the counter and the output level of a channel and nothing else (R270 to R278). -/
theorem PitChannel.tick_frame (ch : PitChannel) :
    ch.tick.1 = { ch with counter := ch.tick.1.counter, out := ch.tick.1.out } := by
  unfold PitChannel.tick
  split
  · split
    · rfl
    · rfl
    · unfold PitChannel.tick2; split <;> rfl
    · unfold PitChannel.tick3; dsimp only; repeat' split
      all_goals rfl
    · rfl
    · rfl
  · rfl

/-- A run of clocks, one clock first. -/
theorem tickRun_succ (k : Nat) (t : Pit) : (tickRun (k + 1) t).2 = t.ch0.tick.2 :: (tickRun k t.tick).2 := rfl

/-- A run of clocks in two parts. -/
theorem tickRun_add (j : Nat) : ∀ (k : Nat) (t : Pit),
    (tickRun (k + j) t).2 = (tickRun k t).2 ++ (tickRun j (tickRun k t).1).2
  | 0, t => by simp [tickRun]
  | k + 1, t => by
    rw [show k + 1 + j = (k + j) + 1 by omega]
    simp only [tickRun, tickRun_add j k t.tick, List.cons_append]

/-- Every clock of a run reports one answer. -/
theorem tickRun_length : ∀ (k : Nat) (t : Pit), (tickRun k t).2.length = k
  | 0, _ => rfl
  | k + 1, t => by simp [tickRun, tickRun_length k]

end Sys2Proof.Machine
end

