-- ==== Sys2Proof/Tests/Slice0.lean ====
section
/-! SUPPORT. The model's own tests: ill-formed operations refused, words of the spec's encodings decoded, one step
of each operation from the vectors of 95_test_vectors.md (their ids in the comments), and a witness for the
hypotheses of every statement that has some. -/

namespace Sys2Proof.Tests

open Sys2Proof.Machine

/-! ### Helpers -/

/-- The state an operation leaves, and what it returns. -/
def after (i : Instr) (s : State) : State :=
  match exec i s with
  | .next t => t
  | .fault _ => s
  | .refused _ => s

def ask (i : Instr) (s : State) : Reply := (after i s).reply

/-- The state one step leaves. -/
def stepped (s : State) : State :=
  match step s with
  | .next t => t
  | .fault _ => s
  | .refused _ => s

/-- State.reset with one event to come. -/
def facing (e : Event) : State := State.reset.setInbox [e]

/-- Guest memory holding little-endian values, each given as address, bytes, value. -/
def holding (ws : List (Nat × Nat × Nat)) : State :=
  State.reset.setMem { cells := ws.foldl (fun m w => Memory.writeLE m w.1 w.2.2 w.2.1) [], rules := [] }

/-- The 2-level tables T1, the PAE tables T2 and the 4-level tables T3 of L2.1. -/
def t1 : State := holding [(0x1000, 4, 0x2007), (0x1004, 4, 0xC00083), (0x2014, 4, 0x5005)]
def t2 : State := holding [(0x3000, 8, 0x4001), (0x4000, 8, 0x6007), (0x4008, 8, 0x600087),
  (0x6008, 8, 0x8000000000007007)]
def t3 : State := holding [(0x100008, 8, 0x101007), (0x101008, 8, 0x102007), (0x101010, 8, 0x40000087),
  (0x102008, 8, 0x103007), (0x102010, 8, 0x800083), (0x103008, 8, 0x200007)]

/-- The translation configurations of the vectors. -/
def cfg0 : TransCfg := { pae := false, long := false, pse := false, wp := false, nxe := false }
def cfgPae : TransCfg := { cfg0 with pae := true, nxe := true }
def cfgLong : TransCfg := { cfg0 with long := true }

/-- Translation off, and on with the tables T1 or T3. -/
def off : TransCtx := { paging := false, cfg := cfg0, cr3 := 0 }
def onT1 : TransCtx := { paging := true, cfg := cfg0, cr3 := 0x1000 }
def onT3 : TransCtx := { paging := true, cfg := cfgLong, cr3 := 0x100000 }

/-- The chips as program P1 leaves them, with given masks and requests (L2.4, "initialized"). -/
def chip (offset irr isr imr : Byte) : PicChip :=
  { PicChip.powerOn with offset := offset, irr := irr, isr := isr, imr := imr, icw0 := 0x11 }

def withPic (m s : PicChip) : State := State.reset.setPic { m := m, s := s }

/-- A channel that counts. -/
def running (mode : PitMode) (reload counter : Half) (out : Bool) : PitChannel :=
  { PitChannel.powerOn with mode := mode, reload := reload, counter := counter, out := out, enabled := true }

def withCh0 (ch : PitChannel) : State := State.reset.setPit { State.reset.pit with ch0 := ch }

/-- A register of the NIC after an operation. -/
def regAfter (i : Instr) (s : State) (idx : BitVec 15) : Dword := (after i s).nic.reg idx

def withReg (idx : BitVec 15) (v : Dword) : State := State.reset.setNic (State.reset.nic.setReg idx v)

/-- All chips initialized. -/
def ready : PicSteps := { master := .done, slave := .done }

abbrev reads (r : Request) (i : Instr) : Prop := decode Params.default ready r = .ok i

/-! ### Ill-formed operations -/

theorem test_wf_icw1_needs_bit4 : (Instr.picIcw1 .master 0x0F).wf Params.default = false := by decide
theorem test_wf_nseoi_needs_00100 : (Instr.picOcw2Nseoi .master 0x62).wf Params.default = false := by decide
theorem test_wf_seoi_needs_01100 : (Instr.picOcw2Seoi .slave 0x20).wf Params.default = false := by decide
theorem test_wf_other_refuses_eoi : (Instr.picOcw2Other .master 0x20).wf Params.default = false
    ∧ (Instr.picOcw2Other .master 0x65).wf Params.default = false
    ∧ (Instr.picOcw2Other .master 0x88).wf Params.default = false := by decide
theorem test_wf_rr_needs_bit1 : (Instr.picOcw3Rr .master 0x08).wf Params.default = false := by decide
theorem test_wf_norr_refuses_bit1 : (Instr.picOcw3Norr .master 0x0A).wf Params.default = false := by decide
theorem test_wf_plain_refuses_icr : (Instr.nicPlainW 48 0 .b4 0).wf Params.default = false := by decide
/-- A timer whose first port is 0xFFFE: channels 0 and 1 have ports, channel 2 and the control register have none
(R10, R61), and neither have the ports from 0x0000 on anything of it. -/
def highTimer : Params := { Params.default with pitBase := 0xFFFE }
theorem test_wf_timer_needs_a_port : (Instr.pitCountRead .c1).wf highTimer = true
    ∧ (Instr.pitCountRead .c2).wf highTimer = false ∧ (Instr.pitCountWrite .c2 0).wf highTimer = false
    ∧ (Instr.pitCtrlMode .c0 .loHi 2 false).wf highTimer = false ∧ (Instr.pitCtrlLatch .c0 0).wf highTimer = false
    ∧ (Instr.pitCtrlReadback 0).wf highTimer = false ∧ Instr.pitCtrlRead.wf highTimer = false := by decide
theorem test_decode_high_timer : decode highTimer ready (.portRead 0xFFFF 1) = .ok (.pitCountRead .c1)
    ∧ decode highTimer ready (.portRead 0x0000 1) = .error (.unknownRead 0)
    ∧ decode highTimer ready (.portWrite 0x0001 1 0x34) = .error (.unknownWrite 1) := by decide
theorem test_at_step_refuses_icw2_when_done : (Instr.picIcw2 .master 0x20).atStep ready = false := by decide

/-! ### Decoding, word by word (R91 to R109, R120) -/

theorem test_decode_icw1 : reads (.portWrite 0x20 1 0x11) (.picIcw1 .master 0x11) := by decide
theorem test_decode_icw2 : decode Params.default { master := .icw2, slave := .done } (.portWrite 0x21 1 0x23)
    = .ok (.picIcw2 .master 0x23) := by decide
theorem test_decode_icw3 : decode Params.default { master := .done, slave := .icw3 } (.portWrite 0xA1 1 0x02)
    = .ok (.picIcw3 .slave 0x02) := by decide
theorem test_decode_icw4 : decode Params.default { master := .icw4, slave := .done } (.portWrite 0x21 1 0x03)
    = .ok (.picIcw4 .master 0x03) := by decide
theorem test_decode_ocw1 : reads (.portWrite 0xA1 1 0xFD) (.picOcw1 .slave 0xFD) := by decide
theorem test_decode_nseoi : reads (.portWrite 0x20 1 0x20) (.picOcw2Nseoi .master 0x20) := by decide
theorem test_decode_seoi : reads (.portWrite 0xA0 1 0x62) (.picOcw2Seoi .slave 0x62) := by decide
theorem test_decode_ocw2_other : reads (.portWrite 0x20 1 0xA0) (.picOcw2Other .master 0xA0) := by decide
theorem test_decode_rr : reads (.portWrite 0x20 1 0x0B) (.picOcw3Rr .master 0x0B) := by decide
theorem test_decode_norr : reads (.portWrite 0x20 1 0x48) (.picOcw3Norr .master 0x48) := by decide
theorem test_decode_eoi_mid_sequence : decode Params.default { master := .icw3, slave := .done }
    (.portWrite 0x20 1 0x20) = .ok (.picOcw2Nseoi .master 0x20) := by decide  -- PIC-27
theorem test_decode_pic_reads : reads (.portRead 0xA0 1) (.picReadCmd .slave)
    ∧ reads (.portRead 0x21 1) (.picReadData .master) := by decide
theorem test_decode_ctrl_mode : reads (.portWrite 0x43 1 0x34) (.pitCtrlMode .c0 .loHi 2 false) := by decide
theorem test_decode_ctrl_mode_ch2 : reads (.portWrite 0x43 1 0xB7) (.pitCtrlMode .c2 .loHi 3 true) := by decide
theorem test_decode_ctrl_latch : reads (.portWrite 0x43 1 0x4F) (.pitCtrlLatch .c1 0xF) := by decide
theorem test_decode_readback : reads (.portWrite 0x43 1 0xC2) (.pitCtrlReadback 2) := by decide
theorem test_decode_count_ports : reads (.portWrite 0x41 1 0x05) (.pitCountWrite .c1 0x05)
    ∧ reads (.portRead 0x42 1) (.pitCountRead .c2) ∧ reads (.portRead 0x43 1) .pitCtrlRead := by decide
theorem test_decode_nic_ctrl : reads (.mmioWrite 0x3 1 0x04) (.nicCtrlW 3 .b1 0x04) := by decide
theorem test_decode_nic_status : reads (.mmioWrite 0x8 4 0) (.nicStatusW 0 .b4 0) := by decide
theorem test_decode_nic_eerd : reads (.mmioWrite 0x14 4 0x3F01) (.nicEerdW 0 .b4 0x3F01) := by decide
theorem test_decode_nic_icr : reads (.mmioWrite 0xC0 4 1) (.nicIcrW 0 .b4 1)
    ∧ reads (.mmioRead 0xC1 1) (.nicIcrR 1 .b1) := by decide
theorem test_decode_nic_ics : reads (.mmioWrite 0xC8 4 0x81) (.nicIcsW 0 .b4 0x81) := by decide
theorem test_decode_nic_ims : reads (.mmioWrite 0xD0 4 0xFF) (.nicImsW 0 .b4 0xFF) := by decide
theorem test_decode_nic_imc : reads (.mmioWrite 0xD8 4 0x0F) (.nicImcW 0 .b4 0x0F) := by decide
theorem test_decode_nic_plain : reads (.mmioWrite 0x102 2 0xBEEF) (.nicPlainW 64 2 .b2 0xBEEF) := by decide
theorem test_decode_nic_read : reads (.mmioRead 0x5405 1) (.nicRead 0x5405 1) := by decide
theorem test_decode_nic_malformed : reads (.mmioWrite 0x20000 4 1) (.nicWrite 0x20000 4 1)
    ∧ reads (.mmioWrite 0 8 1) (.nicWrite 0 8 1) := by decide
/-- The rows without an encoding (R149), and the NIC's two entry points (R16). -/
def calls : List Instr :=
  [.translate 0x5123 .write 3 cfg0 0x1000, .picRaise 9, .picLower 9, .picResolve, .picAck 9, .pitTick,
   .pitSetGate 0 true, .nicRead 0x8 4, .nicWrite 0x0 4 0x41, .nicReceive [0xAA], .nicDrainTx, .nicQueueTx [0xBB],
   .nicIrqLevel]
  ++ [.dpRaise 0x21, .dpAck 0x21, .dpSample 0x202, .dpSetShadow true, .dpSetHandling true, .dpGetHandling,
   .dpResolveReal 8 0, .dpResolveProt 0x0E 0x10000 0x7FF off, .dpResolveLong 0x0E 0x20000 0xFFF off,
   .dpResolve .real 8 0 0 off]

/-- They are issued as calls; a guest row is not. -/
theorem test_decode_calls : (∀ i ∈ calls, reads (.call i) i)
    ∧ decode Params.default ready (.call (.picReadData .master)) = .error .notHostCall := by decide
theorem test_decode_absorbs : decode Params.default ready (.portWrite 0x20 2 0x11) = .error (.wideWrite 2)
    ∧ decode Params.default ready (.portRead 0x60 1) = .error (.unknownRead 0x60) := by decide
theorem test_table_words : decodeTableWord 8 0x10 = some (.picIcw1 .master 0x10)
    ∧ decodeTableWord 24 0xD0 = some (.nicImsW 0 .b4 0) := by decide

/-! ### Address translation -/

theorem test_translate_user_write : ask (.translate 0x5123 .write 3 cfg0 0x1000) t1
    = .raised (.pageFault 0x5123 0x7) := by decide  -- A-1
theorem test_translate_one_gig : ask (.translate 0x8081234567 .read 0 cfgLong 0x100000) t3
    = .pa 0x41234567 := by decide  -- A-33
theorem test_translate_pae_nx : ask (.translate 0x1ABC .execute 0 cfgPae 0x3000) t2
    = .raised (.pageFault 0x1ABC 0x11) := by decide  -- A-22
theorem test_translate_accessor_failure :
    ask (.translate 0x5123 .read 3 cfg0 0x1000) (t1.setMem { t1.mem with rules := [.access 0x2014 4 { code := 7 }] })
    = .raised (.memError { code := 7 }) := by decide  -- A-16

/-! ### The PIC pair -/

theorem test_icw1 : (after (.picIcw1 .master 0x11) (withPic (chip 0x20 0x05 0x02 0xF0) (chip 0x28 0x02 0 0))).pic.m
    = { chip 0x20 0x04 0 0 with step := .icw2 } := by decide  -- PIC-1, PIC-13
theorem test_icw2 : (after (.picIcw2 .master 0x23) State.reset).pic.m
    = { PicChip.powerOn with offset := 0x20, icw1 := 0x23, step := .icw3 } := by decide  -- PIC-2
theorem test_icw3 : (after (.picIcw3 .master 0x04) (withPic (chip 0x20 0 0 0) (chip 0x28 0 0 0))).pic.m.step = .icw4
    ∧ (after (.picIcw3 .master 0x00) State.reset).pic.m.step = .done := by decide  -- PIC-3, PIC-5
theorem test_icw4 : (after (.picIcw4 .master 0x03) State.reset).pic.m
    = { PicChip.powerOn with icw3 := 0x03, autoEoi := true } := by decide  -- PIC-4
theorem test_ocw1 : (after (.picOcw1 .slave 0x00) (withPic (chip 0x20 0 0 0) (chip 0x28 0x02 0 0x02))).pic.m.irr
    = 0x04 := by decide  -- PIC-11
theorem test_nseoi : (after (.picOcw2Nseoi .master 0x20) (withPic (chip 0x20 0 0x06 0) (chip 0x28 0 0 0))).pic.m.isr
    = 0x04 := by decide  -- PIC-14
theorem test_seoi : (after (.picOcw2Seoi .master 0x62) (withPic (chip 0x20 0 0x04 0) (chip 0x28 0 0 0))).pic.m.isr
    = 0 := by decide  -- PIC-15
theorem test_ocw2_other : (after (.picOcw2Other .master 0xA0) (withPic (chip 0x20 0 0x01 0) (chip 0x28 0 0 0))).pic.m.isr
    = 0x01 := by decide  -- PIC-17
theorem test_rr : (after (.picOcw3Rr .master 0x0B) State.reset).pic.m.readIsr = true := by decide  -- PIC-18
theorem test_norr : (after (.picOcw3Norr .slave 0x48) State.reset).pic = State.reset.pic := by decide  -- R220
theorem test_read_cmd : ask (.picReadCmd .master) (withPic (chip 0x20 0x05 0x02 0) (chip 0x28 0 0 0)) = .byte 0x05
    ∧ ask (.picReadCmd .master) (withPic { chip 0x20 0x05 0x02 0 with readIsr := true } (chip 0x28 0 0 0))
      = .byte 0x02 := by decide  -- PIC-18
theorem test_read_data : ask (.picReadData .master) (withPic (chip 0x20 0 0 0xFB) (chip 0x28 0 0 0)) = .byte 0xFB := by
  decide  -- PIC-19
theorem test_raise : (after (.picRaise 9) (withPic (chip 0x20 0 0 0) (chip 0x28 0 0 0x02))).pic
    = { m := chip 0x20 0 0 0, s := chip 0x28 0x02 0 0x02 } := by decide  -- PIC-10
theorem test_lower : (after (.picLower 10) (withPic (chip 0x20 0x04 0 0) (chip 0x28 0x04 0 0))).pic.m.irr = 0 := by
  decide  -- PIC-12
theorem test_resolve : ask .picResolve (withPic (chip 0x20 0x04 0x02 0) (chip 0x28 0x02 0 0)) = .line (some (9, 0x29))
    ∧ ask .picResolve (withPic (chip 0x20 0x04 0x06 0) (chip 0x28 0x04 0x02 0)) = .line none := by
  decide  -- PIC-7, PIC-8
theorem test_ack : (after (.picAck 12)
      (withPic { chip 0x20 0x04 0 0 with autoEoi := true } (chip 0x28 0x10 0 0))).pic
    = { m := { chip 0x20 0 0 0 with autoEoi := true }, s := chip 0x28 0 0x10 0 } := by decide  -- PIC-22

/-! ### The timer -/

theorem test_ctrl_mode : (after (.pitCtrlMode .c0 .loHi 6 true) (withCh0 (running .m0 9 7 false))).pit.ch0
    = { running .m2 9 7 true with enabled := false } := by decide  -- PIT-20, PIT-21
theorem test_ctrl_latch : (after (.pitCtrlLatch .c0 0) (withCh0 (running .m2 0x1234 0x1234 true))).pit.ch0.latched
    = 0x1234 ∧ (after (.pitCtrlLatch .c0 0)
      (withCh0 { running .m2 1 0x1233 true with latched := 0x1234, latchActive := true })).pit.ch0.latched
    = 0x1234 := by decide  -- PIT-15, PIT-16
theorem test_readback : (after (.pitCtrlReadback 2) State.reset).pit = State.reset.pit := by decide  -- PIT-23
theorem test_count_write : (after (.pitCountWrite .c0 0x01)
      (withCh0 { PitChannel.powerOn with access := .hiOnly })).pit.ch0.reload = 0x0100 := by decide  -- PIT-18
theorem test_count_write_second : (after (.pitCountWrite .c0 0x00)
      (withCh0 { PitChannel.powerOn with writeHi := true, stagedLo := 0x05 })).pit.ch0
    = { running .m0 5 5 false with stagedLo := 0x05 } := by decide  -- PIT-27
theorem test_count_read : ask (.pitCountRead .c0)
      (withCh0 { running .m2 2 0x1233 true with latched := 0x1234, latchActive := true, readHi := true })
    = .byte 0x12 := by decide  -- PIT-15
theorem test_ctrl_read : ask .pitCtrlRead State.reset = .byte 0 := by decide  -- PIT-24
theorem test_tick_rate : ask .pitTick (withCh0 (running .m2 4 1 false)) = .bool true
    ∧ (after .pitTick (withCh0 (running .m2 4 2 true))).pit.ch0 = running .m2 4 1 false := by decide  -- PIT-1
theorem test_tick_square : (after .pitTick (withCh0 (running .m3 5 3 true))).pit.ch0 = running .m3 5 5 false
    ∧ (after .pitTick (withCh0 (running .m3 0 0 true))).pit.ch0.counter = 65534 := by decide  -- PIT-8, PIT-10
theorem test_set_gate : (after (.pitSetGate 0 false) State.reset).pit.ch0.gate = false
    ∧ (after (.pitSetGate 3 false) State.reset).pit = State.reset.pit := by decide  -- PIT-25, R282

/-! ### The NIC -/

theorem test_nic_read : ask (.nicRead 0x5402 2) State.reset = .value 0x1200 := by decide  -- NIC-2
theorem test_nic_read_malformed : ask (.nicRead 0 8) State.reset = .value 0 := by decide  -- NIC-20
theorem test_nic_write : regAfter (.nicWrite 0x103 4 0x11223344) (withReg 64 0xBEEF0000) 64 = 0x44EF0000 := by
  decide  -- NIC-6
theorem test_nic_write_malformed : (after (.nicWrite 0x20000 4 1) State.reset).nic = State.reset.nic := by
  decide  -- NIC-19
theorem test_nic_ctrl : regAfter (.nicCtrlW 0 .b4 0x41) State.reset 0 = 0x41 := by decide  -- NIC-22
theorem test_nic_ctrl_reset : (after (.nicCtrlW 3 .b1 0x04) (withReg 52 0xFF)).nic = State.reset.nic := by
  decide  -- NIC-17
theorem test_nic_status : (after (.nicStatusW 0 .b4 0) State.reset).nic = State.reset.nic := by decide  -- NIC-3
theorem test_nic_eerd : regAfter (.nicEerdW 0 .b4 0x3F01) State.reset 5 = 0xFE343F10
    ∧ regAfter (.nicEerdW 0 .b4 0x4001) State.reset 5 = 0x4010 := by decide  -- NIC-9
theorem test_nic_eerd_no_start : regAfter (.nicEerdW 0 .b4 0x0500) State.reset 5 = 0x0500 := by decide  -- NIC-21
theorem test_nic_icr_write : regAfter (.nicIcrW 0 .b4 0x01) (withReg 48 0x81) 48 = 0x80 := by decide  -- NIC-12
theorem test_nic_icr_read : ask (.nicIcrR 1 .b1) (withReg 48 0x80) = .value 0
    ∧ regAfter (.nicIcrR 1 .b1) (withReg 48 0x80) 48 = 0 := by decide  -- NIC-11
theorem test_nic_ics : regAfter (.nicIcsW 0 .b4 0x81) State.reset 48 = 0x81
    ∧ regAfter (.nicIcsW 0 .b4 0x81) State.reset 50 = 0 := by decide  -- NIC-12, NIC-13
theorem test_nic_ims : regAfter (.nicImsW 0 .b4 0xFF) State.reset 52 = 0xFF := by decide  -- NIC-14
theorem test_nic_imc : regAfter (.nicImcW 0 .b4 0x0F) (withReg 52 0xFF) 52 = 0xF0 := by decide  -- NIC-14
theorem test_nic_plain : regAfter (.nicPlainW 64 2 .b2 0xBEEF) State.reset 64 = 0xBEEF0000 := by decide  -- NIC-5
theorem test_nic_receive : regAfter (.nicReceive [0xAA]) State.reset 48 = 0x80
    ∧ (after (.nicReceive [0xAA]) State.reset).nic.rx = [[0xAA]] := by decide  -- NIC-10
theorem test_nic_drain : ask .nicDrainTx (State.reset.setNic { State.reset.nic with tx := [[1], [2]] })
    = .frames [[1], [2]] := by decide  -- NIC-18
theorem test_nic_queue : (after (.nicQueueTx [2]) (State.reset.setNic { State.reset.nic with tx := [[1]] })).nic.tx
    = [[1], [2]] := by decide  -- NIC-18
theorem test_nic_irq_level : ask .nicIrqLevel (withReg 48 0x80) = .bool false
    ∧ ask .nicIrqLevel (State.reset.setNic ((withReg 48 0x80).nic.setReg 52 0x80)) = .bool true := by decide  -- NIC-15

/-! ### The pipeline and the resolvers -/

theorem test_dp_raise : (after (.dpRaise 0xFF) State.reset).dp.pending3 = 0x8000000000000000 := by decide  -- DP-6
theorem test_dp_ack : (after (.dpAck 0x21) (after (.dpRaise 0x21) State.reset)).dp = State.reset.dp := by decide  -- DP-5
theorem test_dp_sample : ask (.dpSample 0x202) (State.reset.setDp { Dp.powerOn with pending0 := 0x1000200000000 })
    = .vector (some 0x21)
    ∧ ask (.dpSample 0x002) (State.reset.setDp { Dp.powerOn with pending0 := 0x1000200000000 }) = .vector none := by
  decide  -- DP-2, DP-3
theorem test_dp_shadow : (after (.dpSetShadow true) State.reset).dp.shadow = true := by decide  -- DP-4
theorem test_dp_handling : (after (.dpSetHandling true) State.reset).dp.handling = true := by decide  -- DP-9
theorem test_dp_get_handling : ask .dpGetHandling (State.reset.setDp { Dp.powerOn with handling := true })
    = .bool true := by decide  -- DP-9
theorem test_resolve_real : ask (.dpResolveReal 0 0xFFFFFFFE) (holding [(0xFFFFFFFE, 2, 0x2211), (0, 2, 0x4433)])
    = .realTarget { segment := 0x4433, offset := 0x2211 } := by decide  -- DR-3

theorem test_resolve_prot : ask (.dpResolveProt 0x0E 0x10000 0x7FF off) (holding [(0x10070, 8, 0x5678860000081234)])
    = .protGate { kind := .int16, selector := 8, offset := 0x56781234, entry := 0x1234, s := false, dpl := 0,
                  present := true }
    ∧ ask (.dpResolveProt 0x0E 0x10000 0x7FF off) (holding [(0x10070, 8, 0x5678960000081234)])
    = .protGate { kind := .int16, selector := 8, offset := 0x56781234, entry := 0x1234, s := true, dpl := 0,
                  present := true } := by
  decide  -- DQ-2, and the same with the S bit set, reported and not checked (D61)
theorem test_resolve_prot_limit : ask (.dpResolveProt 0xFF 0x10000 0x7F7 off) State.reset
    = .raised (.generalProtection 0x7FA) := by decide  -- DQ-11
theorem test_resolve_long : ask (.dpResolveLong 0x0E 0x20000 0xFFF off)
      (holding [(0x200E0, 8, 0xC0008E0100081000), (0x200E8, 8, 0xFFFFFFFF)])
    = .longGate { kind := .int64, selector := 8, offset := 0xFFFFFFFFC0001000, ist := 1, s := false, dpl := 0,
                  present := true } := by decide  -- DL-1
theorem test_resolve_long_limit : ask (.dpResolveLong 0xF0 0x20000 0xEFF off) State.reset
    = .raised (.generalProtection 0xF02) := by decide  -- DL-4
theorem test_resolve_selects : ask (.dpResolve .prot 0 0x6000 0x7FF onT1) t1 = .raised (.pageFault 0x6000 0)
    ∧ ask (.dpResolve .long 0 0x8040201FF8 0xFFF onT3) t3 = .raised (.pageFault 0x8040202000 0) := by
  decide  -- DQ-12, DL-6

/-! ### Steps and the router -/

theorem test_step_absorbs : (stepped (facing (.op (.portRead 0x60 1)))).reply = .value 0 := by decide  -- R67
theorem test_step_store_past_the_end : step (facing (.store 0xFFFFFFFFFFFFFFFF .b2 0)) = .fault .beyondAddressSpace :=
  rfl
theorem test_step_no_host_call : step (facing (.op (.call .pitCtrlRead))) = .refused .notHostCall := rfl
theorem test_step_fetches : (stepped (State.reset.withFetchWord 8 0x11)).pic.m.step = .icw2 := by decide  -- PIC-1
theorem test_router_mmio : routeMmio Params.default 0xFEBC5400 = some 0x5400
    ∧ routeMmio Params.default 0xFEBE0000 = none := by decide  -- R93
theorem test_router_boundary : routeBoundary 0x202 (withPic (chip 0x20 0x01 0 0) (chip 0x28 0 0 0))
    = [.op (.call (.picAck 0)), .op (.call (.dpRaise 0x20))] := by decide  -- P2 step 7
theorem test_router_nic : routeNic State.reset (after (.nicReceive []) (withReg 52 0x80))
    = [.op (.call (.picRaise 11))] := by decide  -- P4 step 4
/-- A `NIC_TX_PATH` that names a guest access of each kind, and accesses next to them that it does not name. -/
def withTxPath : Params := { Params.default with nicTxPath :=
  [.mmioWrite 0x3818 4 1 1, .mmioRead 0x3810 4, .portWrite 0x300 2 0xFF 0x80, .portRead 0x301 1] }
theorem test_router_transmit :
    (∀ r ∈ [Request.mmioWrite 0x3818 4 0x101, .mmioRead 0x3810 4, .portWrite 0x300 2 0x1280, .portRead 0x301 1],
      routeTransmit withTxPath r [0xAA] = [.op (.call (.nicQueueTx [0xAA]))] ∧ routeTransmit Params.default r [0xAA] = [])
    ∧ ∀ r ∈ [Request.mmioWrite 0x3818 4 0x100, .mmioRead 0x3818 4, .portWrite 0x300 2 0x1281, .portRead 0x301 2,
        .call .nicDrainTx], routeTransmit withTxPath r [0xAA] = [] := by decide  -- R8, R328

/-! ### Witnesses: for every statement with hypotheses, values that meet them all -/

/-- A good state that is not State.reset: a listed byte of memory, a stored register, a call to come. -/
def busy : State := (holding [(0x1000, 4, 0x2007)]).setInbox [.op (.call (.picRaise 9))]

theorem witness_step_runs : (facing (.op (.portWrite 0x20 1 0x11))).inbox = .op (.portWrite 0x20 1 0x11) :: []
    ∧ decode Params.default (facing (.op (.portWrite 0x20 1 0x11))).pic.steps (.portWrite 0x20 1 0x11)
      = .ok (.picIcw1 .master 0x11) := ⟨rfl, by decide⟩

theorem witness_round_trip : Params.default.WellFormed ∧ (Instr.picOcw1 .slave 0xFF).wf Params.default = true
    ∧ (Instr.picOcw1 .slave 0xFF).atStep ready = true
    ∧ highTimer.WellFormed ∧ (Instr.pitCountWrite .c1 0xFF).wf highTimer = true := by decide

/-- The last byte of the window, and a read at each of ICR's ends and just past it. -/
theorem witness_nic_window : (0x1FFFF#64).toNat < 0x20000 ∧ (0xC3#64).toNat / 4 = Params.default.nicMap.icr.toNat
    ∧ decode Params.default ready (.mmioRead 0xC3 1) = .ok (.nicIcrR 3 .b1)
    ∧ decode Params.default ready (.mmioRead 0xC4 4) = .ok (.nicRead 0xC4 4) := by decide

theorem witness_malformed_port : (2 ≠ 1 ∨ (0x20 : Half).toNat ∉ Params.default.ports)
    ∧ (1 ≠ 1 ∨ (0x44 : Half).toNat ∉ Params.default.ports)
    ∧ (1 ≠ 1 ∨ (0x0000 : Half).toNat ∉ highTimer.ports)
    ∧ (facing (.op (.portWrite 0x20 2 0))).inbox = [.op (.portWrite 0x20 2 0)]
    ∧ (facing (.op (.portRead 0x44 1))).inbox = [.op (.portRead 0x44 1)] := by decide

theorem witness_malformed_mmio : (0x20000 ≤ (0x20000#64).toNat ∨ 4 ∉ [1, 2, 4])
    ∧ (0x20000 ≤ (0#64).toNat ∨ 8 ∉ [1, 2, 4])
    ∧ (facing (.op (.mmioWrite 0x20000 4 1))).inbox = [.op (.mmioWrite 0x20000 4 1)]
    ∧ (facing (.op (.mmioRead 0 8))).inbox = [.op (.mmioRead 0 8)] := by decide

theorem witness_fault_outcome : ∃ t, exec (.dpResolveProt 0xFF 0x10000 0x7F7 off) State.reset = .next t
    ∧ t.reply = .raised (.generalProtection 0x7FA) := ⟨_, rfl, rfl⟩

theorem witness_power_on : Params.default.WellFormed ∧ eepromDefault.length = 64 := by decide

theorem witness_good : Good busy ∧ ∃ t, step busy = .next t :=
  ⟨⟨by decide, by decide, ⟨by decide, by decide, by decide, by decide, by decide⟩⟩, _, rfl⟩

theorem witness_cascade : busy.pic.CascadeInSync ∧ (∃ t, step busy = .next t)
    ∧ ∀ r rest, busy.inbox = .op r :: rest → ¬ overridesCascade r := by
  refine ⟨by unfold Pic.CascadeInSync; decide, ⟨_, rfl⟩, ?_⟩
  intro r rest h
  cases h
  simp [overridesCascade]

/-- An operation that is neither `DP.SET_SHADOW` nor `DP.SET_HANDLING` and answers a next state. -/
theorem witness_any_next : (∃ t, exec (.nicCtrlW 3 .b1 0x04) State.reset = .next t)
    ∧ (∀ c, Instr.nicCtrlW 3 .b1 0x04 ≠ .dpSetShadow c) ∧ ∀ c, Instr.nicCtrlW 3 .b1 0x04 ≠ .dpSetHandling c :=
  ⟨⟨_, rfl⟩, nofun, nofun⟩

/-- A slave in its initialization sequence, with a data byte to come. -/
def midSequence : State :=
  (withPic (chip 0x20 0 0 0xFB) { chip 0x28 0 0 0xFD with step := .icw3 }).setInbox
    [.op (putByte Params.default (.picData .slave) 0xFF)]

theorem witness_data_write : midSequence.par.WellFormed
    ∧ midSequence.inbox = [.op (putByte midSequence.par (.picData .slave) 0xFF)]
    ∧ (midSequence.pic.chip .slave).step ≠ .done ∧ ∃ t, step midSequence = .next t :=
  ⟨by decide, rfl, by decide, _, rfl⟩

theorem witness_host_store : State.reset.mem.cells.wf = true
    ∧ (facing (.store 0xFFFFFFFFFFFFFFF8 .b8 1)).inbox = [.store 0xFFFFFFFFFFFFFFF8 .b8 1]
    ∧ (0xFFFFFFFFFFFFFFF8#64).toNat + MemWidth.b8.bytes ≤ 2 ^ 64
    ∧ (facing (.store 0xFFFFFFFFFFFFFFF8 .b8 1)).mem.failure (0xFFFFFFFFFFFFFFF8#64).toNat 8 = none := by decide

/-- Each walker is selected by a configuration, and each answers a physical address on its tables (A-2, A-20, A-30). -/
theorem witness_walks : (cfg0.long = false ∧ cfg0.pae = false
      ∧ ask (.translate 0x5123 .read 3 cfg0 0x1000) t1 = .pa 0x5123)
    ∧ (cfgPae.long = false ∧ cfgPae.pae = true ∧ ask (.translate 0x1ABC .read 3 cfgPae 0x3000) t2 = .pa 0x7ABC)
    ∧ (cfgLong.long = true
      ∧ ask (.translate 0x8040201ABC .read 0 cfgLong 0x100000) t3 = .pa 0x200ABC) := by decide

theorem witness_scopes_differ :  -- A-12
    translate { Params.default with permScope := .combined } t1.mem 0x401000 .read 3 cfg0 0x1000
    ≠ translate { Params.default with permScope := .perLevelInOrder } t1.mem 0x401000 .read 3 cfg0 0x1000 := by decide

theorem witness_bounded : 30 ≤ Params.default.maxPhyAddr
    ∧ translate Params.default t1.mem 0x5123 .read 3 cfg0 0x1000 = .ok 0x5123
    ∧ translate Params.default t3.mem 0x8081234567 .read 0 cfgLong 0x100000 = .ok 0x41234567 := by decide

theorem witness_page_fault : translate Params.default t1.mem 0x100005123 .write 3 cfg0 0x1000
    = .error (.pageFault 0x100005123 0x7) := by decide  -- A-14

theorem witness_unused_bits :
    (if cfg0.long then (0x5123 : Quad).extractLsb' 0 48 = (0x100005123 : Quad).extractLsb' 0 48
     else (0x5123 : Quad).extractLsb' 0 32 = (0x100005123 : Quad).extractLsb' 0 32)
    ∧ (if cfgLong.long then (0x8040201ABC : Quad).extractLsb' 0 48 = (0xFFFF008040201ABC : Quad).extractLsb' 0 48
     else (0x8040201ABC : Quad).extractLsb' 0 32 = (0xFFFF008040201ABC : Quad).extractLsb' 0 32) := by decide

theorem witness_init_words : ∀ x ∈ [InitStep.icw2, .icw3, .icw4],
    ((withPic { chip 0x20 0 0 0 with step := x } (chip 0x28 0 0 0)).pic.chip .master).step = x := by decide

theorem witness_mask_write : State.reset.pic.m.step = .done ∧ State.reset.pic.s.step = .done := by decide

theorem witness_read_select : (State.reset.pic.chip .master).readIsr = false
    ∧ ((withPic { chip 0x20 0 0 0 with readIsr := true } (chip 0x28 0 0 0)).pic.chip .master).readIsr = true := by decide

/-- The line numbers at the ends of the three ranges. -/
theorem witness_line_ranges : 0 < 8 ∧ 7 < 8 ∧ (8 ≤ 8 ∧ 8 < 16) ∧ (8 ≤ 15 ∧ 15 < 16) ∧ 16 ≤ 16 := by decide

/-- A pair for each clause of resolution: nothing eligible; master line 7; line 2 with no slave line; line 2 with the
slave's line 7. -/
theorem witness_resolution :
    ask .picResolve (withPic (chip 0x20 0 0 0) (chip 0x28 0 0 0)) = .line none
    ∧ ask .picResolve (withPic (chip 0x20 0x80 0 0) (chip 0x28 0 0 0)) = .line (some (7, 0x27))
    ∧ ask .picResolve (withPic (chip 0x20 0x04 0 0) (chip 0x28 0 0 0)) = .line none
    ∧ ask .picResolve (withPic (chip 0x20 0x04 0 0) (chip 0x28 0x80 0 0)) = .line (some (15, 0x2F)) := by decide

theorem witness_slave_blocked : ∃ t,
    (withPic (chip 0x20 0x80 0x04 0) (chip 0x28 0x01 0 0)).pic.m.isr.getLsbD 2 = true
    ∧ exec .picResolve (withPic (chip 0x20 0x80 0x04 0) (chip 0x28 0x01 0 0)) = .next t
    ∧ t.reply = .line (some (7, 0x27)) := ⟨_, by decide, rfl, by decide⟩

/-- A channel for each clause of the count accesses and of the latch. -/
theorem witness_count_access : ∀ a ∈ [PitAccess.loOnly, .hiOnly, .loHi], ∀ b ∈ [false, true],
    ((withCh0 { running .m2 4 4 true with access := a, writeHi := b, readHi := b, latchActive := b }).pit.chan .c0)
    = { running .m2 4 4 true with access := a, writeHi := b, readHi := b, latchActive := b } := by decide

/-- A channel for each clause of the tick: stopped; each mode; mode 2 at 1; mode 3 at 0, 1, 3 and 4. -/
theorem witness_tick : (running .m0 4 0 false).enabled = true ∧ (running .m0 4 0 false).gate = true
    ∧ PitChannel.powerOn.enabled = false ∧ (running .m2 4 1 false).counter = 1
    ∧ (running .m3 4 0 true).counter = 0 ∧ 1 ≤ (running .m3 4 1 true).counter.toNat
    ∧ (running .m3 4 3 true).counter.toNat ≤ 3 ∧ 4 ≤ (running .m3 4 4 true).counter.toNat
    ∧ (running .m5 4 1 true).mode = .m5 := by decide

/-- Loaded channels left alone: mode 2 at the largest count, mode 3 at the smallest, mode 0 at 65536. -/
def rate : Pit := (withCh0 (running .m2 65535 65535 true)).pit
def square : Pit := (withCh0 (running .m3 1 1 true)).pit
def terminal : Pit := (withCh0 (running .m0 0 0 false)).pit

theorem witness_rate : rate.ch0.mode = .m2 ∧ rate.ch0.enabled = true ∧ rate.ch0.gate = true
    ∧ rate.ch0.counter = rate.ch0.reload := by decide

theorem witness_square : square.ch0.mode = .m3 ∧ square.ch0.enabled = true ∧ square.ch0.gate = true
    ∧ square.ch0.counter = square.ch0.reload ∧ square.ch0.out = true := by decide

theorem witness_terminal : terminal.ch0.mode = .m0 ∧ terminal.ch0.enabled = true ∧ terminal.ch0.gate = true
    ∧ terminal.ch0.counter = terminal.ch0.reload ∧ terminal.ch0.out = false := by decide

theorem witness_nic_access : (0x20000 ≤ (0x20000#64).toNat ∨ 4 ∉ [1, 2, 4])
    ∧ (0x20000 ≤ (0#64).toNat ∨ 8 ∉ [1, 2, 4]) ∧ (0x1FFFF#64).toNat < 0x20000 ∧ 1 ∈ [1, 2, 4]
    ∧ 4 = NicWidth.b4.bytes := by decide

theorem witness_nic_ok : NicOk State.reset.par State.reset.nic
    ∧ (Instr.nicPlainW 32767 3 .b4 0).wf State.reset.par = true :=
  ⟨⟨by decide, by decide, by decide, by decide, by decide⟩, by decide⟩

/-- A CTRL write whose written lane has RST, and one without it. -/
theorem witness_ctrl_merged :
    (∀ b, b < 32 → (0x04000000 : Dword).getLsbD b =
      if 8 * (3#2).toNat ≤ b ∧ b < 8 * ((3#2).toNat + NicWidth.b4.bytes)
      then (0x04 : Dword).getLsbD (b - 8 * (3#2).toNat) else (State.reset.nic.reg 0).getLsbD b)
    ∧ (0x04000000 : Dword).getLsbD 26 = true ∧ (0x41 : Dword).getLsbD 26 = false :=
  ⟨fun b hb => (show nicMerged (State.reset.nic.reg 0) 3 .b4 0x04 = 0x04000000 by decide) ▸ nicMerged_bit _ _ _ _ b hb,
    by decide⟩

/-- An EERD write of word 63 with START; one of word 64; one without START. -/
theorem witness_eerd_merged :
    (∀ b, b < 32 → (0x3F01 : Dword).getLsbD b =
      if 8 * (0#2).toNat ≤ b ∧ b < 8 * ((0#2).toNat + NicWidth.b4.bytes)
      then (0x3F01 : Dword).getLsbD (b - 8 * (0#2).toNat) else (State.reset.nic.reg 5).getLsbD b)
    ∧ (0x3F01 : Dword).getLsbD 0 = true ∧ State.reset.nic.eeprom[0x3F01 / 256 % 256]? = some 0xFE34
    ∧ (0x4001 : Dword).getLsbD 0 = true ∧ 64 ≤ 0x4001 / 256 % 256 ∧ (0x0500 : Dword).getLsbD 0 = false :=
  ⟨fun b hb => (show nicMerged (State.reset.nic.reg 5) 0 .b4 0x3F01 = 0x3F01 by decide) ▸ nicMerged_bit _ _ _ _ b hb,
    by decide⟩

/-- A cause write of one byte in lane 1. -/
theorem witness_lane : ∀ b, b < 32 → (0x8000 : Dword).getLsbD b =
    (decide (8 * (1#2).toNat ≤ b ∧ b < 8 * ((1#2).toNat + NicWidth.b1.bytes))
      && (0x80 : Dword).getLsbD (b - 8 * (1#2).toNat)) :=
  fun b hb => (show nicLaneValue 1 .b1 0x80 = 0x8000 by decide) ▸ nicLaneValue_bit _ _ _ b hb

/-- Linear reads that succeed: across the 32-bit wrap (M-1), and in protected and long mode, with and without
translation; one whose fifth byte faults (M-3). -/
theorem witness_linear_read :
    linBytes Params.default (holding [(0xFFFFFFFE, 2, 0x2211), (0, 2, 0x4433)]).mem .real noPaging 0xFFFFFFFE 4
      = .ok 0x44332211
    ∧ linRead Params.default (holding [(0xFFFFFFFC, 4, 0x44332211), (0, 4, 0x88776655)]).mem .prot off 0xFFFFFFFC 8
      = .ok 0x8877665544332211
    ∧ linRead Params.default (holding [(0x1000, 4, 0x2007), (0x2014, 4, 0x5005), (0x5120, 8, 0x8877665544332211)]).mem
        .prot onT1 0x5120 8 = .ok 0x8877665544332211
    ∧ linRead Params.default (holding [(0xFFFFFFFFFFFFFFFC, 4, 0x44332211), (0, 4, 0x88776655)]).mem .long off
        0xFFFFFFFFFFFFFFFC 8 = .ok 0x8877665544332211
    ∧ linBytes Params.default t1.mem .prot onT1 0x5FFC 8 = .error (.pageFault 0x6000 0)
    ∧ linRead Params.default t1.mem .prot onT1 0x5FFC 8 = .error (.pageFault 0x6000 0) := by decide

/-- Guest memory whose accessor fails some bytes, its failures being Booleans. -/
def failing (s : State) (base size : Nat) : GuestMem Bool :=
  { cells := s.mem.cells, rules := [.region base size true] }

/-- For each read of each walk, an accessor that fails exactly it: the first, second, third and fourth of the 4-level
walk, the three of PAE, the two of 2-level. -/
theorem witness_failing_entries :
    (∀ a ∈ [0x100008, 0x101008, 0x102008, 0x103008],
      (failing t3 a 1).failure a 8 = some true
      ∧ translate Params.default (failing t3 a 1) 0x8040201ABC .read 0 cfgLong 0x100000 = .error (.memError true))
    ∧ (∀ a ∈ [0x3000, 0x4000, 0x6008], (failing t2 a 1).failure a 8 = some true
      ∧ translate Params.default (failing t2 a 1) 0x1ABC .read 3 cfgPae 0x3000 = .error (.memError true))
    ∧ (∀ a ∈ [0x1000, 0x2014], (failing t1 a 1).failure a 4 = some true
      ∧ translate Params.default (failing t1 a 1) 0x5123 .read 3 cfg0 0x1000 = .error (.memError true)) := by decide

/-- An accessor that fails the last byte of an entry, for each resolver, and the second half's first byte for a
long-mode gate; and a limit that stops the same read. -/
theorem witness_failing_gates :
    resolveReal Params.default (failing State.reset 0x23 1) 8 0 = .error (.memError true)
    ∧ resolveProt Params.default (failing State.reset 0x47 1) 8 0 0x47 off = .error (.memError true)
    ∧ resolveProt Params.default (failing State.reset 0x47 1) 8 0 0x46 off = .error (.generalProtection 0x42)
    ∧ resolveProt Params.default (failing t1 0x5000 1) 0 0x5000 0x7FF onT1 = .error (.memError true)
    ∧ resolveLong Params.default (failing State.reset 0x87 1) 8 0 0x8F off = .error (.memError true)
    ∧ resolveLong Params.default (failing State.reset 0x88 1) 8 0 0x8F off = .error (.memError true) := by decide

/-- Memory that fails the third byte of a real-mode entry. -/
theorem witness_real_mode_failure : ask (.dpResolveReal 8 0)
    (State.reset.setMem { cells := [], rules := [.region 0x22 1 { code := 3 }] }) = .raised (.memError { code := 3 }) := by
  decide

/-- The largest vector's fault code fits with the default scale and with the largest that does. -/
theorem witness_fault_code_fits : (0xFF#8).toNat * Params.default.lmGpScale + 2 < 2 ^ 16
    ∧ (0xFF#8).toNat * 256 + 2 < 2 ^ 16 := by decide

/-- Limits on both sides of the tests (DQ-9, DQ-10, DL-4, DL-5), and reads that end well and with a failure. -/
theorem witness_resolver_limits : (0x76#16).toNat < (0x0E#8).toNat * 8 + 7 ∧ (0x0E#8).toNat * 8 + 7 ≤ (0x77#16).toNat
    ∧ (0xEFE#16).toNat < (0xEF#8).toNat * 16 + 15 ∧ (0xEF#8).toNat * 16 + 15 ≤ (0xEFF#16).toNat
    ∧ linRead Params.default t1.mem .prot onT1 0x6000 8 = .error (.pageFault 0x6000 0)
    ∧ linRead Params.default State.reset.mem .prot off 0x10000 8 = .ok 0
    ∧ linRead Params.default State.reset.mem .long off 0x20000 8 = .ok 0
    ∧ linRead Params.default t3.mem .long onT3 0x8040202000 8 = .error (.pageFault 0x8040202000 0) := by decide

theorem witness_resolver_page_fault : ∃ t, exec (.dpResolve .prot 0 0x6000 0x7FF onT1) t1 = .next t
    ∧ t.reply = .raised (.pageFault 0x6000 0) := ⟨_, rfl, by decide⟩

end Sys2Proof.Tests
end

section
/-! PROOF. Family 10_state.md: the power-on values (O10). -/

namespace Sys2Proof.Machine

/-! ### The MAC address registers as numbers -/

/-- A concatenation as a number: the left part counts in units of the right part's range. -/
theorem toNat_append_eq_add {n m : Nat} (x : BitVec n) (y : BitVec m) :
    (x ++ y).toNat = x.toNat * 2 ^ m + y.toNat := by
  rw [BitVec.toNat_append, ← Nat.shiftLeft_add_eq_or_of_lt y.isLt, Nat.shiftLeft_eq]

/-- RAL0 at power-on as the weighted sum of its MAC bytes (R37). -/
theorem Mac.ral_eq_ofNat (a : Mac) :
    a.ral = BitVec.ofNat 32 (a.b0.toNat + a.b1.toNat * 2 ^ 8 + a.b2.toNat * 2 ^ 16 + a.b3.toNat * 2 ^ 24) := by
  have hsum : a.ral.toNat = a.b0.toNat + a.b1.toNat * 2 ^ 8 + a.b2.toNat * 2 ^ 16 + a.b3.toNat * 2 ^ 24 := by
    simp only [Mac.ral, toNat_append_eq_add]
    omega
  rw [← hsum, BitVec.ofNat_toNat, BitVec.setWidth_eq]

/-- RAH0 at power-on as the weighted sum of its MAC bytes and the address-valid bit (R37). -/
theorem Mac.rah_eq_ofNat (a : Mac) (av : Bool) :
    a.rah av = BitVec.ofNat 32 (a.b4.toNat + a.b5.toNat * 2 ^ 8 + (if av then 2 ^ 31 else 0)) := by
  have hsum : (a.rah av).toNat = a.b4.toNat + a.b5.toNat * 2 ^ 8 + (BitVec.ofBool av).toNat * 2 ^ 31 := by
    simp only [Mac.rah, toNat_append_eq_add, BitVec.toNat_zero]
    omega
  have hbit : (BitVec.ofBool av).toNat * 2 ^ 31 = if av then 2 ^ 31 else 0 := by cases av <;> rfl
  rw [← hbit, ← hsum, BitVec.ofNat_toNat, BitVec.setWidth_eq]

/-! ### The chips, the channels and the registers at power-on -/

/-- Either chip of the pair at power-on (R29). -/
theorem State.powerOn_chip (p : Params) (mac : Mac) (eeprom : List Half) (c : Chip) :
    (State.powerOn p mac eeprom).pic.chip c = PicChip.powerOn := by
  cases c with
  | master => rfl
  | slave => rfl

/-- Each timer channel at power-on (R33). -/
theorem State.powerOn_chan (p : Params) (mac : Mac) (eeprom : List Half) (c : PitChan) :
    (State.powerOn p mac eeprom).pit.chan c = PitChannel.powerOn := by
  cases c with
  | c0 => rfl
  | c1 => rfl
  | c2 => rfl

/-- Every NIC register at power-on, the MAC bytes being written out as R37 weighs them. -/
theorem State.powerOn_nic_reg (p : Params) (mac : Mac) (eeprom : List Half) (hd : p.nicMap.indexes.Nodup)
    (i : BitVec 15) :
    (State.powerOn p mac eeprom).nic.reg i =
      if i = p.nicMap.status then p.nicStatus
      else if i = p.nicMap.ral0 then
        BitVec.ofNat 32 (mac.b0.toNat + mac.b1.toNat * 2 ^ 8 + mac.b2.toNat * 2 ^ 16 + mac.b3.toNat * 2 ^ 24)
      else if i = p.nicMap.rah0 then
        BitVec.ofNat 32 (mac.b4.toNat + mac.b5.toNat * 2 ^ 8 + (if p.nicRahAv then 2 ^ 31 else 0))
      else 0 := by
  rw [← Mac.ral_eq_ofNat, ← Mac.rah_eq_ofNat]
  exact Nic.reg_powerOn p mac eeprom hd i

/-- Settles O10, device by device; that the named registers are distinct is the part of a legal configuration that
the register file needs (R120). -/
theorem powerOnValues : Obligations.PowerOnValues := by
  unfold Obligations.PowerOnValues
  intro p mac eeprom hp
  obtain ⟨-, hregs⟩ := hp
  exact ⟨State.powerOn_chip p mac eeprom, State.powerOn_chan p mac eeprom, State.powerOn_nic_reg p mac eeprom hregs,
    rfl, rfl, rfl, rfl, rfl⟩

end Sys2Proof.Machine
end

section
/-! PROOF. Family 20_memory.md: every operation completes in one step (O7). The one fact behind it is what an
operation can write: a reply, and the state of at most one of the four devices. -/

namespace Sys2Proof.Machine

/-! ### How far one operation reaches -/

/-- The ways an operation started in `s` can end: with a reply alone, which may be a fault outcome, or with one
device written and a reply that is no fault outcome (R12, R66, R403). -/
inductive WritesAtMostOneDevice (s : State) : Host.Outcome State Fault Refusal → Prop where
  | none (r : Reply) : WritesAtMostOneDevice s (s.finish r)
  | pic (p : Pic) (r : Reply) (hr : r.isRaised = false) : WritesAtMostOneDevice s ((s.setPic p).finish r)
  | pit (t : Pit) (r : Reply) (hr : r.isRaised = false) : WritesAtMostOneDevice s ((s.setPit t).finish r)
  | nic (n : Nic) (r : Reply) (hr : r.isRaised = false) : WritesAtMostOneDevice s ((s.setNic n).finish r)
  | dp (d : Dp) (r : Reply) (hr : r.isRaised = false) : WritesAtMostOneDevice s ((s.setDp d).finish r)

/-- Such an end is a next state, and the devices hold neither guest memory, nor a parameter, nor the calls to come. -/
theorem WritesAtMostOneDevice.next_frame {s : State} {o : Host.Outcome State Fault Refusal}
    (h : WritesAtMostOneDevice s o) : ∃ t, o = .next t ∧ t.mem = s.mem ∧ t.par = s.par ∧ t.inbox = s.inbox := by
  cases h with
  | none r => exact ⟨_, s.finish_eq r, rfl, rfl, rfl⟩
  | pic p r hr => exact ⟨_, (s.setPic p).finish_eq r, s.setPic_mem p, s.setPic_par p, s.setPic_inbox p⟩
  | pit t r hr => exact ⟨_, (s.setPit t).finish_eq r, s.setPit_mem t, s.setPit_par t, s.setPit_inbox t⟩
  | nic n r hr => exact ⟨_, (s.setNic n).finish_eq r, s.setNic_mem n, s.setNic_par n, s.setNic_inbox n⟩
  | dp d r hr => exact ⟨_, (s.setDp d).finish_eq r, s.setDp_mem d, s.setDp_par d, s.setDp_inbox d⟩

/-! ### The meanings that branch -/

/-- An operation that reads guest memory writes no device, whether the read succeeds or fails (R12). -/
theorem State.conclude_writesAtMostOneDevice {α : Type} (s : State) (r : Except Raised α) (f : α → Reply) :
    WritesAtMostOneDevice s (s.conclude r f) := by
  obtain ⟨x, hx⟩ := s.conclude_next r f
  rw [hx, ← s.finish_eq x]
  exact .none x

/-- The execution mode selects among three resolvers, each of which only reads guest memory (R385). -/
theorem execDpResolve_writesAtMostOneDevice (mode : ExecMode) (v : Byte) (base : Quad) (limit : Half) (tc : TransCtx)
    (s : State) : WritesAtMostOneDevice s (execDpResolve mode v base limit tc s) := by
  cases mode with
  | real => exact s.conclude_writesAtMostOneDevice ..
  | prot => exact s.conclude_writesAtMostOneDevice ..
  | long => exact s.conclude_writesAtMostOneDevice ..

/-- A NIC read of a wrong width or past the window changes nothing (R302); any other may clear ICR (R305, R316). -/
theorem execNicRead_writesAtMostOneDevice (off : Quad) (w : Nat) (s : State) :
    WritesAtMostOneDevice s (execNicRead off w s) := by
  unfold execNicRead
  split
  · exact .none _
  · split
    · exact .nic _ _ rfl
    · exact .none _

/-- A NIC write of a wrong width or past the window changes nothing (R302); any other is a register's (R306). -/
theorem execNicWrite_writesAtMostOneDevice (off : Quad) (w : Nat) (v : Quad) (s : State) :
    WritesAtMostOneDevice s (execNicWrite off w v s) := by
  unfold execNicWrite
  split
  · exact .none _
  · split
    · exact .nic _ _ rfl
    · exact .none _

/-! ### Every operation -/

/-- Which device each of the 50 operations may write, by the block's parts. -/
theorem exec_writesAtMostOneDevice (i : Instr) (s : State) : WritesAtMostOneDevice s (exec i s) := by
  cases i with
  -- the address translation unit and the gate resolvers, which read guest memory
  | translate | dpResolveReal | dpResolveProt | dpResolveLong => exact s.conclude_writesAtMostOneDevice ..
  | dpResolve mode v base limit tc => exact execDpResolve_writesAtMostOneDevice mode v base limit tc s
  -- the PIC pair
  | picIcw1 | picIcw2 | picIcw3 | picIcw4 | picOcw1 | picOcw2Nseoi | picOcw2Seoi | picOcw3Rr | picRaise | picLower
  | picAck => exact .pic _ _ rfl
  | picOcw2Other | picOcw3Norr | picReadCmd | picReadData | picResolve => exact .none _
  -- the interval timer
  | pitCtrlMode | pitCtrlLatch | pitCountWrite | pitCountRead | pitTick | pitSetGate => exact .pit _ _ rfl
  | pitCtrlReadback | pitCtrlRead => exact .none _
  -- the NIC
  | nicRead off w => exact execNicRead_writesAtMostOneDevice off w s
  | nicWrite off w v => exact execNicWrite_writesAtMostOneDevice off w v s
  | nicCtrlW | nicEerdW | nicIcrW | nicIcsW | nicImsW | nicImcW | nicIcrR | nicPlainW | nicReceive | nicDrainTx
  | nicQueueTx => exact .nic _ _ rfl
  | nicStatusW | nicIrqLevel => exact .none _
  -- the delivery pipeline
  | dpRaise | dpAck | dpSetShadow | dpSetHandling => exact .dp _ _ rfl
  | dpSample | dpGetHandling => exact .none _

/-- Settles O7: each operation ends with a reply and at most one device written, and no such end touches guest
memory, the parameters or the inbox. -/
theorem everyOperationCompletesInOneStep : Obligations.EveryOperationCompletesInOneStep := by
  unfold Obligations.EveryOperationCompletesInOneStep
  intro i s
  exact (exec_writesAtMostOneDevice i s).next_frame

end Sys2Proof.Machine
end

section
/-! PROOF. Family 41_translation.md: every outcome of the three walkers (O19 to O21), and that a walk uses only the low
bits of the linear address (O25).

The reply of a walk is found by one rule for each thing a walker does: read an entry, test it, branch on the page size,
arrive at the mapping level. A walker's proof is the composition of these rules in the walker's own shape. -/

namespace Sys2Proof.Machine

variable {E : Type}

/-! ### The walk a translation makes, and its reply -/

/-- The walk `TRANSLATE` starts (R150, R154). -/
def Walk.start (p : Params) (la : Quad) (kind : AccessKind) (cpl : BitVec 2) (cfg : TransCfg) : Walk :=
  { la := la, kind := kind, user := isUser cpl, cfg := cfg, scope := p.permScope }

/-- The walker selection of R151. -/
theorem translate_eq_walk (p : Params) (g : GuestMem E) (la : Quad) (kind : AccessKind) (cpl : BitVec 2)
    (cfg : TransCfg) (cr3 : Quad) :
    translate p g la kind cpl cfg cr3 =
      if cfg.long then walk4 p g (Walk.start p la kind cpl cfg) cr3
      else if cfg.pae then walkPae p g (Walk.start p la kind cpl cfg) cr3
      else walk2 g (Walk.start p la kind cpl cfg) cr3 := rfl

/-- The reply of `TRANSLATE` from what its walk ends with (R12, R150). -/
def walkReply : Except Raised Quad → Reply
  | .ok a => .pa a
  | .error e => .raised e

/-- `TRANSLATE` replies what its walk ends with and changes nothing else (R175). -/
theorem exec_translate_eq (la : Quad) (kind : AccessKind) (cpl : BitVec 2) (cfg : TransCfg) (cr3 : Quad) (s : State) :
    exec (.translate la kind cpl cfg cr3) s =
      .next { s with reply := walkReply (translate s.par s.mem la kind cpl cfg cr3) } :=
  execTranslate_eq la kind cpl cfg cr3 s

/-! ### The rights tests that `PerLevelInOrder` has made -/

/-- The rights of these entries were tested on the way and none was refused; `Combined` tests none there (R171). -/
def Walk.Passed (q : Walk) (nx : Bool) (es : List Quad) : Prop :=
  q.scope = .perLevelInOrder → q.denied es nx = false

theorem Walk.Passed.cons {q : Walk} {nx : Bool} {e : Quad} {es : List Quad} (he : q.Passed nx [e])
    (hes : q.Passed nx es) : q.Passed nx (e :: es) := by
  intro hs
  rw [Walk.denied_cons, he hs, hes hs]
  rfl

/-! ### One rule for each thing a walker does -/

/-- What a walk reports, in the terms of the statements: `denied` is its rights check, and `pf` the reply of its fault
by the P bit (R157, R158). -/
structure Walk.Reports (q : Walk) (nx : Bool) (denied : List Quad → Bool) (pf : Nat → Reply) : Prop where
  denied_eq : ∀ es, q.denied es nx = denied es
  absent    : walkReply (q.fault false) = pf 0
  refused   : walkReply (q.fault true) = pf 1

/-- Reading an entry replies the accessor's failure, or what follows does (R157). -/
theorem walkReply_entry {g : GuestMem} {pa : Quad} {n : Nat} {f : Quad → Except Raised Quad} {k : Reply}
    (h : walkReply (f (BitVec.ofNat 64 (g.cells.readLE pa.toNat n))) = k) :
    walkReply (readEntry g pa n >>= f) =
      match g.failure pa.toNat n with
      | some e => .raised (.memError e)
      | none => k := by
  rw [readEntry_eq]
  cases g.failure pa.toNat n with
  | some e => rfl
  | none => exact h

/-- The page-size bit selects between a mapping and a next level. -/
theorem walkReply_ite {b : Bool} {x y : Except Raised Quad} {k l : Reply} (hx : walkReply x = k)
    (hy : walkReply y = l) : walkReply (if b then x else y) = if b then k else l := by
  cases b with
  | true => exact hx
  | false => exact hy

section
variable {q : Walk} {nx : Bool} {denied : List Quad → Bool} {pf : Nat → Reply}

/-- An entry without rights of its own, as the PAE root, is tested for presence alone (R170). -/
theorem Walk.Reports.present (hq : q.Reports nx denied pf) {x : Quad} {f : Unit → Except Raised Quad} {k : Reply}
    (h : walkReply (f ()) = k) :
    walkReply (q.present x >>= f) = if !x.getLsbD 0 then pf 0 else k := by
  obtain ⟨hx, hp⟩ | ⟨hx, hp⟩ := q.present_eq (E := MemError) x <;> rw [hp, show x.getLsbD 0 = _ from hx]
  · exact h
  · exact hq.absent

/-- An entry with rights is tested for presence and, with `PerLevelInOrder`, for its rights (R170, R171). -/
theorem Walk.Reports.visit (hq : q.Reports nx denied pf) {x : Quad} {f : Unit → Except Raised Quad} {k : Reply}
    (h : q.Passed nx [x] → walkReply (f ()) = k) :
    walkReply (q.visit x nx >>= f) =
      if !x.getLsbD 0 then pf 0
      else if decide (q.scope = .perLevelInOrder) && denied [x] then pf 1
      else k := by
  rw [Walk.visit_eq, hq.denied_eq, flag]
  cases x.getLsbD 0 with
  | false => exact hq.absent
  | true =>
    by_cases hr : q.scope = .perLevelInOrder ∧ denied [x] = true
    · simpa [hr, bind, Except.bind, Walk.fault] using hq.refused
    · have hpass : q.Passed nx [x] := fun hs => by simpa [hq.denied_eq, hs] using hr
      simpa [hr, bind, Except.bind] using h hpass

/-- At the mapping level the rights of all entries decide, whichever of them were tested before (R170, R171). -/
theorem Walk.Reports.arrive (hq : q.Reports nx denied pf) {es : List Quad} {a : Quad} (hes : q.Passed nx es) :
    walkReply (q.arrive es nx >>= fun _ => .ok a) = if denied es then pf 1 else .pa a := by
  rw [Walk.arrive_eq, ← hq.denied_eq]
  cases hd : q.denied es nx with
  | false => simp [walkReply, bind, Except.bind]
  | true =>
    have hc : q.scope = .combined := by
      cases hs : q.scope with
      | combined => rfl
      | perLevelInOrder => exact absurd (hes hs) (by simp [hd])
    simpa [hc, bind, Except.bind, Walk.fault] using hq.refused

/-- The last level: its entry's tests and the mapping level's refuse with the same fault (R170, R171). -/
theorem Walk.Reports.leaf (hq : q.Reports nx denied pf) {x : Quad} {es : List Quad} {a : Quad}
    (hes : q.Passed nx [x] → q.Passed nx es) :
    walkReply (do q.visit x nx; q.arrive es nx; .ok a) =
      if !x.getLsbD 0 then pf 0
      else if decide (q.scope = .perLevelInOrder) && denied [x] || denied es then pf 1
      else .pa a := by
  rw [hq.visit fun hx => hq.arrive (hes hx)]
  cases decide (q.scope = .perLevelInOrder) && denied [x] <;> rfl

end

/-! ### The check and the fault of each entry format -/

/-- The 4-byte formats have no execute-disable bit, and their faults no fetch bit (R140, R158). -/
theorem Walk.start_reports_narrow {p : Params} {la : Quad} {kind : AccessKind} {cpl : BitVec 2} {cfg : TransCfg}
    (hlong : cfg.long = false) (hpae : cfg.pae = false) :
    (Walk.start p la kind cpl cfg).Reports false
      (fun es => (cpl == 3 && es.any (fun e => !e.getLsbD 2))
        || (decide (kind = .write) && es.any (fun e => !e.getLsbD 1) && (cpl == 3 || cfg.wp)))
      (fun b => .raised (.pageFault la (BitVec.ofNat 32
        (b + (if kind = .write then 2 else 0) + (if cpl = 3 then 4 else 0))))) := by
  have code (b : Bool) : errorCode kind (isUser cpl) cfg b = BitVec.ofNat 32
      (b.toNat + (if kind = .write then 2 else 0) + (if cpl = 3 then 4 else 0)) := by
    simp [errorCode_bits, isUser, fetchBit, hlong, hpae]
  exact ⟨fun es => by simp only [Walk.denied, Bool.false_and, Bool.and_false, Bool.or_false]; rfl,
    congrArg (fun c => Reply.raised (.pageFault la c)) (code false),
    congrArg (fun c => Reply.raised (.pageFault la c)) (code true)⟩

/-- The 8-byte formats have an execute-disable bit in force with `cfg.nxe` (R140, R158). -/
theorem Walk.start_reports_wide {p : Params} {la : Quad} {kind : AccessKind} {cpl : BitVec 2} {cfg : TransCfg}
    (hwide : cfg.pae = true ∨ cfg.long = true) :
    (Walk.start p la kind cpl cfg).Reports true
      (fun es => (cpl == 3 && es.any (fun e => !e.getLsbD 2))
        || (decide (kind = .write) && es.any (fun e => !e.getLsbD 1) && (cpl == 3 || cfg.wp))
        || (decide (kind = .execute) && cfg.nxe && es.any (fun e => e.getLsbD 63)))
      (fun b => .raised (.pageFault la (BitVec.ofNat 32
        (b + (if kind = .write then 2 else 0) + (if cpl = 3 then 4 else 0)
          + (if kind = .execute ∧ cfg.nxe = true then 16 else 0))))) := by
  have code (b : Bool) : errorCode kind (isUser cpl) cfg b = BitVec.ofNat 32
      (b.toNat + (if kind = .write then 2 else 0) + (if cpl = 3 then 4 else 0)
        + (if kind = .execute ∧ cfg.nxe = true then 16 else 0)) := by
    simp [errorCode_bits, isUser, fetchBit, hwide]
  exact ⟨fun es => by simp only [Walk.denied, Bool.and_assoc, Bool.true_and]; rfl,
    congrArg (fun c => Reply.raised (.pageFault la c)) (code false),
    congrArg (fun c => Reply.raised (.pageFault la c)) (code true)⟩

/-! ### The three walkers -/

/-- Settles O19: `WALK2` reads and tests the PDE, and maps a large page or does the same with the PTE. -/
theorem twoLevelWalk : Obligations.TwoLevelWalk := by
  unfold Obligations.TwoLevelWalk
  intro s la kind cpl cfg cr3 hlong hpae
  have hq := Walk.start_reports_narrow (p := s.par) (la := la) (kind := kind) (cpl := cpl) hlong hpae
  rw [exec_translate_eq, translate_eq_walk, hlong, hpae]
  refine congrArg (fun r => Host.Outcome.next { s with reply := r }) ?_
  exact walkReply_entry (hq.visit fun hpde =>
    walkReply_ite (hq.arrive hpde) (walkReply_entry (hq.leaf fun hpte => hpde.cons hpte)))

/-- Settles O20: `WALKPAE` tests the root entry for presence alone, then goes on as `WALK2` with the wide formats. -/
theorem paeWalk : Obligations.PaeWalk := by
  unfold Obligations.PaeWalk
  intro s la kind cpl cfg cr3 hlong hpae
  have hq := Walk.start_reports_wide (p := s.par) (la := la) (kind := kind) (cpl := cpl) (.inl hpae)
  rw [exec_translate_eq, translate_eq_walk, hlong, hpae]
  refine congrArg (fun r => Host.Outcome.next { s with reply := r }) ?_
  exact walkReply_entry (hq.present (walkReply_entry (hq.visit fun hpde =>
    walkReply_ite (hq.arrive hpde) (walkReply_entry (hq.leaf fun hpte => hpde.cons hpte)))))

/-- Settles O21: `WALK4` reads and tests an entry at each of its four levels, and may map at the second or third. -/
theorem fourLevelWalk : Obligations.FourLevelWalk := by
  unfold Obligations.FourLevelWalk
  intro s la kind cpl cfg cr3 hlong
  have hq := Walk.start_reports_wide (p := s.par) (la := la) (kind := kind) (cpl := cpl) (.inr hlong)
  rw [exec_translate_eq, translate_eq_walk, hlong]
  refine congrArg (fun r => Host.Outcome.next { s with reply := r }) ?_
  exact walkReply_entry (hq.visit fun h4 => walkReply_entry (hq.visit fun h3 =>
    walkReply_ite (hq.arrive (h4.cons h3)) (walkReply_entry (hq.visit fun h2 =>
      walkReply_ite (hq.arrive (h4.cons (h3.cons h2))) (walkReply_entry (hq.leaf fun h1 =>
        h4.cons (h3.cons (h2.cons h1))))))))

/-! ### The bits of the linear address a walk uses -/

/-- A field of the linear address depends only on the low bits that hold it (R10, R130 to R132). -/
theorem slice_eq_of_low_eq {n lo len : Nat} {la la' : Quad} (h : la.extractLsb' 0 n = la'.extractLsb' 0 n)
    (hn : lo + len ≤ n) : slice la lo len = slice la' lo len := by
  have field (v : Quad) : (v.extractLsb' 0 n).extractLsb' lo len = v.extractLsb' lo len := by
    ext i hi
    simp [show lo + i < n by omega]
  rw [slice, slice, ← field la, ← field la', h]

/-- The failure with a page fault's address replaced. -/
def Raised.atAddress (a : Quad) : Raised E → Raised E
  | .pageFault _ ec => .pageFault a ec
  | e => e

/-- The result of a walk with the address of its page fault replaced. -/
def faultingAt {α : Type} (a : Quad) (r : Except (Raised E) α) : Except (Raised E) α :=
  r.mapError (Raised.atAddress a)

@[simp] theorem faultingAt_bind {α β : Type} (a : Quad) (r : Except (Raised E) α) (f : α → Except (Raised E) β) :
    faultingAt a (r >>= f) = faultingAt a r >>= fun x => faultingAt a (f x) := by
  cases r <;> rfl

@[simp] theorem faultingAt_ite {α : Type} (a : Quad) (c : Prop) [Decidable c] (x y : Except (Raised E) α) :
    faultingAt a (if c then x else y) = if c then faultingAt a x else faultingAt a y :=
  apply_ite (faultingAt a) c x y

@[simp] theorem faultingAt_ok {α : Type} (a : Quad) (x : α) :
    faultingAt a (.ok x : Except (Raised E) α) = .ok x := rfl

@[simp] theorem faultingAt_fault {α : Type} (a : Quad) (q : Walk) (b : Bool) :
    faultingAt a (q.fault b : Except (Raised E) α) = Walk.fault { q with la := a } b := rfl

/-- Reading an entry raises no page fault (R157). -/
@[simp] theorem faultingAt_readEntry (a : Quad) (g : GuestMem E) (pa : Quad) (n : Nat) :
    faultingAt a (readEntry g pa n) = readEntry g pa n := by
  rw [readEntry_eq]
  cases g.failure pa.toNat n <;> rfl

/-- The tests of an entry use the linear address only for their fault (R170, R173). -/
@[simp] theorem faultingAt_present (a : Quad) (q : Walk) (e : Quad) :
    faultingAt a (q.present e : Except (Raised E) Unit) = Walk.present { q with la := a } e := by
  unfold Walk.present
  rw [faultingAt_ite, faultingAt_ok, faultingAt_fault]

@[simp] theorem faultingAt_visit (a : Quad) (q : Walk) (e : Quad) (nx : Bool) :
    faultingAt a (q.visit e nx : Except (Raised E) Unit) = Walk.visit { q with la := a } e nx := by
  simp only [Walk.visit_eq, faultingAt_ite, faultingAt_fault, faultingAt_ok]
  rfl

@[simp] theorem faultingAt_arrive (a : Quad) (q : Walk) (es : List Quad) (nx : Bool) :
    faultingAt a (q.arrive es nx : Except (Raised E) Unit) = Walk.arrive { q with la := a } es nx := by
  simp only [Walk.arrive_eq, faultingAt_ite, faultingAt_fault, faultingAt_ok]
  rfl

/-- The 2-level walker uses bits 31:0 (R152). -/
theorem walk2_at_eq (g : GuestMem E) (q : Walk) (cr3 : Quad) {la' : Quad}
    (h : q.la.extractLsb' 0 32 = la'.extractLsb' 0 32) :
    walk2 g { q with la := la' } cr3 = faultingAt la' (walk2 g q cr3) := by
  simp (disch := omega) [walk2, slice_eq_of_low_eq h]

/-- The PAE walker uses bits 31:0 (R152). -/
theorem walkPae_at_eq (p : Params) (g : GuestMem E) (q : Walk) (cr3 : Quad) {la' : Quad}
    (h : q.la.extractLsb' 0 32 = la'.extractLsb' 0 32) :
    walkPae p g { q with la := la' } cr3 = faultingAt la' (walkPae p g q cr3) := by
  simp (disch := omega) [walkPae, slice_eq_of_low_eq h]

/-- The 4-level walker uses bits 47:0 (R152). -/
theorem walk4_at_eq (p : Params) (g : GuestMem E) (q : Walk) (cr3 : Quad) {la' : Quad}
    (h : q.la.extractLsb' 0 48 = la'.extractLsb' 0 48) :
    walk4 p g { q with la := la' } cr3 = faultingAt la' (walk4 p g q cr3) := by
  simp (disch := omega) [walk4, slice_eq_of_low_eq h]

/-- A translation of another address with the same used bits ends as the first, its page fault carrying the other
address (R152, R173). -/
theorem translate_at_eq (p : Params) (g : GuestMem E) (la la' : Quad) (kind : AccessKind) (cpl : BitVec 2)
    (cfg : TransCfg) (cr3 : Quad)
    (h : if cfg.long then la.extractLsb' 0 48 = la'.extractLsb' 0 48
      else la.extractLsb' 0 32 = la'.extractLsb' 0 32) :
    translate p g la' kind cpl cfg cr3 = faultingAt la' (translate p g la kind cpl cfg cr3) := by
  rw [translate_eq_walk, translate_eq_walk, faultingAt_ite, faultingAt_ite]
  cases hlong : cfg.long with
  | true =>
    rw [hlong] at h
    exact walk4_at_eq p g (Walk.start p la kind cpl cfg) cr3 h
  | false =>
    rw [hlong] at h
    cases cfg.pae with
    | true => exact walkPae_at_eq p g (Walk.start p la kind cpl cfg) cr3 h
    | false => exact walk2_at_eq g (Walk.start p la kind cpl cfg) cr3 h

/-- Settles O25: the walkers take the linear address only by fields of its low bits and by the faults they raise. -/
theorem unusedLinearAddressBitsAreIgnored : Obligations.UnusedLinearAddressBitsAreIgnored := by
  unfold Obligations.UnusedLinearAddressBitsAreIgnored
  intro E p g la la' kind cpl cfg cr3 h
  rw [translate_at_eq p g la la' kind cpl cfg cr3 h]
  cases translate p g la kind cpl cfg cr3 with
  | ok a => rfl
  | error e => cases e <;> rfl

end Sys2Proof.Machine
end

section
/-! PROOF. Family 42_pic.md: the initialization words (O27, O28), the operating commands (O29 to O32), the lines (O33),
resolution (O34) and acknowledgment (O36).

An operation on the pair either replaces one chip, or writes a request bit and recomputes the cascade bit. Its meaning
is said here as one of these two, and each obligation reads off the fields and bits. -/

namespace Sys2Proof.Machine

/-! ### One chip replaced -/

/-- Replacing a chip by itself changes nothing. -/
theorem Pic.setChip_chip (p : Pic) (c : Chip) : p.setChip c (p.chip c) = p := by
  cases c with
  | master => rfl
  | slave => rfl

/-- What an operation that replaces one chip does: that chip is the new one, the other is as before. -/
theorem Pic.setChip_replaces (p : Pic) (c : Chip) (x : PicChip) :
    (p.setChip c x).chip c = x ∧ ∀ d, d ≠ c → (p.setChip c x).chip d = p.chip d :=
  ⟨p.chip_setChip c x, fun d hd => p.chip_setChip_other c d x hd⟩

/-! ### Bits cleared, and the cascade bit -/

/-- Clearing a bit keeps the others (R10). -/
theorem getLsbD_withBit_false {w : Nat} (x : BitVec w) (n k : Nat) (hn : n < w) :
    (withBit x n false).getLsbD k = (x.getLsbD k && decide (k ≠ n)) := by
  rw [getLsbD_withBit x n k false hn]
  by_cases hk : k = n
  · simp [hk]
  · simp [hk]

/-- What `CASCADE_SYNC` leaves in each request bit of the master, by the lines of the slave (R201). -/
theorem Pic.cascadeSync_irr_eq_any (p : Pic) (k : Nat) :
    p.cascadeSync.m.irr.getLsbD k =
      if k = 2 then (List.range 8).any (fun j => p.s.irr.getLsbD j && !p.s.imr.getLsbD j)
      else p.m.irr.getLsbD k := by
  rw [Pic.cascadeSync_irr, Pic.pending_eq_any]

/-! ### Initialization words -/

/-- An ICW1 to the master leaves no request but the cascade's (R210). -/
theorem Pic.icw1_master_irr (p : Pic) (v : Byte) (n : Nat) :
    (p.icw1 .master v).m.irr.getLsbD n = (decide (n = 2) && (p.s.irr &&& ~~~p.s.imr) != 0) := by
  rw [Pic.icw1, Pic.cascadeSync_irr]
  by_cases hn : n = 2
  · simp [hn]
  · simp [hn]

/-- An ICW1 to the slave leaves no slave line pending, so it clears the cascade bit (R210). -/
theorem Pic.icw1_slave_irr (p : Pic) (v : Byte) (n : Nat) :
    (p.icw1 .slave v).m.irr.getLsbD n = (p.m.irr.getLsbD n && decide (n ≠ 2)) := by
  rw [Pic.icw1, Pic.cascadeSync_irr]
  by_cases hn : n = 2
  · simp [hn]
  · simp [hn]

/-- Settles O27: the chip is replaced by its reset, and only the cascade bit is then recomputed. -/
theorem icw1ResetsTheChip : Obligations.Icw1ResetsTheChip := by
  unfold Obligations.Icw1ResetsTheChip
  intro s c v
  refine ⟨s.pic.icw1 c v, rfl, ?_⟩
  cases c with
  | master => exact ⟨rfl, fun _ => ⟨rfl, s.pic.icw1_master_irr v⟩, nofun⟩
  | slave => exact ⟨rfl, nofun, fun _ => ⟨rfl, rfl, s.pic.icw1_slave_irr v⟩⟩

/-- Settles O28: each of the three words replaces its chip. -/
theorem initializationWords : Obligations.InitializationWords := by
  unfold Obligations.InitializationWords
  intro s c v
  exact ⟨fun _ => ⟨s.pic.icw2 s.par.icw2Mask c v, rfl, s.pic.setChip_replaces c _⟩,
    fun _ => ⟨s.pic.icw3 c v, rfl, s.pic.setChip_replaces c _⟩,
    fun _ => ⟨s.pic.icw4 c v, rfl, s.pic.setChip_replaces c _⟩⟩

/-! ### Operating commands -/

/-- Settles O29: the new mask is in place when the cascade bit is recomputed. -/
theorem maskWrite : Obligations.MaskWrite := by
  unfold Obligations.MaskWrite
  intro s v
  exact ⟨fun _ => rfl, fun _ => ⟨(s.pic.ocw1 .slave v).m.irr, rfl,
    fun n _ => Pic.cascadeSync_irr_eq_any (s.pic.setChip .slave { s.pic.s with imr := v }) n⟩⟩

/-- With the lowest set bit cleared, the bits left are those above a set bit (R10). -/
theorem getLsbD_clear_lowest {x : Byte} {l : Nat} (hl : lowest x = some l) (n : Nat) :
    (withBit x l false).getLsbD n = true ↔ x.getLsbD n = true ∧ ∃ j, j < n ∧ x.getLsbD j = true := by
  obtain ⟨hl8, hset, hleast⟩ := (lowest_eq_some x l).1 hl
  have least : ∀ j, x.getLsbD j = true → l ≤ j := fun j hj => by
    by_contra hlt
    rw [hleast j (by omega)] at hj
    exact Bool.noConfusion hj
  rw [getLsbD_withBit_false x l n hl8, Bool.and_eq_true, decide_eq_true_iff]
  refine and_congr_right fun hn => ⟨fun hne => ⟨l, ?_, hset⟩, ?_⟩
  · have := least n hn
    omega
  · rintro ⟨j, hjn, hj⟩
    have := least j hj
    omega

/-- A non-specific EOI replaces its chip by one whose in-service bits are those above a set one (R216). -/
theorem Pic.nseoi_eq_setChip (p : Pic) (c : Chip) :
    ∃ x, p.nseoi c = p.setChip c { p.chip c with isr := x } ∧ ∀ n, x.getLsbD n = true ↔
      (p.chip c).isr.getLsbD n = true ∧ ∃ j, j < n ∧ (p.chip c).isr.getLsbD j = true := by
  unfold Pic.nseoi
  split
  · next hnone =>
    refine ⟨(p.chip c).isr, (p.setChip_chip c).symm, fun n => ⟨fun hn => ?_, And.left⟩⟩
    rw [(lowest_eq_none _).1 hnone n (BitVec.lt_of_getLsbD hn)] at hn
    exact Bool.noConfusion hn
  · next l hsome => exact ⟨withBit (p.chip c).isr l false, rfl, getLsbD_clear_lowest hsome⟩

/-- Settles O30: both commands replace their chip by one with a bit of its in-service register cleared. -/
theorem endOfInterrupt : Obligations.EndOfInterrupt := by
  unfold Obligations.EndOfInterrupt
  intro s c v
  refine ⟨?_, ?_⟩
  · obtain ⟨x, heq, hbits⟩ := s.pic.nseoi_eq_setChip c
    obtain ⟨hc, hother⟩ := s.pic.setChip_replaces c { s.pic.chip c with isr := x }
    rw [← heq] at hc hother
    exact ⟨s.pic.nseoi c, x, rfl, hc, hother, hbits⟩
  · obtain ⟨hc, hother⟩ := s.pic.setChip_replaces c
      { s.pic.chip c with isr := withBit (s.pic.chip c).isr (v.extractLsb' 0 3).toNat false }
    have hline : (v.extractLsb' 0 3).toNat = v.toNat % 8 := by simp
    refine ⟨s.pic.seoi c v, _, rfl, hc, hother, fun n => ?_⟩
    rw [hline, getLsbD_withBit_false _ _ _ (by omega)]

/-- Settles O31: none of the four meanings writes more than the reply. -/
theorem commandsWithoutEffect : Obligations.CommandsWithoutEffect := by
  unfold Obligations.CommandsWithoutEffect
  intro s c v low
  exact ⟨s.finish_eq .unit, s.finish_eq .unit, s.finish_eq .unit, s.finish_eq (.byte 0)⟩

/-- A command-port read answers the register its select names (R221). -/
theorem exec_picReadCmd_eq (c : Chip) (s : State) : exec (.picReadCmd c) s =
    .next { s with reply := .byte (if (s.pic.chip c).readIsr then (s.pic.chip c).isr else (s.pic.chip c).irr) } := rfl

/-- Settles O32: the read select replaces its chip, and the command-port read branches on it. -/
theorem readSelectAndPortReads : Obligations.ReadSelectAndPortReads := by
  unfold Obligations.ReadSelectAndPortReads
  intro s c v
  refine ⟨⟨s.pic.selectRead c v, rfl, s.pic.setChip_replaces c _⟩, fun hsel => ?_, fun hsel => ?_, rfl⟩
  · simp [exec_picReadCmd_eq, hsel]
  · simp [exec_picReadCmd_eq, hsel]

/-! ### Lines -/

/-- A line is the master's, the slave's or none (D29). -/
theorem line_range (n : Nat) : n < 8 ∨ (8 ≤ n ∧ n < 16) ∨ 16 ≤ n := by omega

/-- A line's write reaches the two request registers and nothing else (R225, R226). -/
theorem Pic.line_frame (p : Pic) (n : Nat) (level : Bool) :
    (p.line n level).m = { p.m with irr := (p.line n level).m.irr }
    ∧ (p.line n level).s = { p.s with irr := (p.line n level).s.irr } := by
  obtain hn | ⟨h8, hn⟩ | hn := line_range n
  · rw [p.line_master n level hn]
    exact ⟨rfl, rfl⟩
  · rw [p.line_slave n level h8 hn]
    exact ⟨rfl, rfl⟩
  · rw [p.line_none n level hn]
    exact ⟨rfl, rfl⟩

/-- Settles O33, by the range of the line. -/
theorem raiseAndLowerALine : Obligations.RaiseAndLowerALine := by
  unfold Obligations.RaiseAndLowerALine
  intro s n level
  have hexec : exec (if level then .picRaise n else .picLower n) s
      = .next { s with pic := s.pic.line n level, reply := .unit } := by
    cases level with
    | true => rfl
    | false => rfl
  obtain ⟨hm, hs⟩ := s.pic.line_frame n level
  refine ⟨s.pic.line n level, hexec, hm, hs, fun hn => ?_, fun h8 hn => ?_, s.pic.line_none n level⟩
  · rw [s.pic.line_master n level hn]
    exact ⟨rfl, fun k _ => getLsbD_withBit _ _ _ _ hn⟩
  · rw [s.pic.line_slave n level h8 hn]
    exact ⟨fun k _ => getLsbD_withBit _ _ _ _ (by omega), fun k _ => Pic.cascadeSync_irr_eq_any _ k⟩

/-! ### Resolution -/

/-- The vector of a line, as a number taken modulo 256 (R103). -/
theorem PicChip.vector_eq_ofNat (x : PicChip) (n : Nat) : x.vector n = BitVec.ofNat 8 (x.offset.toNat + n) := by
  rw [PicChip.vector, BitVec.ofNat_add, BitVec.ofNat_toNat, BitVec.setWidth_eq]

/-- The answer where the master has no candidate (R228). -/
theorem Pic.resolve_of_none (p : Pic) (h : lowest p.m.eligible = none) : p.resolve = none := by
  rw [Pic.resolve, h]

/-- The answer where a line of the master other than the cascade wins (R228). -/
theorem Pic.resolve_of_master (p : Pic) {b : Nat} (h : lowest p.m.eligible = some b) (hb : b ≠ 2) :
    p.resolve = some (b, BitVec.ofNat 8 (p.m.offset.toNat + b)) := by
  rw [← p.m.vector_eq_ofNat b]
  simp [Pic.resolve, h, hb]

/-- The answer where the cascade wins (R228): the slave's. -/
theorem Pic.resolve_of_cascade (p : Pic) (h : lowest p.m.eligible = some 2) :
    p.resolve = (lowest p.s.eligible).map fun k => (8 + k, BitVec.ofNat 8 (p.s.offset.toNat + k)) := by
  simp only [← p.s.vector_eq_ofNat]
  cases hs : lowest p.s.eligible with
  | none => simp [Pic.resolve, h, hs]
  | some k => simp [Pic.resolve, h, hs]

/-- Settles O34: the obligation's lowest eligible line is the one the model searches for on each chip. -/
theorem resolutionPicksTheLowestEligibleLine : Obligations.ResolutionPicksTheLowestEligibleLine := by
  unfold Obligations.ResolutionPicksTheLowestEligibleLine
  intro s el low
  have none_of (x : PicChip) (h : ∀ n, ¬ el x n) : lowest x.eligible = none := x.lowest_eligible_none.2 h
  have some_of (x : PicChip) (n : Nat) (h : low x n) : lowest x.eligible = some n := (x.lowest_eligible n).2 h
  refine ⟨s.pic.resolve, rfl, fun hm => ?_, fun b hb hne => ?_, fun h2 hs => ?_, fun k h2 hk => ?_⟩
  · exact s.pic.resolve_of_none (none_of _ hm)
  · exact s.pic.resolve_of_master (some_of _ b hb) hne
  · rw [s.pic.resolve_of_cascade (some_of _ 2 h2), none_of _ hs, Option.map_none]
  · rw [s.pic.resolve_of_cascade (some_of _ 2 h2), some_of _ k hk, Option.map_some]

/-! ### Acknowledgment -/

/-- An acknowledgment reaches the request and in-service registers and nothing else (R230). -/
theorem Pic.ack_frame (p : Pic) (n : Nat) :
    (p.ack n).m = { p.m with irr := (p.ack n).m.irr, isr := (p.ack n).m.isr }
    ∧ (p.ack n).s = { p.s with irr := (p.ack n).s.irr, isr := (p.ack n).s.isr } := by
  obtain hn | ⟨h8, hn⟩ | hn := line_range n
  · rw [p.ack_master n hn]
    exact ⟨rfl, rfl⟩
  · rw [p.ack_slave n h8 hn]
    exact ⟨rfl, rfl⟩
  · rw [p.ack_none n hn]
    exact ⟨rfl, rfl⟩

/-- Acknowledging a slave line recomputes the cascade bit and keeps the master's other requests: the cascade bit that
the master's own acceptance of line 2 clears is written again (R230). -/
theorem Pic.ack_slave_m_irr (p : Pic) (n k : Nat) (h8 : 8 ≤ n) (hn : n < 16) :
    (p.ack n).m.irr.getLsbD k =
      if k = 2 then (List.range 8).any (fun j => (p.ack n).s.irr.getLsbD j && !p.s.imr.getLsbD j)
      else p.m.irr.getLsbD k := by
  rw [p.ack_slave n h8 hn, Pic.cascadeSync_irr_eq_any]
  by_cases hk : k = 2
  · rw [if_pos hk, if_pos hk]
    rfl
  · rw [if_neg hk, if_neg hk]
    exact (p.m.accept_irr 2 k (by omega)).trans (if_neg hk)

/-- Settles O36, by the range of the line. -/
theorem acknowledgment : Obligations.Acknowledgment := by
  unfold Obligations.Acknowledgment
  intro s n
  obtain ⟨hm, hs⟩ := s.pic.ack_frame n
  refine ⟨s.pic.ack n, rfl, hm, hs, fun hn => ?_, fun h8 hn k _ => ?_, s.pic.ack_none n⟩
  · rw [s.pic.ack_master n hn]
    exact ⟨rfl, fun k _ => ⟨getLsbD_withBit_false _ _ _ hn, s.pic.m.accept_isr n k hn⟩⟩
  · have hcascade := s.pic.ack_slave_m_irr n k h8 hn
    rw [s.pic.ack_slave n h8 hn] at hcascade ⊢
    exact ⟨getLsbD_withBit_false _ _ _ (by omega), s.pic.s.accept_isr (n - 8) k (by omega),
      s.pic.m.accept_isr 2 k (by omega), hcascade⟩

end Sys2Proof.Machine
end

section
/-! PROOF. Family 43_pit.md: the control word and the latch, the count port, the tick of every mode, and the gate
(O37 to O41). -/

namespace Sys2Proof.Machine

/-- What an operation that replaces one channel does: that channel is the new one, the others are as before. -/
theorem Pit.setChan_replaces (t : Pit) (c : PitChan) (x : PitChannel) :
    (t.setChan c x).chan c = x ∧ ∀ d, d ≠ c → (t.setChan c x).chan d = t.chan d :=
  ⟨t.chan_setChan c x, fun d hd => t.chan_setChan_other c d x hd⟩

/-- Putting a channel back where it was changes nothing. -/
theorem Pit.setChan_chan (t : Pit) (c : PitChan) : t.setChan c (t.chan c) = t := by
  cases c with
  | c0 => rfl
  | c1 => rfl
  | c2 => rfl

/-! ### The control port -/

/-- The output starts low in mode 0 and high in every other (R256, R263). -/
theorem PitMode.initialOut_eq_decide (m : PitMode) : m.initialOut = decide (m ≠ .m0) := by
  by_cases hm : m = .m0 <;> simp [PitMode.initialOut, hm]

/-- The mode each `M` field selects, 6 and 7 aliasing 2 and 3 (R108). -/
theorem pitModeOf_fields (m : BitVec 3) :
    (m = 0 → pitModeOf m = .m0) ∧ (m = 1 → pitModeOf m = .m1) ∧ (m = 2 ∨ m = 6 → pitModeOf m = .m2)
    ∧ (m = 3 ∨ m = 7 → pitModeOf m = .m3) ∧ (m = 4 → pitModeOf m = .m4) ∧ (m = 5 → pitModeOf m = .m5) := by
  refine ⟨?_, ?_, ?_, ?_, ?_, ?_⟩
  · rintro rfl; rfl
  · rintro rfl; rfl
  · rintro (rfl | rfl) <;> rfl
  · rintro (rfl | rfl) <;> rfl
  · rintro rfl; rfl
  · rintro rfl; rfl

/-- A mode command on its channel (R256). -/
theorem PitChannel.program_eq (ch : PitChannel) (rw : PitAccess) (m : BitVec 3) :
    ch.program rw m = { ch with access := rw, mode := pitModeOf m, writeHi := false, readHi := false,
                                latchActive := false, enabled := false, out := decide (pitModeOf m ≠ .m0) } := by
  rw [← PitMode.initialOut_eq_decide]
  rfl

/-- A latch command keeps the snapshot that is still being read (R258). -/
theorem PitChannel.latch_of_active {ch : PitChannel} (h : ch.latchActive = true) : ch.latch = ch := if_pos h

/-- A latch command snapshots the counter where no latch is active (R258). -/
theorem PitChannel.latch_of_inactive {ch : PitChannel} (h : ch.latchActive = false) :
    ch.latch = { ch with latched := ch.counter, latchActive := true } := by
  simp [PitChannel.latch, h]

/-- Settles O37: both commands replace their channel, by its reprogrammed and by its latched form. -/
theorem controlWordAndLatch : Obligations.ControlWordAndLatch := by
  unfold Obligations.ControlWordAndLatch
  intro s c rw m bcd low
  refine ⟨?_, ?_⟩
  · obtain ⟨hc, hother⟩ := s.pit.setChan_replaces c ((s.pit.chan c).program rw m)
    obtain ⟨h0, h1, h2, h3, h4, h5⟩ := pitModeOf_fields m
    exact ⟨_, rfl, ⟨pitModeOf m, h0, h1, h2, h3, h4, h5, hc.trans (PitChannel.program_eq _ rw m)⟩, hother⟩
  · obtain ⟨hc, hother⟩ := s.pit.setChan_replaces c (s.pit.chan c).latch
    refine ⟨s.pit.setChan c (s.pit.chan c).latch, rfl, fun hactive => ?_, fun hfree => ?_, hother⟩
    · rw [PitChannel.latch_of_active hactive, s.pit.setChan_chan c]
    · exact hc.trans (PitChannel.latch_of_inactive hfree)

/-! ### The count port -/

/-- Two bytes as one 16-bit value (R262). -/
theorem append_bytes_eq_ofNat (hi lo : Byte) : (hi ++ lo : Half) = BitVec.ofNat 16 (lo.toNat + hi.toNat * 256) := by
  have hsum : (hi ++ lo : Half).toNat = lo.toNat + hi.toNat * 256 := by
    rw [toNat_append_eq_add]
    omega
  rw [← hsum, BitVec.ofNat_toNat, BitVec.setWidth_eq]

/-- Loading a completed value, with the value as the number its two bytes make (R263). -/
theorem PitChannel.load_bytes (ch : PitChannel) (hi lo : Byte) {r : Nat} (hr : lo.toNat + hi.toNat * 256 = r) :
    ch.load (hi ++ lo) = { ch with reload := BitVec.ofNat 16 r, counter := BitVec.ofNat 16 r, enabled := true,
                                   out := decide (ch.mode ≠ .m0) } := by
  rw [← hr, ← append_bytes_eq_ofNat, ← PitMode.initialOut_eq_decide]
  rfl

section
variable {ch : PitChannel} (v : Byte)

/-- In `LoOnly` the byte is the low half of the value, the high half being 0 (R262). -/
theorem PitChannel.countWrite_loOnly (h : ch.access = .loOnly) : ch.countWrite v = ch.load (0#8 ++ v) := by
  simp [PitChannel.countWrite, h]

/-- In `HiOnly` the byte is the high half of the value, the low half being 0 (R262). -/
theorem PitChannel.countWrite_hiOnly (h : ch.access = .hiOnly) : ch.countWrite v = ch.load (v ++ 0#8) := by
  simp [PitChannel.countWrite, h]

/-- In `LoHi` the first byte is staged (R262). -/
theorem PitChannel.countWrite_first (h : ch.access = .loHi) (ht : ch.writeHi = false) :
    ch.countWrite v = { ch with stagedLo := v, writeHi := true } := by
  simp [PitChannel.countWrite, h, ht]

/-- In `LoHi` the second byte completes the staged one (R262). -/
theorem PitChannel.countWrite_second (h : ch.access = .loHi) (ht : ch.writeHi = true) :
    ch.countWrite v = ({ ch with writeHi := false } : PitChannel).load (v ++ ch.stagedLo) := by
  simp [PitChannel.countWrite, h, ht]

end

/-- Settles O38, by the access mode and the toggle. -/
theorem countWriteLoadsTheChannel : Obligations.CountWriteLoadsTheChannel := by
  unfold Obligations.CountWriteLoadsTheChannel
  intro s c v ch loaded
  obtain ⟨hc, hother⟩ := s.pit.setChan_replaces c (ch.countWrite v)
  refine ⟨s.pit.setChan c (ch.countWrite v), rfl, fun ha => ?_, fun ha => ?_, fun ha ht => ?_, fun ha ht => ?_, hother⟩
  · rw [hc, PitChannel.countWrite_loOnly v ha]
    exact ch.load_bytes 0#8 v (by simp)
  · rw [hc, PitChannel.countWrite_hiOnly v ha]
    exact ch.load_bytes v 0#8 (by simp)
  · rw [hc, PitChannel.countWrite_first v ha ht]
  · rw [hc, PitChannel.countWrite_second v ha ht]
    exact PitChannel.load_bytes _ v ch.stagedLo rfl

/-- The value read, as a number (R265). -/
theorem PitChannel.readable_toNat (ch : PitChannel) :
    ch.readable.toNat = if ch.latchActive then ch.latched.toNat else ch.counter.toNat :=
  apply_ite BitVec.toNat _ _ _

/-- The low byte of a 16-bit value, as a number (R10). -/
theorem toNat_low_byte (x : Half) : (x.extractLsb' 0 8).toNat = x.toNat % 256 := by simp

/-- The high byte of a 16-bit value, as a number (R10). -/
theorem toNat_high_byte (x : Half) : (x.extractLsb' 8 8).toNat = x.toNat / 256 := by
  have := x.isLt
  rw [BitVec.extractLsb'_toNat, Nat.shiftRight_eq_div_pow]
  omega

section
variable {ch : PitChannel}

/-- In `LoOnly` a read answers the low byte and ends the latch (R265). -/
theorem PitChannel.countRead_loOnly (h : ch.access = .loOnly) :
    ch.countByte.toNat = ch.readable.toNat % 256 ∧ ch.countRead = { ch with latchActive := false } := by
  rw [← toNat_low_byte]
  simp [PitChannel.countByte, PitChannel.countRead, h]

/-- In `HiOnly` a read answers the high byte and ends the latch (R265). -/
theorem PitChannel.countRead_hiOnly (h : ch.access = .hiOnly) :
    ch.countByte.toNat = ch.readable.toNat / 256 ∧ ch.countRead = { ch with latchActive := false } := by
  rw [← toNat_high_byte]
  simp [PitChannel.countByte, PitChannel.countRead, h]

/-- In `LoHi` the first read answers the low byte and keeps the latch (R265). -/
theorem PitChannel.countRead_first (h : ch.access = .loHi) (ht : ch.readHi = false) :
    ch.countByte.toNat = ch.readable.toNat % 256 ∧ ch.countRead = { ch with readHi := true } := by
  rw [← toNat_low_byte]
  simp [PitChannel.countByte, PitChannel.countRead, h, ht]

/-- In `LoHi` the second read answers the high byte and ends the latch (R265). -/
theorem PitChannel.countRead_second (h : ch.access = .loHi) (ht : ch.readHi = true) :
    ch.countByte.toNat = ch.readable.toNat / 256
    ∧ ch.countRead = { ch with readHi := false, latchActive := false } := by
  rw [← toNat_high_byte]
  simp [PitChannel.countByte, PitChannel.countRead, h, ht]

end

/-- Settles O39, by the access mode and the toggle. -/
theorem countReadReturnsTheByte : Obligations.CountReadReturnsTheByte := by
  unfold Obligations.CountReadReturnsTheByte
  intro s c ch val
  have hval : ch.readable.toNat = val := ch.readable_toNat
  obtain ⟨hc, hother⟩ := s.pit.setChan_replaces c ch.countRead
  refine ⟨s.pit.setChan c ch.countRead, ch.countByte, rfl, ?_⟩
  rw [hc, ← hval]
  exact ⟨PitChannel.countRead_loOnly, PitChannel.countRead_hiOnly, PitChannel.countRead_first,
    PitChannel.countRead_second, hother⟩

/-! ### The tick

The rules of the modes for one clock of an enabled channel whose gate is high: the channel after it, and its edge. -/

/-- A channel is disabled or gate-low, or it advances (R270). -/
theorem PitChannel.stopped_or_running (ch : PitChannel) :
    (ch.enabled = false ∨ ch.gate = false) ∨ (ch.enabled = true ∧ ch.gate = true) := by
  cases ch.enabled with
  | false => exact .inl (.inl rfl)
  | true =>
    cases ch.gate with
    | false => exact .inl (.inr rfl)
    | true => exact .inr ⟨rfl, rfl⟩

section
variable {ch : PitChannel} (he : ch.enabled = true) (hg : ch.gate = true)
include he hg

/-- Mode 0 counts down and raises the output at 0 (R272). -/
theorem PitChannel.tick_m0_eq (hm : ch.mode = .m0) :
    ch.tick = ({ ch with counter := ch.counter - 1, out := ch.out || decide (ch.counter - 1 = 0) },
      !ch.out && (ch.out || decide (ch.counter - 1 = 0))) :=
  ch.tick_m0 he hg hm

/-- Mode 2 reloads at 1, and the reload is the edge (R274). -/
theorem PitChannel.tick_m2_reload (hm : ch.mode = .m2) (h1 : ch.counter = 1) :
    ch.tick = ({ ch with counter := ch.reload, out := true }, true) :=
  (ch.tick_m2 he hg hm).trans (if_pos h1)

/-- Mode 2 counts down otherwise, with the output low at 1 only (R274). -/
theorem PitChannel.tick_m2_count (hm : ch.mode = .m2) (h1 : ch.counter ≠ 1) :
    ch.tick = ({ ch with counter := ch.counter - 1, out := decide (ch.counter - 1 ≠ 1) }, false) := by
  rw [decide_not]
  exact (ch.tick_m2 he hg hm).trans (if_neg h1)

/-- Mode 3 toggles and reloads at 1, 2 and 3 (R276). -/
theorem PitChannel.tick_m3_toggle (hm : ch.mode = .m3) (h1 : 1 ≤ ch.counter.toNat) (h3 : ch.counter.toNat ≤ 3) :
    ch.tick = ({ ch with out := !ch.out, counter := ch.reload }, !ch.out) :=
  (ch.tick_m3 he hg hm).trans (ch.tick3_toggle h1 h3)

/-- Mode 3 counts by two otherwise (R276). -/
theorem PitChannel.tick_m3_count (hm : ch.mode = .m3) (h : ch.counter.toNat = 0 ∨ 4 ≤ ch.counter.toNat) :
    ch.tick = ({ ch with counter := BitVec.ofNat 16 (ch.counter.toNat + 65534) }, false) :=
  (ch.tick_m3 he hg hm).trans (ch.tick3_count h)

/-- Modes 1, 4 and 5 count down, reload at 1, and leave the output (R278). -/
theorem PitChannel.tick_other_eq (hm : ch.mode = .m1 ∨ ch.mode = .m4 ∨ ch.mode = .m5) :
    ch.tick = ({ ch with counter := if ch.counter = 1 then ch.reload else ch.counter - 1 }, false) := by
  simp only [ch.tick_other he hg hm, PitChannel.tickOther, half_pred_eq_zero]

/-- In modes 0 and 3 the edge is a rise of the output (R279). -/
theorem PitChannel.tick_edge_rise (hm : ch.mode = .m0 ∨ ch.mode = .m3) :
    ch.tick.2 = (!ch.out && ch.tick.1.out) := by
  obtain hm | hm := hm
  · rw [PitChannel.tick_m0_eq he hg hm]
  · by_cases h : 1 ≤ ch.counter.toNat ∧ ch.counter.toNat ≤ 3
    · obtain ⟨h1, h3⟩ := h
      simp [PitChannel.tick_m3_toggle he hg hm h1 h3]
    · simp [PitChannel.tick_m3_count he hg hm (by omega)]

/-- In mode 2 the edge is the reload (R279). -/
theorem PitChannel.tick_edge_m2 (hm : ch.mode = .m2) : ch.tick.2 = decide (ch.counter = 1) := by
  by_cases h1 : ch.counter = 1
  · rw [PitChannel.tick_m2_reload he hg hm h1, decide_eq_true h1]
  · rw [PitChannel.tick_m2_count he hg hm h1, decide_eq_false h1]

/-- Modes 1, 4 and 5 have no edge (R279). -/
theorem PitChannel.tick_edge_other (hm : ch.mode = .m1 ∨ ch.mode = .m4 ∨ ch.mode = .m5) : ch.tick.2 = false := by
  rw [PitChannel.tick_other_eq he hg hm]

end

/-- A clock of the timer: every channel is clocked, and channel 0's edge is the reply (R280). -/
theorem exec_pitTick_eq (s : State) :
    exec .pitTick s = .next { s with pit := s.pit.tick, reply := .bool s.pit.ch0.tick.2 } := rfl

/-- Settles O40: the edge by the mode of channel 0, and each clause of a channel's advance by its mode's rule. -/
theorem tickAdvancesEveryChannelByItsMode : Obligations.TickAdvancesEveryChannelByItsMode := by
  unfold Obligations.TickAdvancesEveryChannelByItsMode
  intro s next edge
  have hedge (ch : PitChannel) : ch.tick.2 = edge ch ch.tick.1 := by
    obtain hoff | ⟨he, hg⟩ := ch.stopped_or_running
    · rw [ch.tick_off hoff]
      obtain h | h := hoff <;> simp [edge, h]
    · cases hm : ch.mode with
      | m0 => simp [edge, he, hg, hm, PitChannel.tick_edge_rise he hg (.inl hm)]
      | m1 => simp [edge, hm, PitChannel.tick_edge_other he hg (.inl hm)]
      | m2 => simp [edge, he, hg, hm, PitChannel.tick_edge_m2 he hg hm]
      | m3 => simp [edge, he, hg, hm, PitChannel.tick_edge_rise he hg (.inr hm)]
      | m4 => simp [edge, hm, PitChannel.tick_edge_other he hg (.inr (.inl hm))]
      | m5 => simp [edge, hm, PitChannel.tick_edge_other he hg (.inr (.inr hm))]
  have hnext (ch : PitChannel) : next ch ch.tick.1 := by
    refine ⟨fun hoff => ?_, fun he hg => ⟨ch.tick_frame, fun hm => ?_, fun hm h1 => ?_, fun hm h1 => ?_,
      fun hm h1 h3 => ?_, fun hm h0 => ?_, fun hm h4 => ?_, fun hm => ?_⟩⟩
    · rw [ch.tick_off hoff]
    · rw [PitChannel.tick_m0_eq he hg hm]
      exact ⟨half_pred _, rfl⟩
    · rw [PitChannel.tick_m2_reload he hg hm h1]
      exact ⟨rfl, rfl⟩
    · rw [PitChannel.tick_m2_count he hg hm h1]
      exact ⟨half_pred _, rfl⟩
    · rw [PitChannel.tick_m3_toggle he hg hm h1 h3]
      exact ⟨rfl, rfl⟩
    · rw [PitChannel.tick_m3_count he hg hm (.inl (by simp [h0]))]
      exact ⟨by simp [h0], rfl⟩
    · rw [PitChannel.tick_m3_count he hg hm (.inr h4)]
      have := ch.counter.isLt
      exact ⟨by rw [BitVec.toNat_ofNat]; omega, rfl⟩
    · rw [PitChannel.tick_other_eq he hg hm]
      exact ⟨rfl, fun h1 => if_pos h1, fun h1 => (congrArg BitVec.toNat (if_neg h1)).trans (half_pred _)⟩
  refine ⟨s.pit.tick, ?_, fun c => ?_⟩
  · rw [exec_pitTick_eq, hedge s.pit.ch0]
    rfl
  · rw [s.pit.tick_chan c]
    exact hnext (s.pit.chan c)

/-! ### The gate -/

/-- A gate write reaches the gate of the channel it names, and no channel for a number past 2 (R282). -/
theorem Pit.setGate_eq (t : Pit) (c : Nat) (level : Bool) :
    t.setGate c level =
      { ch0 := { t.ch0 with gate := if c = 0 then level else t.ch0.gate },
        ch1 := { t.ch1 with gate := if c = 1 then level else t.ch1.gate },
        ch2 := { t.ch2 with gate := if c = 2 then level else t.ch2.gate } } := by
  match c with
  | 0 => rfl
  | 1 => rfl
  | 2 => rfl
  | _ + 3 => rfl

/-- Settles O41: the meaning writes the timer whose three gates `setGate_eq` gives, and the reply. -/
theorem setGateWritesTheGate : Obligations.SetGateWritesTheGate := by
  unfold Obligations.SetGateWritesTheGate
  intro s c level
  rw [← s.pit.setGate_eq c level]
  rfl

end Sys2Proof.Machine
end

section
/-! PROOF. Family 44_nic.md: reads and writes of the window, each register's own row, the queues and the interrupt
level (O45 to O51). -/

namespace Sys2Proof.Machine

/-! ### The access rules: the window and the width -/

/-- The byte lane of an offset as a number (R93). -/
theorem nicLane_toNat (off : Quad) : (nicLane off).toNat = off.toNat % 4 := BitVec.toNat_ofNat ..

/-- Every width the NIC accepts is the byte count of one of the three (R302). -/
theorem exists_bytes_of_accepted {w : Nat} (h : w ∈ [1, 2, 4]) : ∃ nw : NicWidth, w = nw.bytes := by
  cases hw : nicWidthOf w with
  | none => exact absurd h ((nicWidthOf_eq_none w).1 hw)
  | some nw => exact ⟨nw, (nicWidthOf_eq_some w nw hw).symm⟩

/-- A malformed read answers 0 and changes nothing (R302). -/
theorem execNicRead_malformed (s : State) {off : Quad} {w : Nat} (h : nicWindow ≤ off.toNat ∨ w ∉ [1, 2, 4]) :
    execNicRead off w s = .next { s with reply := .value 0 } := by
  rw [← nicWidthOf_eq_none] at h
  unfold execNicRead
  split
  · rfl
  · next hw => rw [if_neg (Nat.not_lt.2 (h.resolve_right (by simp [hw])))]; rfl

/-- A malformed write is ignored (R302). -/
theorem execNicWrite_malformed (s : State) {off : Quad} {w : Nat} (v : Quad)
    (h : nicWindow ≤ off.toNat ∨ w ∉ [1, 2, 4]) : execNicWrite off w v s = .next { s with reply := .unit } := by
  rw [← nicWidthOf_eq_none] at h
  unfold execNicWrite
  split
  · rfl
  · next hw => rw [if_neg (Nat.not_lt.2 (h.resolve_right (by simp [hw])))]; rfl

/-- A read inside the window of an accepted width (R305). -/
theorem execNicRead_window (s : State) {off : Quad} (nw : NicWidth) (h : off.toNat < nicWindow) :
    execNicRead off nw.bytes s =
      .next { s with nic := s.nic.afterRead s.par.nicMap (nicIndex off),
                     reply := .value (nicExtract (s.nic.reg (nicIndex off)) (nicLane off) nw) } := by
  simp only [execNicRead, nicWidthOf_bytes, if_pos h]
  rfl

/-- A write inside the window of an accepted width (R306). -/
theorem execNicWrite_window (s : State) {off : Quad} (nw : NicWidth) (v : Quad) (h : off.toNat < nicWindow) :
    execNicWrite off nw.bytes v s =
      .next { s with nic := s.nic.store s.par.nicMap (nicIndex off) (nicLane off) nw (v.setWidth 32),
                     reply := .unit } := by
  simp only [execNicWrite, nicWidthOf_bytes, if_pos h]
  rfl

/-- A read of any register but ICR leaves the NIC as it is (R305). -/
theorem Nic.afterRead_of_ne (n : Nic) (r : NicMap) {idx : BitVec 15} (h : idx ≠ r.icr) : n.afterRead r idx = n :=
  if_neg h

/-- A read that touches ICR clears all of it (R316). -/
theorem Nic.afterRead_icr (n : Nic) (r : NicMap) : n.afterRead r r.icr = n.setReg r.icr 0 := if_pos rfl

/-- `NIC.ICR.R`: the covered lanes come from the register before the clear (R316). -/
theorem exec_nicIcrR_eq (s : State) (k : BitVec 2) (w : NicWidth) :
    exec (.nicIcrR k w) s =
      .next { s with nic := s.nic.setReg s.par.nicMap.icr 0,
                     reply := .value (nicExtract (s.nic.reg s.par.nicMap.icr) k w) } := rfl

/-- Settles O45: the malformed and the accepted read by the access rules, `NIC.ICR.R` by the lanes alone, and the
cleared file by the register file's read-after-write. -/
theorem nicReadReturnsTheLanes : Obligations.NicReadReturnsTheLanes := by
  unfold Obligations.NicReadReturnsTheLanes
  intro s off w k nw
  refine ⟨execNicRead_malformed s, fun hoff hw => ?_, ?_, fun hn j => s.nic.reg_setReg _ j 0 hn.regs⟩
  · obtain ⟨aw, rfl⟩ := exists_bytes_of_accepted hw
    refine ⟨s.nic.afterRead s.par.nicMap (nicIndex off), ?_, fun hne => s.nic.afterRead_of_ne _ hne, fun he => ?_⟩
    · have hread := execNicRead_window s aw hoff
      rw [nicExtract_eq, nicLane_toNat] at hread
      exact hread
    · rw [show nicIndex off = s.par.nicMap.icr from he, s.nic.afterRead_icr]
  · rw [exec_nicIcrR_eq, nicExtract_eq]

/-- The row of a register does to the state what the general write does there (R306). -/
theorem exec_decodeNicWrite (s : State) (idx : BitVec 15) (k : BitVec 2) (w : NicWidth) (v : Dword) :
    exec (decodeNicWrite s.par.nicMap idx k w v) s =
      .next { s with nic := s.nic.store s.par.nicMap idx k w v, reply := .unit } := by
  unfold decodeNicWrite Nic.store
  split; · next hctrl => subst hctrl; rfl
  split; · rfl
  split; · next heerd => subst heerd; rfl
  split; · rfl
  split; · rfl
  split; · rfl
  split; · rfl
  rfl

/-- Settles O46: inside the window the general write and the row of its register answer the same next state. -/
theorem nicWriteIsItsRegistersRow : Obligations.NicWriteIsItsRegistersRow := by
  unfold Obligations.NicWriteIsItsRegistersRow
  intro s off w v
  refine ⟨execNicWrite_malformed s v, ?_⟩
  rintro nw hoff rfl
  have hgeneral := execNicWrite_window s nw v hoff
  exact ⟨hgeneral.trans (exec_decodeNicWrite s (nicIndex off) (nicLane off) nw (v.setWidth 32)).symm, _, hgeneral⟩

/-! ### The rows that write one register -/

/-- An operation that writes one register of a canonical file: it reads the new value, every other register reads as
before, and nothing but the file changes (R34). -/
theorem State.setReg_finish {s : State} (hn : NicOk s.par s.nic) (i : BitVec 15) (x : Dword) :
    ∃ R, (s.setNic (s.nic.setReg i x)).finish .unit
        = .next { s with nic := { s.nic with regs := R }, reply := .unit }
      ∧ ∀ j : BitVec 15, Cells.get R j.toNat = if j = i then x else s.nic.reg j :=
  ⟨Cells.set s.nic.regs i.toNat x, rfl, fun j => s.nic.reg_setReg i j x hn.regs⟩

/-- Settles O47: a plain write is a write of the merged dword to its one register. -/
theorem plainWriteMergesItsLanes : Obligations.PlainWriteMergesItsLanes := by
  unfold Obligations.PlainWriteMergesItsLanes
  intro s idx k w v hn _
  obtain ⟨R, hexec, hread⟩ := State.setReg_finish hn idx (nicMerged (s.nic.reg idx) k w v)
  refine ⟨rfl, R, hexec, fun j hj => (hread j).trans (if_neg hj), fun b hb => ?_⟩
  rw [hread idx, if_pos rfl]
  exact nicMerged_bit _ k w v b hb

/-- Without RST the dword is stored in CTRL (R310). -/
theorem Nic.ctrlWrite_store (n : Nic) (r : NicMap) {merged : Dword} (h : merged.getLsbD 26 = false) :
    n.ctrlWrite r merged = n.setReg r.ctrl merged := by
  rw [Nic.ctrlWrite, h]
  rfl

/-- With RST the write is the reset procedure and stores nothing (R310, R311). -/
theorem Nic.ctrlWrite_reset (n : Nic) (r : NicMap) {merged : Dword} (h : merged.getLsbD 26 = true) :
    n.ctrlWrite r merged = n.reset r := if_pos h

/-- Settles O48, by the RST bit of the merged dword. -/
theorem controlWriteStoresOrResets : Obligations.ControlWriteStoresOrResets := by
  unfold Obligations.ControlWriteStoresOrResets
  intro s k w v merged hn hbits
  have hexec : exec (.nicCtrlW k w v) s = (s.setNic (s.nic.ctrlWrite s.par.nicMap merged)).finish .unit := by
    rw [← nicMerged_eq _ merged k w v hbits]
    rfl
  refine ⟨fun hrst => ?_, fun hrst => ?_⟩
  · rw [hexec, Nic.ctrlWrite_store _ _ hrst]
    exact State.setReg_finish hn _ merged
  · rw [hexec, Nic.ctrlWrite_reset _ _ hrst]
    exact ⟨_, rfl, s.nic.reg_reset s.par.nicMap⟩

/-- Whether or not START is set, an EERD write writes EERD and no other register (R314). -/
theorem Nic.eerdWrite_eq (n : Nic) (r : NicMap) (merged : Dword) :
    n.eerdWrite r merged = n.setReg r.eerd
      (if merged.getLsbD 0 then eerdDone (n.eepromWord (eerdAddr merged)) (eerdAddr merged) else merged) := by
  unfold Nic.eerdWrite
  split
  · rfl
  · rfl

/-- The address field of EERD as a number (R123). -/
theorem eerdAddr_toNat (v : Dword) : (eerdAddr v).toNat = v.toNat / 256 % 256 := by
  simp [eerdAddr, Nat.shiftRight_eq_div_pow]

/-- EERD after a completed read as a number: data, address and DONE in their places (R123, R314). -/
theorem eerdDone_toNat (d : Half) (a : Byte) : (eerdDone d a).toNat = d.toNat * 65536 + a.toNat * 256 + 16 := by
  simp only [eerdDone, toNat_append_eq_add, BitVec.toNat_ofNat]
  omega

/-- An address past the 64 words reads 0 (R314). -/
theorem Nic.eepromWord_past (n : Nic) {a : Byte} (h : 64 ≤ a.toNat) : n.eepromWord a = 0 :=
  if_neg (Nat.not_lt.2 h)

/-- An address inside the image reads its word (R35, R314). -/
theorem Nic.eepromWord_listed {n : Nic} (hlen : n.eeprom.length = 64) {a : Byte} {d : Half}
    (h : n.eeprom[a.toNat]? = some d) : n.eepromWord a = d := by
  obtain ⟨hlt, -⟩ := List.getElem?_eq_some_iff.1 h
  rw [Nic.eepromWord, if_pos (hlen ▸ hlt), List.getD_eq_getElem?_getD, h, Option.getD_some]

/-- Settles O49: the write reaches EERD alone, and what EERD then holds goes by START and by the address. -/
theorem eepromReadCompletesAtOnce : Obligations.EepromReadCompletesAtOnce := by
  unfold Obligations.EepromReadCompletesAtOnce
  intro s k w v merged hn hbits
  have hexec : exec (.nicEerdW k w v) s = (s.setNic (s.nic.eerdWrite s.par.nicMap merged)).finish .unit := by
    rw [← nicMerged_eq _ merged k w v hbits]
    rfl
  rw [hexec, Nic.eerdWrite_eq, ← eerdAddr_toNat merged]
  obtain ⟨R, hfinish, hread⟩ := State.setReg_finish hn s.par.nicMap.eerd
    (if merged.getLsbD 0 then eerdDone (s.nic.eepromWord (eerdAddr merged)) (eerdAddr merged) else merged)
  have heerd := (hread s.par.nicMap.eerd).trans (if_pos rfl)
  refine ⟨R, hfinish, fun j hj => (hread j).trans (if_neg hj), fun hstart => ?_, fun hstart hpast => ?_,
    fun hstart d hd => ?_⟩
  · rw [heerd, hstart]
    rfl
  · rw [heerd, if_pos hstart, eerdDone_toNat, Nic.eepromWord_past _ hpast]
    simp
  · rw [heerd, if_pos hstart, eerdDone_toNat, Nic.eepromWord_listed hn.eeprom hd]

/-- Settles O50: each of the four rows writes one register, ICR for the causes and IMS for the mask. -/
theorem causeAndMaskWrites : Obligations.CauseAndMaskWrites := by
  unfold Obligations.CauseAndMaskWrites
  intro s k w v lane hn hbits
  rw [← nicLaneValue_eq lane k w v hbits]
  exact ⟨State.setReg_finish hn _ _, State.setReg_finish hn _ _, State.setReg_finish hn _ _,
    State.setReg_finish hn _ _⟩

/-! ### The queues and the interrupt level -/

/-- The registers after a frame is received: bit 7 of ICR is set (R325). -/
theorem Nic.reg_receive {n : Nic} (h : Cells.wf 32768 0 n.regs = true) (r : NicMap) (f : Frame) (j : BitVec 15) :
    (n.receive r f).reg j = if j = r.icr then n.reg j ||| 0x80 else n.reg j := by
  have hset : (n.receive r f).reg j = if j = r.icr then n.reg r.icr ||| causeRxt0 else n.reg j :=
    Nic.reg_setReg { n with rx := n.rx ++ [f] } r.icr j _ h
  rw [hset]
  by_cases hj : j = r.icr
  · rw [if_pos hj, if_pos hj, hj]; rfl
  · rw [if_neg hj, if_neg hj]

/-- The interrupt level is up where some cause is unmasked (R330). -/
theorem Nic.irqLevel_eq_any (n : Nic) (r : NicMap) :
    n.irqLevel r = (List.range 32).any (fun b => (n.reg r.icr).getLsbD b && (n.reg r.ims).getLsbD b) := by
  simp only [← BitVec.getLsbD_and]
  exact ne_zero_eq_any (n.reg r.icr &&& n.reg r.ims)

/-- Settles O51: the queue operations write their queue, a reception ICR besides, and the level is read bit by bit. -/
theorem frameQueuesAndInterruptLevel : Obligations.FrameQueuesAndInterruptLevel := by
  unfold Obligations.FrameQueuesAndInterruptLevel
  intro s f hn
  refine ⟨⟨_, rfl, Nic.reg_receive hn.regs s.par.nicMap f⟩, rfl, rfl, ?_⟩
  rw [← s.nic.irqLevel_eq_any s.par.nicMap]
  rfl

end Sys2Proof.Machine
end

section
/-! PROOF. Family 45_delivery.md: the pending mask and the two flags (O15, O52 to O54), the real-, protected- and
long-mode resolvers (O56 to O58), and their selection by mode (O59).

The mask and the flags go through one fact, what each operation leaves in the pipeline. The resolvers go through two:
what a linear read makes of its bytes' outcomes, and what a gate is as a number. -/

namespace Sys2Proof.Machine

variable {E : Type}

/-! ### What each operation leaves in the pipeline -/

/-- The pipeline after an operation: four of the fifty write it (R352, R354, R362, R364). -/
def Dp.after (d : Dp) : Instr → Dp
  | .dpRaise v => d.mark v true
  | .dpAck v => d.mark v false
  | .dpSetShadow b => { d with shadow := b }
  | .dpSetHandling b => { d with handling := b }
  | _ => d

/-- A next state holds the pipeline d. -/
def LeavesPipeline (d : Dp) (o : Host.Outcome State Fault Refusal) : Prop := ∀ t, o = .next t → t.dp = d

theorem LeavesPipeline.finish {d : Dp} {s : State} (h : s.dp = d) (r : Reply) : LeavesPipeline d (s.finish r) := by
  rintro t ⟨⟩
  exact h

/-- Reading guest memory leaves the pipeline alone, whether the read succeeds or fails (R12). -/
theorem LeavesPipeline.conclude {α : Type} (s : State) (r : Except Raised α) (f : α → Reply) :
    LeavesPipeline s.dp (s.conclude r f) := by
  obtain ⟨x, hx⟩ := s.conclude_next r f
  rw [hx, ← s.finish_eq x]
  exact .finish rfl x

/-- A NIC read may clear ICR, and writes nothing else (R305, R316). -/
theorem execNicRead_leavesPipeline (off : Quad) (w : Nat) (s : State) : LeavesPipeline s.dp (execNicRead off w s) := by
  unfold execNicRead
  split
  · exact .finish rfl _
  · split <;> exact .finish rfl _

/-- A NIC write is a register's or is absorbed (R302, R306). -/
theorem execNicWrite_leavesPipeline (off : Quad) (w : Nat) (v : Quad) (s : State) :
    LeavesPipeline s.dp (execNicWrite off w v s) := by
  unfold execNicWrite
  split
  · exact .finish rfl _
  · split <;> exact .finish rfl _

/-- The pipeline that each of the 50 operations leaves; the PIC's, the timer's and the NIC's leave it as it is. -/
theorem exec_leavesPipeline (i : Instr) (s : State) : LeavesPipeline (s.dp.after i) (exec i s) := by
  cases i with
  -- the operations that read guest memory
  | translate | dpResolveReal | dpResolveProt | dpResolveLong => exact .conclude s _ _
  | dpResolve mode v base limit tc =>
    cases mode with
    | real | prot | long => exact .conclude s _ _
  -- the two NIC entry points, which branch on the access
  | nicRead off w => exact execNicRead_leavesPipeline off w s
  | nicWrite off w v => exact execNicWrite_leavesPipeline off w v s
  -- every other operation finishes on all its paths
  | _ => exact .finish rfl _

/-! ### The mask and the flags -/

@[simp] theorem Dp.mark_shadow (d : Dp) (v : Byte) (b : Bool) : (d.mark v b).shadow = d.shadow := d.setWord_shadow _ _

@[simp] theorem Dp.mark_handling (d : Dp) (v : Byte) (b : Bool) : (d.mark v b).handling = d.handling :=
  d.setWord_handling _ _

/-- One vector of the mask after an operation (R356). -/
theorem Dp.isPending_after (d : Dp) (i : Instr) (u : Byte) :
    (d.after i).isPending u.toNat =
      (if i = .dpRaise u then true else if i = .dpAck u then false else d.isPending u.toNat) := by
  cases i with
  | dpRaise v | dpAck v => simp [Dp.after, Dp.isPending_mark _ _ _ _ u.isLt, BitVec.toNat_inj, eq_comm]
  | _ => rfl

/-- Only `DP.SET_SHADOW` writes the shadow (R362). -/
theorem Dp.after_shadow (d : Dp) {i : Instr} (h : ∀ c, i ≠ .dpSetShadow c) : (d.after i).shadow = d.shadow := by
  cases i with
  | dpSetShadow c => exact absurd rfl (h c)
  | dpRaise v | dpAck v => exact d.mark_shadow v _
  | _ => rfl

/-- Only `DP.SET_HANDLING` writes the handling flag (R364). -/
theorem Dp.after_handling (d : Dp) {i : Instr} (h : ∀ c, i ≠ .dpSetHandling c) :
    (d.after i).handling = d.handling := by
  cases i with
  | dpSetHandling c => exact absurd rfl (h c)
  | dpRaise v | dpAck v => exact d.mark_handling v _
  | _ => rfl

/-- Settles O15: the next state holds the pipeline the operation leaves, read vector by vector. -/
theorem onlyRaiseAndAckTouchThePendingMask : Obligations.OnlyRaiseAndAckTouchThePendingMask := by
  unfold Obligations.OnlyRaiseAndAckTouchThePendingMask
  intro i s t u h
  rw [exec_leavesPipeline i s t h]
  exact s.dp.isPending_after i u

/-- Settles O52: both operations mark one vector of the mask, and a mark is that vector's bit alone. -/
theorem raiseAndAckOneVector : Obligations.RaiseAndAckOneVector := by
  unfold Obligations.RaiseAndAckOneVector
  intro s v b
  refine ⟨s.dp.mark v b, ?_, s.dp.mark_shadow v b, s.dp.mark_handling v b, s.dp.isPending_mark v b⟩
  cases b with
  | true => rfl
  | false => rfl

/-- Settles O53: the reply is what sampling the pipeline answers. -/
theorem sampleReturnsTheLowestPendingVector : Obligations.SampleReturnsTheLowestPendingVector := by
  unfold Obligations.SampleReturnsTheLowestPendingVector
  intro s flags
  exact ⟨s.dp.sample flags, rfl, s.dp.sample_eq_some flags⟩

/-- Settles O54: the three operations by their meanings, the frame by the pipeline that each operation leaves. -/
theorem shadowAndHandlingFlags : Obligations.ShadowAndHandlingFlags := by
  unfold Obligations.ShadowAndHandlingFlags
  intro s b
  refine ⟨rfl, rfl, rfl, fun i t h => ?_⟩
  rw [exec_leavesPipeline i s t h]
  exact ⟨s.dp.after_shadow, s.dp.after_handling⟩

/-! ### A linear read by the outcomes of its bytes -/

/-- The outcome of the one byte of `LinRead` at la: its address wrapped and translated, then the access (R70). -/
def linByte (p : Params) (g : GuestMem E) (mode : ExecMode) (tc : TransCtx) (la : Quad) : Except (Raised E) Nat := do
  let pa ← linearToPhysical p g mode tc (wrapLinear mode la)
  memRead g pa.toNat 1

/-- A linear read is its first byte's outcome, then the rest's; the first byte is the least (R70). -/
theorem linBytes_eq_linByte (p : Params) (g : GuestMem E) (mode : ExecMode) (tc : TransCtx) (la : Quad) (n : Nat) :
    linBytes p g mode tc la (n + 1) = (do
      let b ← linByte p g mode tc la
      let rest ← linBytes p g mode tc (la + 1) n
      .ok (b + 256 * rest)) := by
  rw [linBytes, linByte]
  cases linearToPhysical p g mode tc (wrapLinear mode la) with
  | error e => rfl
  | ok pa => rfl

section
variable {p : Params} {g : GuestMem E} {mode : ExecMode} {tc : TransCtx}

/-- The next byte's address, counted from the read's start. -/
theorem quad_add_one_add (la : Quad) (i : Nat) : la + 1 + BitVec.ofNat 64 i = la + BitVec.ofNat 64 (i + 1) := by
  rw [BitVec.ofNat_add, BitVec.add_assoc, BitVec.add_comm 1]
  rfl

/-- Where every byte can be read, they are the digits of the value in base 256, the first the least (R62, R70). -/
theorem linBytes_of_bytes {la : Quad} {n : Nat} {b : Nat → Nat}
    (h : ∀ i, i < n → linByte p g mode tc (la + BitVec.ofNat 64 i) = .ok (b i)) :
    linBytes p g mode tc la n = .ok (Nat.ofDigits 256 ((List.range n).map b)) := by
  induction n generalizing la b with
  | zero => rfl
  | succ n ih =>
    have hfirst : linByte p g mode tc la = .ok (b 0) := by simpa using h 0 (by omega)
    have hrest : linBytes p g mode tc (la + 1) n = .ok (Nat.ofDigits 256 ((List.range n).map (b ∘ Nat.succ))) :=
      ih fun i hi => by rw [quad_add_one_add]; exact h (i + 1) (by omega)
    rw [linBytes_eq_linByte, hfirst, hrest, List.range_succ_eq_map, List.map_cons, List.map_map, Nat.ofDigits_cons]
    rfl

/-- The lowest byte that cannot be read ends the read with its own outcome (R70). -/
theorem linBytes_of_failing {la : Quad} {n i : Nat} {e : Raised E} (hi : i < n)
    (hbelow : ∀ j, j < i → ∃ x, linByte p g mode tc (la + BitVec.ofNat 64 j) = .ok x)
    (h : linByte p g mode tc (la + BitVec.ofNat 64 i) = .error e) : linBytes p g mode tc la n = .error e := by
  induction n generalizing la i with
  | zero => omega
  | succ n ih =>
    rw [linBytes_eq_linByte]
    cases i with
    | zero =>
      have hfirst : linByte p g mode tc la = .error e := by simpa using h
      rw [hfirst]
      rfl
    | succ i =>
      obtain ⟨x, hx⟩ : ∃ x, linByte p g mode tc la = .ok x := by simpa using hbelow 0 i.succ_pos
      have hrest : linBytes p g mode tc (la + 1) n = .error e :=
        ih (i := i) (by omega) (fun j hj => by rw [quad_add_one_add]; exact hbelow (j + 1) (by omega))
          (by rw [quad_add_one_add]; exact h)
      rw [hx, hrest]
      rfl

end

/-! ### The resolvers' replies

Each resolver replies what it ends with; a resolver's equations give that end on each of its paths. -/

/-- The reply of an operation that ends with r (R12). -/
def replyOf {α : Type} (f : α → Reply) : Except Raised α → Reply
  | .ok a => f a
  | .error e => .raised e

theorem State.conclude_eq_replyOf {α : Type} (s : State) (r : Except Raised α) (f : α → Reply) :
    s.conclude r f = .next { s with reply := replyOf f r } := by
  cases r with
  | ok a => rfl
  | error e => rfl

theorem exec_dpResolveReal_eq (s : State) (v : Byte) (base : Quad) :
    exec (.dpResolveReal v base) s =
      .next { s with reply := replyOf .realTarget (resolveReal s.par s.mem v base) } :=
  s.conclude_eq_replyOf _ _

theorem exec_dpResolveProt_eq (s : State) (v : Byte) (base : Quad) (limit : Half) (tc : TransCtx) :
    exec (.dpResolveProt v base limit tc) s =
      .next { s with reply := replyOf .protGate (resolveProt s.par s.mem v base limit tc) } :=
  s.conclude_eq_replyOf _ _

theorem exec_dpResolveLong_eq (s : State) (v : Byte) (base : Quad) (limit : Half) (tc : TransCtx) :
    exec (.dpResolveLong v base limit tc) s =
      .next { s with reply := replyOf .longGate (resolveLong s.par s.mem v base limit tc) } :=
  s.conclude_eq_replyOf _ _

/-- Settles O59: each mode's arm is that mode's resolver, and every resolver ends with a reply. -/
theorem resolveSelectsByMode : Obligations.ResolveSelectsByMode := by
  unfold Obligations.ResolveSelectsByMode
  intro s v base limit tc
  refine ⟨rfl, rfl, rfl, fun mode => ?_⟩
  cases mode with
  | real => exact ⟨_, exec_dpResolveReal_eq s v base⟩
  | prot => exact ⟨_, exec_dpResolveProt_eq s v base limit tc⟩
  | long => exact ⟨_, exec_dpResolveLong_eq s v base limit tc⟩

/-! ### The real-mode resolver -/

/-- The number of the physical address a real-mode resolver reads its i-th byte at (R370). -/
theorem wrapLinear_gateAddr_real (base : Quad) (v : Byte) (i : Nat) :
    (wrapLinear .real (gateAddr .real base v 4 + BitVec.ofNat 64 i)).toNat =
      (base.toNat + 4 * v.toNat + i) % 2 ^ 32 := by
  simp only [wrapLinear_eq, gateAddr_eq, reduceCtorEq, if_false, BitVec.toNat_add, BitVec.toNat_ofNat]
  omega

/-- In real mode a byte is the accessor's alone: it is not translated (R70, R370). -/
theorem linByte_real (p : Params) (g : GuestMem E) (tc : TransCtx) (base : Quad) (v : Byte) (i : Nat) :
    linByte p g .real tc (gateAddr .real base v 4 + BitVec.ofNat 64 i) =
      memRead g ((base.toNat + 4 * v.toNat + i) % 2 ^ 32) 1 := by
  rw [← wrapLinear_gateAddr_real]
  rfl

/-- One byte through an accessor that does not fail it. -/
theorem memRead_byte {g : GuestMem E} {a : Nat} (h : g.failure a 1 = none) :
    memRead g a 1 = .ok (g.cells.byte a).toNat := by
  simp [memRead, h, Memory.readLE]

/-- An access the accessor fails (R14). -/
theorem memRead_failing {g : GuestMem E} {a n : Nat} {e : E} (h : g.failure a n = some e) :
    memRead g a n = .error (.memError e) := by
  simp [memRead, h]

theorem resolveReal_of_bytes {p : Params} {g : GuestMem E} {v : Byte} {base : Quad} {x : Nat}
    (h : linBytes p g .real noPaging (gateAddr .real base v 4) 4 = .ok x) :
    resolveReal p g v base = .ok (realTargetOf ((BitVec.ofNat 64 x).setWidth 32)) := by
  rw [resolveReal, linRead, h]
  rfl

theorem resolveReal_of_failing {p : Params} {g : GuestMem E} {v : Byte} {base : Quad} {e : Raised E}
    (h : linBytes p g .real noPaging (gateAddr .real base v 4) 4 = .error e) :
    resolveReal p g v base = .error e := by
  rw [resolveReal, linRead, h]
  rfl

/-- The real-mode target of four base-256 digits, the first the least (R141). -/
theorem realTargetOf_digits (b : Nat → Nat) (h0 : b 0 < 256) (h1 : b 1 < 256) :
    realTargetOf ((BitVec.ofNat 64 (Nat.ofDigits 256 ((List.range 4).map b))).setWidth 32) =
      { segment := BitVec.ofNat 16 (b 2 + b 3 * 256), offset := BitVec.ofNat 16 (b 0 + b 1 * 256) } := by
  have hsum : Nat.ofDigits 256 ((List.range 4).map b) = b 0 + 256 * b 1 + 65536 * b 2 + 16777216 * b 3 := by
    simp only [List.range_succ, List.range_zero, List.nil_append, List.cons_append, List.map_cons, List.map_nil,
      Nat.ofDigits_cons, Nat.ofDigits_nil]
    omega
  rw [hsum, realTargetOf_bytes _ _ _ _ h0 h1, Nat.mul_comm 256 (b 3), Nat.mul_comm 256 (b 1)]

/-- Settles O56: the four bytes are untranslated, so the read is their digits or the lowest one's failure. -/
theorem realModeResolver : Obligations.RealModeResolver := by
  unfold Obligations.RealModeResolver
  intro s v base a b
  have hbyte : ∀ i, s.mem.failure (a i) 1 = none →
      linByte s.par s.mem .real noPaging (gateAddr .real base v 4 + BitVec.ofNat 64 i) = .ok (b i) :=
    fun i h => (linByte_real ..).trans (memRead_byte h)
  refine ⟨fun h => ?_, fun i e hi hbelow he => ?_⟩
  · have hread := linBytes_of_bytes fun i hi => hbyte i (h i hi)
    rw [exec_dpResolveReal_eq, resolveReal_of_bytes hread, realTargetOf_digits b (BitVec.isLt _) (BitVec.isLt _)]
    rfl
  · have hread := linBytes_of_failing hi (fun j hj => ⟨_, hbyte j (hbelow j hj)⟩)
      ((linByte_real ..).trans (memRead_failing he))
    rw [exec_dpResolveReal_eq, resolveReal_of_failing hread]
    rfl

/-! ### The protected-mode resolver -/

/-- Where a protected-mode entry starts (R375). -/
theorem gateAddr_prot (base : Quad) (v : Byte) :
    gateAddr .prot base v 8 = BitVec.ofNat 64 ((base.toNat + 8 * v.toNat) % 2 ^ 32) := gateAddr_eq ..

section
variable {p : Params} {g : GuestMem E} {v : Byte} {base : Quad} {limit : Half} {tc : TransCtx}

/-- The limit test comes first (R375). -/
theorem resolveProt_past_limit (h : limit.toNat < v.toNat * 8 + 7) :
    resolveProt p g v base limit tc = .error (.generalProtection (BitVec.ofNat 16 (v.toNat * 8 + 2))) := if_pos h

theorem resolveProt_of_failing (h : v.toNat * 8 + 7 ≤ limit.toNat) {e : Raised E}
    (hr : linRead p g .prot tc (BitVec.ofNat 64 ((base.toNat + 8 * v.toNat) % 2 ^ 32)) 8 = .error e) :
    resolveProt p g v base limit tc = .error e := by
  rw [resolveProt, if_neg (by omega), gateAddr_prot, hr]
  rfl

/-- With the entry read, the type test decides (R375). -/
theorem resolveProt_of_entry (h : v.toNat * 8 + 7 ≤ limit.toNat) {q : Quad}
    (hr : linRead p g .prot tc (BitVec.ofNat 64 ((base.toNat + 8 * v.toNat) % 2 ^ 32)) 8 = .ok q) :
    resolveProt p g v base limit tc =
      (protGateOf q).elim (.error (.generalProtection (BitVec.ofNat 16 (v.toNat * 8 + 2)))) .ok := by
  rw [resolveProt, if_neg (by omega), gateAddr_prot, hr]
  cases hg : protGateOf q with
  | none => simp [hg, bind, Except.bind, gpProt]
  | some gate => simp [hg, bind, Except.bind]

end

/-- The offset of a protected-mode gate, as a number (R142). -/
theorem protOffset_eq (q : Quad) :
    protOffset q = BitVec.ofNat 32 (q.toNat / 2 ^ 48 * 65536 + q.toNat % 65536) := by
  apply BitVec.eq_of_toNat_eq
  simp only [protOffset, toNat_append_eq_add, BitVec.extractLsb'_toNat, Nat.shiftRight_eq_div_pow, BitVec.toNat_ofNat]
  omega

/-- The entry point of a 16-bit gate, as a number (R375). -/
theorem low_half_eq (off : Nat) :
    ((BitVec.ofNat 32 off).extractLsb' 0 16).setWidth 32 = BitVec.ofNat 32 (off % 65536) := by
  apply BitVec.eq_of_toNat_eq
  simp only [BitVec.toNat_setWidth, BitVec.extractLsb'_toNat, Nat.shiftRight_eq_div_pow, BitVec.toNat_ofNat]
  omega

/-- A protected-mode gate of a kind and an entry point, its other fields as numbers of its eight bytes (R142). -/
def protGateWith (q : Quad) (kind : ProtGateKind) (entry : Nat) : ProtGate :=
  { kind := kind, selector := BitVec.ofNat 16 (q.toNat / 2 ^ 16),
    offset := BitVec.ofNat 32 (q.toNat / 2 ^ 48 * 65536 + q.toNat % 65536), entry := BitVec.ofNat 32 entry,
    s := q.getLsbD 44, dpl := BitVec.ofNat 2 (q.toNat / 2 ^ 45), present := q.getLsbD 47 }

/-- Each type code and the gate it is of; any other is invalid (R143). -/
theorem protGateOf_eq (q : Quad) :
    protGateOf q =
      let t : Nat := q.toNat / 2 ^ 40 % 16
      let off : Nat := q.toNat / 2 ^ 48 * 65536 + q.toNat % 65536
      if t = 5 then some (protGateWith q .task off)
      else if t = 6 then some (protGateWith q .int16 (off % 65536))
      else if t = 7 then some (protGateWith q .trap16 (off % 65536))
      else if t = 14 then some (protGateWith q .int32 off)
      else if t = 15 then some (protGateWith q .trap32 off)
      else none := by
  simp (disch := decide) only [protGateOf, protKindOf, gateType_eq, protOffset_eq, extract_eq]
  split_ifs
  all_goals simp only [protEntry, low_half_eq, protGateWith]

/-- Settles O57: the paths of the resolver in their order, and the gate type by type. -/
theorem protectedModeResolver : Obligations.ProtectedModeResolver := by
  unfold Obligations.ProtectedModeResolver
  intro s v base limit tc gp addr
  rw [exec_dpResolveProt_eq]
  refine ⟨fun h => ?_, fun h => ⟨fun e hr => ?_, fun q hr => ?_⟩⟩
  · rw [resolveProt_past_limit h]; rfl
  · rw [resolveProt_of_failing h hr]; rfl
  · rw [resolveProt_of_entry h hr, protGateOf_eq]
    dsimp only
    split_ifs <;> rfl

/-! ### The long-mode resolver -/

/-- Where a long-mode entry starts (R380). -/
theorem gateAddr_long (base : Quad) (v : Byte) :
    gateAddr .long base v 16 = base + BitVec.ofNat 64 (16 * v.toNat) := gateAddr_eq ..

section
variable {p : Params} {g : GuestMem E} {v : Byte} {base : Quad} {limit : Half} {tc : TransCtx}

/-- The limit test comes first (R380). -/
theorem resolveLong_past_limit (h : limit.toNat < v.toNat * 16 + 15) :
    resolveLong p g v base limit tc = .error (.generalProtection (gpLong p v)) := if_pos h

/-- The first half that cannot be read ends the resolution, whatever the type of the other (R380). -/
theorem resolveLong_of_failing (h : v.toNat * 16 + 15 ≤ limit.toNat) {e : Raised E}
    (hr : linRead p g .long tc (base + BitVec.ofNat 64 (16 * v.toNat)) 8 = .error e
      ∨ ∃ q0, linRead p g .long tc (base + BitVec.ofNat 64 (16 * v.toNat)) 8 = .ok q0
        ∧ linRead p g .long tc (base + BitVec.ofNat 64 (16 * v.toNat) + 8) 8 = .error e) :
    resolveLong p g v base limit tc = .error e := by
  rw [resolveLong, if_neg (by omega), gateAddr_long]
  obtain h0 | ⟨q0, h0, h1⟩ := hr
  · rw [h0]; rfl
  · rw [h0, h1]; rfl

/-- With both halves read, the type test decides (R380). -/
theorem resolveLong_of_entry (h : v.toNat * 16 + 15 ≤ limit.toNat) {q0 q1 : Quad}
    (h0 : linRead p g .long tc (base + BitVec.ofNat 64 (16 * v.toNat)) 8 = .ok q0)
    (h1 : linRead p g .long tc (base + BitVec.ofNat 64 (16 * v.toNat) + 8) 8 = .ok q1) :
    resolveLong p g v base limit tc =
      (longGateOf q0 q1).elim (.error (.generalProtection (gpLong p v))) .ok := by
  rw [resolveLong, if_neg (by omega), gateAddr_long, h0, h1]
  cases hg : longGateOf q0 q1 with
  | none => simp [hg, bind, Except.bind]
  | some gate => simp [hg, bind, Except.bind]

end

/-- The fault code is exact wherever it fits the code's width (R146). -/
theorem gpLong_toNat {p : Params} {v : Byte} (h : v.toNat * p.lmGpScale + 2 < 2 ^ 16) :
    (gpLong p v).toNat = v.toNat * p.lmGpScale + 2 := by
  rw [gpLong, BitVec.toNat_ofNat, Nat.mod_eq_of_lt h]

/-- The offset of a long-mode gate, as a number (R144). -/
theorem longOffset_eq (q0 q1 : Quad) :
    (q1.extractLsb' 0 32 ++ q0.extractLsb' 48 16 ++ q0.extractLsb' 0 16 : Quad) =
      BitVec.ofNat 64 (q1.toNat % 2 ^ 32 * 2 ^ 32 + q0.toNat / 2 ^ 48 * 65536 + q0.toNat % 65536) := by
  apply BitVec.eq_of_toNat_eq
  have hfits : q1.toNat % 2 ^ 32 * 2 ^ 32 + q0.toNat / 2 ^ 48 * 65536 + q0.toNat % 65536 < 2 ^ 64 := by omega
  rw [BitVec.toNat_ofNat, Nat.mod_eq_of_lt hfits]
  simp only [toNat_append_eq_add, BitVec.extractLsb'_toNat, Nat.shiftRight_eq_div_pow, pow_zero, Nat.div_one]
  omega

/-- A long-mode gate of a kind, its other fields as numbers of its sixteen bytes (R144). -/
def longGateWith (q0 q1 : Quad) (kind : LongGateKind) : LongGate :=
  { kind := kind, selector := BitVec.ofNat 16 (q0.toNat / 2 ^ 16),
    offset := BitVec.ofNat 64 (q1.toNat % 2 ^ 32 * 2 ^ 32 + q0.toNat / 2 ^ 48 * 65536 + q0.toNat % 65536),
    ist := BitVec.ofNat 3 (q0.toNat / 2 ^ 32), s := q0.getLsbD 44, dpl := BitVec.ofNat 2 (q0.toNat / 2 ^ 45),
    present := q0.getLsbD 47 }

/-- Each type code and the gate it is of; any other is invalid (R145). -/
theorem longGateOf_eq (q0 q1 : Quad) :
    longGateOf q0 q1 =
      let t : Nat := q0.toNat / 2 ^ 40 % 16
      if t = 14 then some (longGateWith q0 q1 .int64)
      else if t = 15 then some (longGateWith q0 q1 .trap64)
      else none := by
  simp (disch := decide) only [longGateOf, longKindOf, gateType_eq, longOffset_eq]
  simp only [extract_eq]
  split_ifs <;> rfl

/-- Settles O58: the paths of the resolver in their order, and the gate type by type. -/
theorem longModeResolver : Obligations.LongModeResolver := by
  unfold Obligations.LongModeResolver
  intro s v base limit tc
  refine ⟨gpLong s.par v, gpLong_toNat, ?_⟩
  intro gp addr r0 r1
  rw [exec_dpResolveLong_eq]
  refine ⟨fun h => ?_, fun h => ⟨fun e hr => ?_, fun q0 q1 h0 h1 => ?_⟩⟩
  · rw [resolveLong_past_limit h]; rfl
  · rw [resolveLong_of_failing h hr]; rfl
  · rw [resolveLong_of_entry h h0 h1, longGateOf_eq]
    dsimp only
    split_ifs <;> rfl

end Sys2Proof.Machine
end

section
/-! PROOF. Family 60_exceptions.md: an operation that raises or propagates writes no state (O8), and only the
operations that read guest memory can fail (O9). -/

namespace Sys2Proof.Machine

/-! ### A fault outcome writes no state -/

theorem Reply.ne_raised {x : Reply} (hx : x.isRaised = false) (r : Raised) : x ≠ .raised r := by
  rintro rfl
  exact Bool.noConfusion hx

/-- An end that writes a device carries a reply that is no fault outcome, so a fault outcome comes with the reply
alone (R12, R403). -/
theorem WritesAtMostOneDevice.eq_of_raised {s t : State} {o : Host.Outcome State Fault Refusal} {r : Raised}
    (h : WritesAtMostOneDevice s o) (ho : o = .next t) (ht : t.reply = .raised r) :
    t = { s with reply := .raised r } := by
  cases h with
  | none x => cases ho; cases ht; rfl
  | pic p x hx | pit c x hx | nic n x hx | dp d x hx =>
    cases ho
    exact absurd ht (Reply.ne_raised hx r)

/-- Settles O8: each operation ends with a reply alone or with one device written, and only the first way's reply
can be a fault outcome. -/
theorem faultOutcomesLeaveTheBlockUnchanged : Obligations.FaultOutcomesLeaveTheBlockUnchanged := by
  unfold Obligations.FaultOutcomesLeaveTheBlockUnchanged
  intro i s t r
  exact (exec_writesAtMostOneDevice i s).eq_of_raised

/-! ### The operations that can fail -/

/-- The operations that read guest memory: `TRANSLATE` and the gate resolvers (R150, R370, R375, R380, R385). -/
inductive ReadsGuestMemory : Instr → Prop where
  | translate (la : Quad) (kind : AccessKind) (cpl : BitVec 2) (cfg : TransCfg) (cr3 : Quad) :
      ReadsGuestMemory (.translate la kind cpl cfg cr3)
  | resolveReal (v : Byte) (base : Quad) : ReadsGuestMemory (.dpResolveReal v base)
  | resolveProt (v : Byte) (base : Quad) (limit : Half) (tc : TransCtx) :
      ReadsGuestMemory (.dpResolveProt v base limit tc)
  | resolveLong (v : Byte) (base : Quad) (limit : Half) (tc : TransCtx) :
      ReadsGuestMemory (.dpResolveLong v base limit tc)
  | resolve (mode : ExecMode) (v : Byte) (base : Quad) (limit : Half) (tc : TransCtx) :
      ReadsGuestMemory (.dpResolve mode v base limit tc)

/-- A next state's reply is a value or nothing, and no fault outcome (R402). -/
def RepliesNoFault (o : Host.Outcome State Fault Refusal) : Prop := ∀ t, o = .next t → t.reply.isRaised = false

theorem RepliesNoFault.finish {s : State} {x : Reply} (hx : x.isRaised = false) : RepliesNoFault (s.finish x) := by
  rintro t ⟨⟩
  exact hx

/-- A NIC read of a wrong width or past the window reads 0 (R302); any other reads its lanes (R305). -/
theorem execNicRead_repliesNoFault (off : Quad) (w : Nat) (s : State) : RepliesNoFault (execNicRead off w s) := by
  unfold execNicRead
  split
  · exact .finish rfl
  · split <;> exact .finish rfl

/-- A NIC write is a register's or is ignored (R302, R306). -/
theorem execNicWrite_repliesNoFault (off : Quad) (w : Nat) (v : Quad) (s : State) :
    RepliesNoFault (execNicWrite off w v s) := by
  unfold execNicWrite
  split
  · exact .finish rfl
  · split <;> exact .finish rfl

/-- Which of the 50 operations can fail: those that read guest memory; every PIC, timer, NIC and pending-mask
operation has a value or no result (R402). -/
theorem readsGuestMemory_or_repliesNoFault (i : Instr) (s : State) :
    ReadsGuestMemory i ∨ RepliesNoFault (exec i s) := by
  cases i with
  | translate | dpResolveReal | dpResolveProt | dpResolveLong | dpResolve => exact .inl (by constructor)
  -- the two NIC entry points, which branch on the access
  | nicRead off w => exact .inr (execNicRead_repliesNoFault off w s)
  | nicWrite off w v => exact .inr (execNicWrite_repliesNoFault off w v s)
  -- every other operation finishes with the one kind of reply its row names
  | _ => exact .inr (.finish rfl)

/-- Settles O9: an operation whose reply is a fault outcome reads guest memory, and five operations do. -/
theorem deviceOperationsNeverFault : Obligations.DeviceOperationsNeverFault := by
  unfold Obligations.DeviceOperationsNeverFault
  intro i s t r hnext hreply
  have hreads : ReadsGuestMemory i :=
    (readsGuestMemory_or_repliesNoFault i s).resolve_right
      (fun hno => Reply.ne_raised (hno t hnext) r hreply)
  cases hreads with
  | translate la kind cpl cfg cr3 => exact .inl ⟨la, kind, cpl, cfg, cr3, rfl⟩
  | resolveReal v base => exact .inr (.inl ⟨v, base, rfl⟩)
  | resolveProt v base limit tc => exact .inr (.inr (.inl ⟨v, base, limit, tc, rfl⟩))
  | resolveLong v base limit tc => exact .inr (.inr (.inr (.inl ⟨v, base, limit, tc, rfl⟩)))
  | resolve mode v base limit tc => exact .inr (.inr (.inr (.inr ⟨mode, v, base, limit, tc, rfl⟩)))

end Sys2Proof.Machine
end

section
/-! PROOF. Family 30_encoding.md: the step around the decoder (O1), the round trips of the encoder (O3, O4), that what
is decoded is well formed (O2), words of the spec (O5), and the accesses that are no operation (O6). -/

namespace Sys2Proof.Machine

/-! ### The step -/

/-- A step hands its oldest event the state without that event (R19, R73). -/
theorem step_of_inbox {s : State} {e : Event} {rest : List Event} (h : s.inbox = e :: rest) :
    step s = runEvent e (s.setInbox rest) := by
  rw [step, h]

/-- A step whose oldest event decodes runs the operation (R73, R92). -/
theorem step_of_decode {s : State} {r : Request} {rest : List Event} {i : Instr} (h : s.inbox = .op r :: rest)
    (hd : decode s.par s.pic.steps r = .ok i) : step s = exec i (s.setInbox rest) := by
  rw [step_of_inbox h, runEvent, runRequest, State.setInbox_par, State.setInbox_pic, hd]

/-- A step whose oldest event is no operation absorbs or declines it (R67). -/
theorem step_of_reject {s : State} {r : Request} {rest : List Event} {j : Reject} (h : s.inbox = .op r :: rest)
    (hd : decode s.par s.pic.steps r = .error j) : step s = (s.setInbox rest).absorb j := by
  rw [step_of_inbox h, runEvent, runRequest, State.setInbox_par, State.setInbox_pic, hd]

/-- Settles O1: around the decoder and `exec` a step only drops the request. -/
theorem stepRunsTheDecodedOperation : Obligations.StepRunsTheDecodedOperation := by
  unfold Obligations.StepRunsTheDecodedOperation
  intro s r rest i
  exact step_of_decode

/-! ### What the decoder answers -/

/-- The decoder answers a port write with the port's device row, at a port that there is. -/
theorem decode_portWrite_ok {p : Params} {t : PicSteps} {port : Half} {w : Nat} {v : Dword} {i : Instr}
    (h : decode p t (.portWrite port w v) = .ok i) :
    ∃ d, portNumber p d < 2 ^ 16 ∧ i = decodePortWrite t d (v.setWidth 8) := by
  rw [decode] at h
  split at h
  · cases hd : portDevice p port with
    | none => simp [hd] at h
    | some d => exact ⟨d, portNumber_lt p port d hd, by simpa [hd] using h.symm⟩
  · cases h

/-- The decoder answers a port read with the port's device row, at a port that there is. -/
theorem decode_portRead_ok {p : Params} {t : PicSteps} {port : Half} {w : Nat} {i : Instr}
    (h : decode p t (.portRead port w) = .ok i) : ∃ d, portNumber p d < 2 ^ 16 ∧ i = decodePortRead d := by
  rw [decode] at h
  split at h
  · cases hd : portDevice p port with
    | none => simp [hd] at h
    | some d => exact ⟨d, portNumber_lt p port d hd, by simpa [hd] using h.symm⟩
  · cases h

/-- The decoder answers a host call with the operation called (R149). -/
theorem decode_call_ok {p : Params} {t : PicSteps} {c i : Instr} (h : decode p t (.call c) = .ok i) :
    c = i ∧ i.isCall = true := by
  rw [decode] at h
  split at h
  · next hc =>
    cases h
    exact ⟨rfl, hc⟩
  · cases h

/-- Everything an MMIO write decodes to: the row of the register it touches, or the general row (R302, R306). -/
theorem decodeMmioWrite_eq (p : Params) (off : Quad) (w : Nat) (v : Quad) :
    decodeMmioWrite p off w v = .nicWrite off w v
    ∨ ∃ nw, decodeMmioWrite p off w v
        = decodeNicWrite p.nicMap (nicIndex off) (nicLane off) nw (v.setWidth 32) := by
  unfold decodeMmioWrite
  split
  · exact .inl rfl
  · split
    · exact .inr ⟨_, rfl⟩
    · exact .inl rfl

/-- Everything an MMIO read decodes to: `NIC.ICR.R`, or the general row (R305). -/
theorem decodeMmioRead_eq (p : Params) (off : Quad) (w : Nat) :
    decodeMmioRead p off w = .nicRead off w ∨ ∃ nw, decodeMmioRead p off w = .nicIcrR (nicLane off) nw := by
  unfold decodeMmioRead
  split
  · exact .inl rfl
  · split
    · split
      · exact .inr ⟨_, rfl⟩
      · exact .inl rfl
    · exact .inl rfl

/-- A port write's row has its bits and its step, at a port that there is (R94, R102, R105). -/
theorem decodePortWrite_wf {p : Params} (t : PicSteps) {d : PortDev} (hd : portNumber p d < 2 ^ 16) (v : Byte) :
    (decodePortWrite t d v).wf p = true ∧ (decodePortWrite t d v).atStep t = true := by
  cases d with
  | picCmd c => exact decodeCommand_wf p t c v
  | picData c => exact decodeData_wf p t c v
  | pitCount c => exact ⟨(portNumber_pitCount p c).2 hd, rfl⟩
  | pitCtrl => exact decodeControl_wf p t v ((portNumber_pitCtrl p).2 hd)

/-- A port read's row asks for no bits, and for a timer register for a port (R92). -/
theorem decodePortRead_wf {p : Params} (t : PicSteps) {d : PortDev} (hd : portNumber p d < 2 ^ 16) :
    (decodePortRead d).wf p = true ∧ (decodePortRead d).atStep t = true := by
  cases d with
  | picCmd c | picData c => exact ⟨rfl, rfl⟩
  | pitCount c => exact ⟨(portNumber_pitCount p c).2 hd, rfl⟩
  | pitCtrl => exact ⟨(portNumber_pitCtrl p).2 hd, rfl⟩

/-- A host operation asks for no bits and no step (R149). -/
theorem Instr.wf_of_isCall (p : Params) (t : PicSteps) {i : Instr} (h : i.isCall = true) :
    i.wf p = true ∧ i.atStep t = true := by
  revert h
  cases i <;> simp [Instr.isCall, Instr.wf, Instr.atStep]

/-- Whatever the decoder answers is well formed and in its step. -/
theorem wf_of_decode {p : Params} {t : PicSteps} {r : Request} {i : Instr} (h : decode p t r = .ok i) :
    i.wf p = true ∧ i.atStep t = true := by
  cases r with
  | portWrite port w v =>
    obtain ⟨d, hd, rfl⟩ := decode_portWrite_ok h
    exact decodePortWrite_wf t hd _
  | portRead port w =>
    obtain ⟨d, hd, rfl⟩ := decode_portRead_ok h
    exact decodePortRead_wf t hd
  | mmioWrite off w v =>
    cases h
    obtain hg | ⟨nw, hr⟩ := decodeMmioWrite_eq p off w v
    · rw [hg]; exact ⟨rfl, rfl⟩
    · rw [hr]; exact decodeNicWrite_wf p t ..
  | mmioRead off w =>
    cases h
    obtain hg | ⟨nw, hr⟩ := decodeMmioRead_eq p off w
    · rw [hg]; exact ⟨rfl, rfl⟩
    · rw [hr]; exact ⟨rfl, rfl⟩
  | call c => exact Instr.wf_of_isCall p t (decode_call_ok h).2

/-- Settles O2, by the kind of the request. -/
theorem decodedOperationIsWellFormed : Obligations.DecodedOperationIsWellFormed := by
  unfold Obligations.DecodedOperationIsWellFormed
  intro p t r i
  exact wf_of_decode

/-! ### The round trips -/

/-- A host operation is encoded as the call of itself, and decodes as such (R149). -/
theorem decode_encode_of_isCall {i : Instr} (h : i.isCall = true) : Laws.RoundTrip.Statement i := by
  have hcall (p : Params) : encode p i = .call i := by
    revert h
    cases i <;> simp [Instr.isCall, encode]
  intro p t _ _ _
  rw [hcall, decode, if_pos h]

/-- Decoding inverts the encoder, row by row; the host operations are one case. -/
theorem decode_encode (i : Instr) : Laws.RoundTrip.Statement i := by
  cases i with
  | picIcw1 c v => exact Laws.RoundTrip.picIcw1 c v
  | picIcw2 c v => exact Laws.RoundTrip.picIcw2 c v
  | picIcw3 c v => exact Laws.RoundTrip.picIcw3 c v
  | picIcw4 c v => exact Laws.RoundTrip.picIcw4 c v
  | picOcw1 c v => exact Laws.RoundTrip.picOcw1 c v
  | picOcw2Nseoi c v => exact Laws.RoundTrip.picOcw2Nseoi c v
  | picOcw2Seoi c v => exact Laws.RoundTrip.picOcw2Seoi c v
  | picOcw2Other c v => exact Laws.RoundTrip.picOcw2Other c v
  | picOcw3Rr c v => exact Laws.RoundTrip.picOcw3Rr c v
  | picOcw3Norr c v => exact Laws.RoundTrip.picOcw3Norr c v
  | picReadCmd c => exact Laws.RoundTrip.picReadCmd c
  | picReadData c => exact Laws.RoundTrip.picReadData c
  | pitCtrlMode c rw m bcd => exact Laws.RoundTrip.pitCtrlMode c rw m bcd
  | pitCtrlLatch c low => exact Laws.RoundTrip.pitCtrlLatch c low
  | pitCtrlReadback low => exact Laws.RoundTrip.pitCtrlReadback low
  | pitCountWrite c v => exact Laws.RoundTrip.pitCountWrite c v
  | pitCountRead c => exact Laws.RoundTrip.pitCountRead c
  | pitCtrlRead => exact Laws.RoundTrip.pitCtrlRead
  | nicCtrlW k w v => exact Laws.RoundTrip.nicCtrlW k w v
  | nicStatusW k w v => exact Laws.RoundTrip.nicStatusW k w v
  | nicEerdW k w v => exact Laws.RoundTrip.nicEerdW k w v
  | nicIcrW k w v => exact Laws.RoundTrip.nicIcrW k w v
  | nicIcsW k w v => exact Laws.RoundTrip.nicIcsW k w v
  | nicImsW k w v => exact Laws.RoundTrip.nicImsW k w v
  | nicImcW k w v => exact Laws.RoundTrip.nicImcW k w v
  | nicIcrR k w => exact Laws.RoundTrip.nicIcrR k w
  | nicPlainW idx k w v => exact Laws.RoundTrip.nicPlainW idx k w v
  | _ => exact decode_encode_of_isCall rfl

/-- Settles O3: a host operation is its own call, and each guest row has its round trip. -/
theorem decodeOfEncodeIsTheOperation : Obligations.DecodeOfEncodeIsTheOperation := by
  unfold Obligations.DecodeOfEncodeIsTheOperation
  intro p t i
  exact decode_encode i p t

/-- Whichever row a register's write is, its encoding is the write access to that register (R93, R306). -/
theorem encode_decodeNicWrite (p : Params) (idx : BitVec 15) (k : BitVec 2) (w : NicWidth) (v : Dword) :
    encode p (decodeNicWrite p.nicMap idx k w v) = putReg idx k w v := by
  unfold decodeNicWrite
  split_ifs with h1 h2 h3 h4 h5 h6 h7
  · rw [h1]; rfl
  · rw [h2]; rfl
  · rw [h3]; rfl
  · rw [h4]; rfl
  · rw [h5]; rfl
  · rw [h6]; rfl
  · rw [h7]; rfl
  · rfl

/-- The register of an offset inside the window, as a number (R93). -/
theorem nicIndex_eq_iff {off : Quad} (h : off.toNat < nicWindow) (i : BitVec 15) :
    nicIndex off = i ↔ off.toNat / 4 = i.toNat := by
  rw [nicWindow] at h
  rw [← BitVec.toNat_inj, nicIndex, BitVec.toNat_ofNat, Nat.mod_eq_of_lt (by omega)]

/-- Settles O4: a write keeps the register, the lane and the width, from which the offset is put together again; a
read's row is chosen by the register. -/
theorem encodeOfDecodedNicWriteIsTheAccess : Obligations.EncodeOfDecodedNicWriteIsTheAccess := by
  unfold Obligations.EncodeOfDecodedNicWriteIsTheAccess
  intro p t off w v hoff
  have hv : (v.setWidth 64).setWidth 32 = v := BitVec.eq_of_toNat_eq (by simp)
  have hwin : off.toNat < nicWindow := hoff
  constructor
  · rw [decodeMmioWrite, nicWidthOf_bytes]
    simp only [hwin, if_true, hv, encode_decodeNicWrite, putReg, nicOffset_eq off hwin]
  · rw [decode, decodeMmioRead, nicWidthOf_bytes]
    simp only [hwin, if_true, nicIndex_eq_iff hwin, nicLane]

/-- Settles O5: the default decoder computes on each of the eleven words. -/
theorem specWordsDecode : Obligations.SpecWordsDecode := by
  unfold Obligations.SpecWordsDecode
  decide

/-! ### The accesses that are no operation -/

/-- A port write of a wrong width or to no device of the block is absorbed (R67). -/
theorem step_portWrite_malformed {s : State} {rest : List Event} {port : Half} {w : Nat} {v : Dword}
    (h : w ≠ 1 ∨ port.toNat ∉ s.par.ports) (hin : s.inbox = .op (.portWrite port w v) :: rest) :
    step s = .next { s with inbox := rest, reply := .unit } := by
  by_cases hw : w = 1
  · have hdev := portDevice_none s.par port (h.resolve_left (not_not_intro hw))
    exact step_of_reject (j := .unknownWrite port) hin (by simp [decode, hw, hdev])
  · exact step_of_reject (j := .wideWrite w) hin (by simp [decode, hw])

/-- A port read of a wrong width or from no device of the block reads 0 (R67). -/
theorem step_portRead_malformed {s : State} {rest : List Event} {port : Half} {w : Nat}
    (h : w ≠ 1 ∨ port.toNat ∉ s.par.ports) (hin : s.inbox = .op (.portRead port w) :: rest) :
    step s = .next { s with inbox := rest, reply := .value 0 } := by
  by_cases hw : w = 1
  · have hdev := portDevice_none s.par port (h.resolve_left (not_not_intro hw))
    exact step_of_reject (j := .unknownRead port) hin (by simp [decode, hw, hdev])
  · exact step_of_reject (j := .wideRead w) hin (by simp [decode, hw])

/-- A malformed MMIO write is the general row (R302). -/
theorem decodeMmioWrite_malformed (p : Params) {off : Quad} {w : Nat} (v : Quad)
    (h : nicWindow ≤ off.toNat ∨ w ∉ [1, 2, 4]) : decodeMmioWrite p off w v = .nicWrite off w v := by
  rw [← nicWidthOf_eq_none] at h
  unfold decodeMmioWrite
  split
  · rfl
  · next hw => exact if_neg (Nat.not_lt.2 (h.resolve_right (by simp [hw])))

/-- A malformed MMIO read is the general row (R302). -/
theorem decodeMmioRead_malformed (p : Params) {off : Quad} {w : Nat}
    (h : nicWindow ≤ off.toNat ∨ w ∉ [1, 2, 4]) : decodeMmioRead p off w = .nicRead off w := by
  rw [← nicWidthOf_eq_none] at h
  unfold decodeMmioRead
  split
  · rfl
  · next hw => exact if_neg (Nat.not_lt.2 (h.resolve_right (by simp [hw])))

/-- Settles O6: a malformed port access is rejected and absorbed; a malformed MMIO access is a general row, which
ignores it. -/
theorem malformedPortAccessIsAbsorbed : Obligations.MalformedPortAccessIsAbsorbed := by
  unfold Obligations.MalformedPortAccessIsAbsorbed
  intro s rest w absorbed
  refine ⟨fun port v h => ⟨step_portWrite_malformed h, step_portRead_malformed h⟩,
    fun off v h => ⟨fun hin => ?_, fun hin => ?_⟩⟩
  · exact (step_of_decode hin (congrArg Except.ok (decodeMmioWrite_malformed s.par v h))).trans
      (execNicWrite_malformed (s.setInbox rest) v h)
  · exact (step_of_decode hin (congrArg Except.ok (decodeMmioRead_malformed s.par h))).trans
      (execNicRead_malformed (s.setInbox rest) h)

end Sys2Proof.Machine
end

section
/-! PROOF. The invariants and what a step can change: Good (O11, O12), the cascade bit (O13, O14), the masks during
initialization (O16), the packet queues (O17), and a store between operations (O18).

Each is a property of the next state. One rule per way an operation ends, and one for the step, carry such a property
through the model; an obligation then says what its own operations do to its own device. -/

namespace Sys2Proof.Machine

/-! ### A property of the next state -/

/-- The next state, where there is one, has the property P. -/
def NextHolds (P : State → Prop) (o : Host.Outcome State Fault Refusal) : Prop := ∀ t, o = .next t → P t

section
variable {P : State → Prop} {s : State}

theorem NextHolds.finish {x : Reply} (h : P (s.setReply x)) : NextHolds P (s.finish x) := by
  rintro t ⟨⟩
  exact h

/-- An operation that reads guest memory changes the reply alone, whether the read succeeds or fails (R12). -/
theorem NextHolds.conclude {α : Type} {r : Except Raised α} {f : α → Reply} (h : ∀ x, P (s.setReply x)) :
    NextHolds P (s.conclude r f) := by
  obtain ⟨x, hx⟩ := s.conclude_next r f
  rw [hx, ← s.finish_eq x]
  exact .finish (h x)

/-- The execution mode selects among three resolvers, each of which only reads guest memory (R385). -/
theorem NextHolds.resolve {mode : ExecMode} {v : Byte} {base : Quad} {limit : Half} {tc : TransCtx}
    (h : ∀ x, P (s.setReply x)) : NextHolds P (execDpResolve mode v base limit tc s) := by
  cases mode with
  | real | prot | long => exact .conclude h

/-- What a NIC read can do: nothing but reply, or the change that a read of one register makes (R302, R305). -/
theorem NextHolds.nicRead {off : Quad} {w : Nat} (same : ∀ x, P (s.setReply x))
    (read : ∀ idx x, P ((s.setNic (s.nic.afterRead s.par.nicMap idx)).setReply x)) :
    NextHolds P (execNicRead off w s) := by
  unfold execNicRead
  split
  · exact .finish (same _)
  · split
    · exact .finish (read _ _)
    · exact .finish (same _)

/-- What a NIC write can do: nothing but reply, or, inside the window and of an accepted width, the store into its
register (R302, R306). -/
theorem NextHolds.nicWrite {off : Quad} {w : Nat} {v : Quad} (same : ∀ x, P (s.setReply x))
    (store : ∀ nw x y, off.toNat < nicWindow → w = nw.bytes →
      P ((s.setNic (s.nic.store s.par.nicMap (nicIndex off) (nicLane off) nw x)).setReply y)) :
    NextHolds P (execNicWrite off w v s) := by
  unfold execNicWrite
  split
  · exact .finish (same _)
  · next nw hw =>
    split
    · next hoff => exact .finish (store nw _ _ hoff (nicWidthOf_eq_some w nw hw).symm)
    · exact .finish (same _)

/-- A request that is no operation changes the reply alone, or the machine declines it (R67). -/
theorem NextHolds.absorb {j : Reject} (h : ∀ x, P (s.setReply x)) : NextHolds P (s.absorb j) := by
  cases j with
  | notHostCall =>
    rintro t ⟨⟩
  | wideWrite | wideRead | unknownWrite | unknownRead => exact .finish (h _)

/-- What a step can do: nothing, with no event; run a decoded operation; or take an event that is no operation, which
reaches guest memory and the reply alone and keeps memory canonical (R19, R67, R73). -/
theorem NextHolds.step (idle : P s)
    (run : ∀ r rest i, s.inbox = .op r :: rest → decode s.par s.pic.steps r = .ok i →
      NextHolds P (exec i (s.setInbox rest)))
    (outside : ∀ m rest x, (s.mem.cells.wf = true → m.cells.wf = true) →
      P (((s.setInbox rest).setMem m).setReply x)) : NextHolds P (step s) := by
  cases hin : s.inbox with
  | nil =>
    rw [Sys2Proof.Machine.step, hin]
    rintro t ⟨⟩
    exact idle
  | cons e rest =>
    have same (x : Reply) : P ((s.setInbox rest).setReply x) := outside s.mem rest x id
    cases e with
    | op r =>
      cases hd : decode s.par s.pic.steps r with
      | ok i =>
        rw [step_of_decode hin hd]
        exact run r rest i hin hd
      | error j =>
        rw [step_of_reject hin hd]
        exact .absorb same
    | store pa n v =>
      rw [step_of_inbox hin, runEvent]
      obtain ⟨hin64, -, e⟩ | ⟨m, -, e⟩ | ⟨-, e⟩ := hostStore_eq (s.setInbox rest) pa n v <;> rw [e]
      · rintro t ⟨⟩
        exact outside { s.mem with cells := s.mem.cells.writeLE pa.toNat v.toNat n.bytes } rest .unit
          (Memory.writeLE_wf n.bytes _ _ _ hin64)
      · rintro t ⟨⟩
        exact same _
      · rintro t ⟨⟩
    | accessor rules =>
      rw [step_of_inbox hin]
      exact .finish (outside { s.mem with rules := rules } rest .unit id)

end

/-! ### Good -/

/-- The default parameters are a legal configuration (R8). -/
theorem Params.default_wellFormed : Params.default.WellFormed := by decide

/-- Power-on is good, for every legal configuration and 64-word image (R450). -/
theorem Good.powerOn {p : Params} (mac : Mac) {eeprom : List Half} (hp : p.WellFormed) (he : eeprom.length = 64) :
    Good (State.powerOn p mac eeprom) :=
  ⟨hp, State.powerOn_mem_wf p mac eeprom, NicOk.powerOn p mac eeprom hp.2 he⟩

/-- Settles O11. -/
theorem goodAtPowerOn : Obligations.GoodAtPowerOn := by
  unfold Obligations.GoodAtPowerOn
  exact ⟨fun p mac eeprom hp he => .powerOn mac hp he, .powerOn Mac.default Params.default_wellFormed rfl⟩

/-- Every well-formed operation keeps a good NIC; a plain write is the one that needs its row's condition (R321). -/
theorem exec_keeps_nicOk {i : Instr} {s : State} (hw : i.wf s.par = true) (hd : s.par.nicMap.indexes.Nodup)
    (hn : NicOk s.par s.nic) : NextHolds (fun t => NicOk t.par t.nic) (exec i s) := by
  cases i with
  -- the operations that read guest memory
  | translate | dpResolveReal | dpResolveProt | dpResolveLong => exact .conclude fun _ => hn
  | dpResolve => exact .resolve fun _ => hn
  -- the NIC
  | nicRead off w => exact .nicRead (fun _ => hn) fun idx _ => hn.afterRead hd idx
  | nicWrite off w v => exact .nicWrite (fun _ => hn) fun nw x _ _ _ => hn.store hd _ _ nw x
  | nicCtrlW => exact .finish (hn.ctrlWrite hd _)
  | nicEerdW => exact .finish (hn.eerdWrite hd _)
  | nicIcrW | nicIcsW | nicIcrR => exact .finish (hn.icr hd _)
  | nicImsW | nicImcW => exact .finish (hn.ims hd _)
  | nicPlainW idx k w v => exact .finish (hn.plain idx _ (by simpa [Instr.wf] using hw))
  | nicReceive f => exact .finish (hn.receive hd f)
  | nicDrainTx | nicQueueTx => exact .finish (hn.queues _ _)
  -- every other operation leaves the NIC as it is
  | _ => exact .finish hn

/-- A well-formed operation keeps a good state: the parameters and guest memory are as before, and the NIC is good. -/
theorem exec_keeps_good {i : Instr} {s : State} (hw : i.wf s.par = true) (h : Good s) : NextHolds Good (exec i s) := by
  intro t ht
  obtain ⟨t', ht', hmem, hpar, -⟩ := (exec_writesAtMostOneDevice i s).next_frame
  cases ht.symm.trans ht'
  exact ⟨hpar ▸ h.par, hmem ▸ h.mem, exec_keeps_nicOk hw h.par.2 h.nic t ht⟩

/-- Settles O12: a decoded operation is well formed and keeps Good, and every other event keeps memory canonical. -/
theorem everyStepKeepsGood : Obligations.EveryStepKeepsGood := by
  unfold Obligations.EveryStepKeepsGood
  intro s t h
  refine NextHolds.step h (fun r rest i _ hd => ?_) (fun m rest x hm => ⟨h.par, hm h.mem, h.nic⟩) t
  obtain ⟨hw, -⟩ := wf_of_decode hd
  exact exec_keeps_good (s := s.setInbox rest) hw ⟨h.par, h.mem, h.nic⟩

/-! ### The cascade bit -/

/-- Settles O14: at power-on no line of either chip is requested (R29). -/
theorem cascadeInSyncAtPowerOn : Obligations.CascadeInSyncAtPowerOn := by
  unfold Obligations.CascadeInSyncAtPowerOn
  intro p mac eeprom
  show PicChip.powerOn.irr.getLsbD 2 = ((PicChip.powerOn.irr &&& ~~~PicChip.powerOn.imr) != 0)
  decide

/-- A byte written to a port is no host operation (R92). -/
theorem decodePortWrite_isCall (t : PicSteps) (d : PortDev) (v : Byte) : (decodePortWrite t d v).isCall = false := by
  cases d with
  | picCmd c =>
    rw [decodePortWrite, decodeCommand]
    split_ifs <;> rfl
  | picData c =>
    rw [decodePortWrite]
    cases t.of c <;> rfl
  | pitCount c => rfl
  | pitCtrl =>
    rw [decodePortWrite, decodeControl]
    split
    · rfl
    · split <;> rfl

/-- A port's read is no host operation (R92). -/
theorem decodePortRead_isCall (d : PortDev) : (decodePortRead d).isCall = false := by
  cases d <;> rfl

/-- A register's own row is no host operation (R306). -/
theorem decodeNicWrite_isCall (r : NicMap) (idx : BitVec 15) (k : BitVec 2) (w : NicWidth) (v : Dword) :
    (decodeNicWrite r idx k w v).isCall = false := by
  unfold decodeNicWrite
  split_ifs <;> rfl

/-- A host operation other than the NIC's two entry points is decoded from its own call and from nothing else
(R149). -/
theorem eq_call_of_decode {p : Params} {t : PicSteps} {r : Request} {i : Instr} (h : decode p t r = .ok i)
    (hcall : i.isCall = true) (hread : ∀ off w, i ≠ .nicRead off w) (hwrite : ∀ off w v, i ≠ .nicWrite off w v) :
    r = .call i := by
  cases r with
  | portWrite port w v =>
    obtain ⟨d, -, rfl⟩ := decode_portWrite_ok h
    exact absurd hcall (by simp [decodePortWrite_isCall])
  | portRead port w =>
    obtain ⟨d, -, rfl⟩ := decode_portRead_ok h
    exact absurd hcall (by simp [decodePortRead_isCall])
  | mmioWrite off w v =>
    cases h
    obtain hg | ⟨nw, hr⟩ := decodeMmioWrite_eq p off w v
    · exact absurd hg (hwrite off w v)
    · exact absurd hcall (by simp [hr, decodeNicWrite_isCall])
  | mmioRead off w =>
    cases h
    obtain hg | ⟨nw, hr⟩ := decodeMmioRead_eq p off w
    · exact absurd hg (hread off w)
    · exact absurd hcall (by simp [hr, Instr.isCall])
  | call c => rw [(decode_call_ok h).1]

/-- Every operation keeps the cascade bit in step, but for the three on line 2 (R201, R471). -/
theorem exec_keeps_cascadeInSync {i : Instr} {s : State} (h : s.pic.CascadeInSync) (hraise : i ≠ .picRaise 2)
    (hlower : i ≠ .picLower 2) (hack : i ≠ .picAck 2) : NextHolds (fun t => t.pic.CascadeInSync) (exec i s) := by
  cases i with
  -- the PIC pair
  | picIcw1 c v => exact .finish (s.pic.icw1_inSync c v)
  | picIcw2 c v => exact .finish (s.pic.icw2_inSync _ c v h)
  | picIcw3 c v => exact .finish (s.pic.icw3_inSync c v h)
  | picIcw4 c v => exact .finish (s.pic.icw4_inSync c v h)
  | picOcw1 c v => exact .finish (s.pic.ocw1_inSync c v h)
  | picOcw2Nseoi c v => exact .finish (s.pic.nseoi_inSync c h)
  | picOcw2Seoi c v => exact .finish (s.pic.seoi_inSync c v h)
  | picOcw3Rr c v => exact .finish (s.pic.selectRead_inSync c v h)
  | picRaise n => exact .finish (s.pic.line_inSync n true (fun hn => hraise (hn ▸ rfl)) h)
  | picLower n => exact .finish (s.pic.line_inSync n false (fun hn => hlower (hn ▸ rfl)) h)
  | picAck n => exact .finish (s.pic.ack_inSync n (fun hn => hack (hn ▸ rfl)) h)
  -- the operations that branch, none of which writes the PIC pair
  | translate | dpResolveReal | dpResolveProt | dpResolveLong => exact .conclude fun _ => h
  | dpResolve => exact .resolve fun _ => h
  | nicRead => exact .nicRead (fun _ => h) fun _ _ => h
  | nicWrite => exact .nicWrite (fun _ => h) fun _ _ _ _ _ => h
  -- every other operation leaves the PIC pair as it is
  | _ => exact .finish h

/-- Settles O13: the operations that override the bit are decoded only from the calls left out. -/
theorem everyStepKeepsTheCascadeInSync : Obligations.EveryStepKeepsTheCascadeInSync := by
  unfold Obligations.EveryStepKeepsTheCascadeInSync
  intro s t h ht hno
  refine NextHolds.step (P := fun t => t.pic.CascadeInSync) h (fun r rest i hin hd => ?_) (fun _ _ _ _ => h) t ht
  have hr := hno r rest hin
  refine exec_keeps_cascadeInSync (s := s.setInbox rest) h ?_ ?_ ?_
  · rintro rfl
    exact hr (.inl (eq_call_of_decode hd rfl nofun nofun))
  · rintro rfl
    exact hr (.inr (.inl (eq_call_of_decode hd rfl nofun nofun)))
  · rintro rfl
    exact hr (.inr (.inr (eq_call_of_decode hd rfl nofun nofun)))

/-! ### The masks during initialization -/

/-- Replacing a chip by one with the same mask changes no mask. -/
theorem Pic.setChip_imr (p : Pic) {c : Chip} {x : PicChip} (h : x.imr = (p.chip c).imr) (d : Chip) :
    ((p.setChip c x).chip d).imr = (p.chip d).imr := by
  by_cases hd : d = c
  · rw [hd, p.chip_setChip, h]
  · rw [p.chip_setChip_other c d x hd]

/-- A data byte in an initialization step is an initialization word, which replaces no mask (R212 to R214, R233). -/
theorem exec_decodeData_keeps_imr {x : InitStep} (hx : x ≠ .done) (c : Chip) (v : Byte) (s : State) :
    NextHolds (fun t => ∀ d, (t.pic.chip d).imr = (s.pic.chip d).imr) (exec (decodeData x c v) s) := by
  cases x with
  | done => exact absurd rfl hx
  | icw2 | icw3 | icw4 => exact .finish (s.pic.setChip_imr rfl)

/-- Settles O16: the byte decodes by the chip's step. -/
theorem dataWriteDuringInitKeepsTheMasks : Obligations.DataWriteDuringInitKeepsTheMasks := by
  unfold Obligations.DataWriteDuringInitKeepsTheMasks
  intro s t rest c v hp hin hstep
  have hd := decode_putByte s.par s.pic.steps hp (.picData c) (portNumber_picData s.par c) v
  rw [decodePortWrite, Pic.steps_of] at hd
  rw [step_of_decode hin hd]
  exact exec_decodeData_keeps_imr hstep c v (s.setInbox rest) t

/-! ### The packet queues -/

/-- The operation is a write of CTRL: its row, or the general row inside the window, of an accepted width, at CTRL's
index (R306, R310). -/
def WritesCtrl (r : NicMap) (i : Instr) : Prop :=
  (∃ k w v, i = .nicCtrlW k w v)
  ∨ ∃ off w v, i = .nicWrite off w v ∧ off.toNat < 0x20000 ∧ w ∈ [1, 2, 4] ∧ off.toNat / 4 = r.ctrl.toNat

/-- What an operation can do to the queues of a NIC (R311, R325, R327, R328). -/
inductive QueuesAfter (r : NicMap) (n : Nic) : Instr → Nic → Prop where
  | kept {i : Instr} {m : Nic} (hrx : m.rx = n.rx) (htx : m.tx = n.tx) : QueuesAfter r n i m
  | emptied {i : Instr} {m : Nic} (h : WritesCtrl r i) (hrx : m.rx = []) (htx : m.tx = []) : QueuesAfter r n i m
  | received {f : Frame} {m : Nic} (hrx : m.rx = n.rx ++ [f]) (htx : m.tx = n.tx) : QueuesAfter r n (.nicReceive f) m
  | queued {f : Frame} {m : Nic} (hrx : m.rx = n.rx) (htx : m.tx = n.tx ++ [f]) : QueuesAfter r n (.nicQueueTx f) m
  | drained {m : Nic} (hrx : m.rx = n.rx) (htx : m.tx = []) : QueuesAfter r n .nicDrainTx m

theorem QueuesAfter.refl (r : NicMap) (n : Nic) (i : Instr) : QueuesAfter r n i n := .kept rfl rfl

/-- A write of CTRL empties the queues or leaves them, by RST (R310, R311). -/
theorem QueuesAfter.ctrlWrite {r : NicMap} {i : Instr} (h : WritesCtrl r i) (n : Nic) (x : Dword) :
    QueuesAfter r n i (n.ctrlWrite r x) := by
  unfold Nic.ctrlWrite
  split
  · exact .emptied h rfl rfl
  · exact .kept rfl rfl

/-- A write of EERD leaves the queues (R314). -/
theorem QueuesAfter.eerdWrite (r : NicMap) (i : Instr) (n : Nic) (x : Dword) :
    QueuesAfter r n i (n.eerdWrite r x) := by
  rw [Nic.eerdWrite_eq]
  exact .kept rfl rfl

/-- A store inside the window leaves the queues, but for one at CTRL's index (R306). -/
theorem QueuesAfter.store {r : NicMap} {i : Instr} {idx : BitVec 15} (h : idx = r.ctrl → WritesCtrl r i) (n : Nic)
    (k : BitVec 2) (w : NicWidth) (v : Dword) : QueuesAfter r n i (n.store r idx k w v) := by
  unfold Nic.store
  split; · next hctrl => exact .ctrlWrite (h hctrl) n _
  split; · exact .refl r n i
  split; · exact .eerdWrite r i n _
  split_ifs <;> exact .kept rfl rfl

/-- A read leaves the queues (R305). -/
theorem QueuesAfter.afterRead (r : NicMap) (i : Instr) (n : Nic) (idx : BitVec 15) :
    QueuesAfter r n i (n.afterRead r idx) := by
  unfold Nic.afterRead
  split <;> exact .kept rfl rfl

/-- What each of the 50 operations does to the queues. -/
theorem exec_queuesAfter (i : Instr) (s : State) :
    NextHolds (fun t => QueuesAfter s.par.nicMap s.nic i t.nic) (exec i s) := by
  have same := QueuesAfter.refl s.par.nicMap s.nic i
  cases i with
  -- the operations that read guest memory
  | translate | dpResolveReal | dpResolveProt | dpResolveLong => exact .conclude fun _ => same
  | dpResolve => exact .resolve fun _ => same
  -- the NIC
  | nicRead off w => exact .nicRead (fun _ => same) fun idx _ => .afterRead ..
  | nicWrite off w v =>
    refine .nicWrite (fun _ => same) fun nw x _ hoff hw => .store (fun hctrl => .inr ?_) ..
    exact ⟨off, w, v, rfl, hoff, hw ▸ by cases nw <;> decide, (nicIndex_eq_iff hoff _).1 hctrl⟩
  | nicCtrlW k w v => exact .finish (.ctrlWrite (.inl ⟨k, w, v, rfl⟩) ..)
  | nicEerdW => exact .finish (.eerdWrite ..)
  | nicIcrW | nicIcsW | nicImsW | nicImcW | nicIcrR | nicPlainW => exact .finish (.kept rfl rfl)
  | nicReceive f => exact .finish (.received rfl rfl)
  | nicDrainTx => exact .finish (.drained rfl rfl)
  | nicQueueTx f => exact .finish (.queued rfl rfl)
  -- every other operation leaves the NIC as it is
  | _ => exact .finish same

/-- Settles O17, by what the operation did to the queues. -/
theorem queuesChangeOnlyAsTheHooksSay : Obligations.QueuesChangeOnlyAsTheHooksSay := by
  unfold Obligations.QueuesChangeOnlyAsTheHooksSay
  intro i s t h writesCtrl
  cases exec_queuesAfter i s t h with
  | kept hrx htx => exact ⟨.inl hrx, .inl htx⟩
  | emptied hw hrx htx => exact ⟨.inr (.inr ⟨hrx, hw⟩), .inr (.inr ⟨htx, .inr hw⟩)⟩
  | received hrx htx => exact ⟨.inr (.inl ⟨_, rfl, hrx⟩), .inl htx⟩
  | queued hrx htx => exact ⟨.inl hrx, .inr (.inl ⟨_, rfl, htx⟩)⟩
  | drained hrx htx => exact ⟨.inl hrx, .inr (.inr ⟨htx, .inl rfl⟩)⟩

/-! ### A store between operations -/

/-- A store inside the 64-bit space that the accessor does not fail writes its bytes (R14, R62). -/
theorem hostStore_of_ok {s : State} {pa : Quad} {n : MemWidth} (v : Quad) (hin : pa.toNat + n.bytes ≤ 2 ^ 64)
    (hok : s.mem.failure pa.toNat n.bytes = none) :
    hostStore s pa n v = .next
      { s with mem := { s.mem with cells := s.mem.cells.writeLE pa.toNat v.toNat n.bytes }, reply := .unit } := by
  obtain ⟨-, -, h⟩ | ⟨e, he, -⟩ | ⟨hpast, -⟩ := hostStore_eq s pa n v
  · exact h
  · rw [hok] at he; cases he
  · omega

/-- Settles O18: the new memory is the old one with the bytes written, read back inside and outside the store. -/
theorem hostStoreWritesExactlyItsBytes : Obligations.HostStoreWritesExactlyItsBytes := by
  unfold Obligations.HostStoreWritesExactlyItsBytes
  intro s rest pa n v hwf hinbox hin hok
  refine ⟨s.mem.cells.writeLE pa.toNat v.toNat n.bytes, ?_, fun j hj => ?_, fun a ha => ?_⟩
  · rw [step_of_inbox hinbox]
    exact hostStore_of_ok (s := s.setInbox rest) v hin hok
  · exact Memory.byte_writeLE_same n.bytes _ _ _ j hin hwf hj
  · exact Memory.byte_writeLE_other a n.bytes _ _ _ ha

end Sys2Proof.Machine
end

section
/-! PROOF. Family 41_translation.md: the two permission scopes (O22), the bound of a translated address (O23), what a
page fault carries (O24), and where a failure of the accessor ends a walk (O26).

As for the walkers' replies, each property has one rule for each thing a walker does, and a walker's proof is the
composition of these rules in the walker's own shape. -/

namespace Sys2Proof.Machine

variable {E : Type}

/-! ### The error code, bit by bit -/

/-- An error code has no bit past ID (R140). -/
theorem errorCode_lt (kind : AccessKind) (user : Bool) (cfg : TransCfg) (present : Bool) :
    (errorCode kind user cfg present).toNat < 2 ^ 5 := by
  unfold errorCode
  cases fetchBit kind cfg <;> cases user <;> cases present <;> cases kind <;> decide

/-- Every bit of the error code of a fault (R140). -/
theorem errorCode_getLsbD (kind : AccessKind) (user : Bool) (cfg : TransCfg) (present : Bool) (n : Nat) :
    (errorCode kind user cfg present).getLsbD n =
      match n with
      | 0 => present
      | 1 => decide (kind = .write)
      | 2 => user
      | 4 => fetchBit kind cfg
      | _ => false := by
  match n with
  | 0 | 1 | 2 | 3 | 4 =>
    unfold errorCode
    cases fetchBit kind cfg <;> cases user <;> cases present <;> cases kind <;> rfl
  | n + 5 =>
    exact Nat.testBit_lt_two_pow ((errorCode_lt ..).trans_le (Nat.pow_le_pow_right (by omega) (by omega)))

/-- Settles O24: a page fault of a translation is its walk's own, which carries the address passed and the code. -/
theorem pageFaultCarriesTheAddressAndCode : Obligations.PageFaultCarriesTheAddressAndCode := by
  unfold Obligations.PageFaultCarriesTheAddressAndCode
  intro E p g la kind cpl cfg cr3 a ec h
  obtain ⟨b, hb⟩ | ⟨m, hm⟩ := translate_error p g la kind cpl cfg cr3 _ h
  · cases hb
    have bit (n : Nat) := errorCode_getLsbD kind (isUser cpl) cfg b n
    refine ⟨rfl, bit 1, bit 2, bit 3, (bit 4).trans ?_, fun n hn => (bit n).trans ?_⟩
    · simp [fetchBit]
    · match n, hn with
      | n + 5, _ => rfl
  · cases hm

/-! ### The bound of a translated address -/

/-- A frame's base and an offset both below a power of two give an address below it. -/
theorem frame_or_offset_lt {base offset : Quad} {n : Nat} (hb : base.toNat < 2 ^ n) (ho : offset.toNat < 2 ^ n) :
    (base ||| offset).toNat < 2 ^ n := by
  rw [BitVec.toNat_or]
  exact Nat.or_lt_two_pow hb ho

/-- A field under a mask is no larger than the mask. -/
theorem toNat_and_lt {x mask : Quad} {b : Nat} (h : mask.toNat < b) : (x &&& mask).toNat < b := by
  rw [BitVec.toNat_and]
  exact Nat.and_le_right.trans_lt h

/-- A field of len bits is below 2 to the len (R10). -/
theorem slice_lt {la : Quad} {lo len n : Nat} (h : len ≤ n) : (slice la lo len).toNat < 2 ^ n := by
  rw [slice, BitVec.toNat_setWidth]
  exact ((Nat.mod_le _ _).trans_lt (BitVec.isLt _)).trans_le (Nat.pow_le_pow_right (by omega) h)

/-- The address mask covers no bit from MAXPHYADDR on (R133). -/
theorem addrMask_lt (p : Params) : (addrMask p).toNat < 2 ^ p.maxPhyAddr := by
  have hpos := Nat.two_pow_pos p.maxPhyAddr
  have hmod := Nat.mod_le (2 ^ p.maxPhyAddr - 1) (2 ^ 64)
  have hand : (addrMask p).toNat ≤ (2 ^ p.maxPhyAddr - 1) % 2 ^ 64 := by
    rw [addrMask, BitVec.toNat_and, BitVec.toNat_ofNat]
    exact Nat.and_le_left
  omega

/-- A field under a part of the address mask is below 2 to the MAXPHYADDR (R133, R136). -/
theorem toNat_and_addrMask_lt (p : Params) (x m : Quad) : (x &&& (addrMask p &&& m)).toNat < 2 ^ p.maxPhyAddr := by
  rw [BitVec.and_comm (addrMask p) m]
  exact toNat_and_lt (toNat_and_lt (addrMask_lt p))

/-- A walk that ends with an address ends with one of its leaves. -/
theorem Walk.Result.leaf_of_ok {q : Walk} {leaf : Quad → Prop} {r : Except (Raised E) Quad} (h : q.Result leaf r)
    {a : Quad} (ha : r = .ok a) : leaf a := by
  rw [ha] at h
  exact h

/-- Settles O23: every leaf of a walker is a frame's base under the mask of its format, and an offset. -/
theorem translatedAddressIsBounded : Obligations.TranslatedAddressIsBounded := by
  unfold Obligations.TranslatedAddressIsBounded
  intro E p g la kind cpl cfg cr3 a hp h
  rw [translate_eq_walk] at h
  have small (e : Quad) (lo : Nat) : ((e &&& addrMask p) ||| slice la lo 12).toNat < 2 ^ p.maxPhyAddr :=
    frame_or_offset_lt (toNat_and_lt (addrMask_lt p)) (slice_lt (by omega))
  have large (e m : Quad) {len : Nat} (hlen : len ≤ 30) :
      ((e &&& (addrMask p &&& m)) ||| slice la 0 len).toNat < 2 ^ p.maxPhyAddr :=
    frame_or_offset_lt (toNat_and_addrMask_lt p e m) (slice_lt (by omega))
  cases hlong : cfg.long with
  | true =>
    rw [hlong] at h
    refine ⟨nofun, fun _ => (walk4_result (fun a => a.toNat < 2 ^ p.maxPhyAddr) p g _ cr3 ?_ ?_ ?_).leaf_of_ok h⟩
    · exact fun e => large e _ (by omega)
    · exact fun e => large e _ (by omega)
    · exact fun e => small e 0
  | false =>
    rw [hlong] at h
    cases hpae : cfg.pae with
    | true =>
      rw [hpae] at h
      refine ⟨nofun, fun _ => (walkPae_result (fun a => a.toNat < 2 ^ p.maxPhyAddr) p g _ cr3 ?_ ?_).leaf_of_ok h⟩
      · exact fun e => large e _ (by omega)
      · exact fun e => small e 0
    | false =>
      rw [hpae] at h
      refine ⟨fun _ _ => (walk2_result (fun a => a.toNat < 2 ^ 32) g _ cr3 ?_ ?_).leaf_of_ok h, by simp⟩
      · exact fun e => frame_or_offset_lt (toNat_and_lt (by decide)) (slice_lt (by omega))
      · exact fun e => frame_or_offset_lt (toNat_and_lt (by decide)) (slice_lt (by omega))

/-! ### The two permission scopes

The two walks of one translation read the same entries. As long as `PerLevelInOrder` has refused none of those it has
reached, they go on alike; once it has, `Combined` goes on and can only fail, with the same fault or at a later entry. -/

/-- The walk q under `Combined` (R170). -/
def Walk.combined (q : Walk) : Walk := { q with scope := .combined }

/-- The walk q under `PerLevelInOrder` (R171). -/
def Walk.inOrder (q : Walk) : Walk := { q with scope := .perLevelInOrder }

/-- The walk ends at an entry that is absent or cannot be read. -/
def Walk.FailsLater (q : Walk) (c : Except (Raised E) Quad) : Prop :=
  c = q.fault false ∨ ∃ m, c = .error (.memError m)

/-- What is left of the two walks, the entries `es` having been reached: they agree unless a later entry fails, and if
one of `es` breaks a right then `Combined` ends with the rights fault or at a later entry (R171). -/
structure Walk.Scopes (q : Walk) (nx : Bool) (es : List Quad) (c o : Except (Raised E) Quad) : Prop where
  passed : q.denied es nx = false → c = o ∨ (o = q.fault true ∧ q.FailsLater c)
  denied : q.denied es nx = true → c = q.fault true ∨ q.FailsLater c

/-- The rights of a list of entries, the last one reached taken apart (R158). -/
theorem Walk.denied_concat (q : Walk) (es : List Quad) (x : Quad) (nx : Bool) :
    q.denied (es ++ [x]) nx = (q.denied es nx || q.denied [x] nx) := by
  induction es with
  | nil => rw [List.nil_append, Walk.denied_nil, Bool.false_or]
  | cons e es ih => rw [List.cons_append, q.denied_cons e (es ++ [x]), ih, q.denied_cons e es, Bool.or_assoc]

section
variable {q : Walk} {nx : Bool} {es : List Quad}

/-- Both walks read the same entry (R157). -/
theorem Walk.Scopes.entry {g : GuestMem E} {pa : Quad} {n : Nat} {f f' : Quad → Except (Raised E) Quad}
    (h : ∀ x, q.Scopes nx es (f x) (f' x)) : q.Scopes nx es (readEntry g pa n >>= f) (readEntry g pa n >>= f') := by
  rw [readEntry_eq]
  cases g.failure pa.toNat n with
  | none => exact h _
  | some m => exact ⟨fun _ => .inl rfl, fun _ => .inr (.inr ⟨m, rfl⟩)⟩

/-- An entry without rights is tested for presence in both (R170). -/
theorem Walk.Scopes.present {x : Quad} {f f' : Unit → Except (Raised E) Quad} (h : q.Scopes nx es (f ()) (f' ())) :
    q.Scopes nx es (q.combined.present x >>= f) (q.inOrder.present x >>= f') := by
  unfold Walk.present
  cases flag x 0 with
  | true => exact h
  | false => exact ⟨fun _ => .inl rfl, fun _ => .inr (.inl rfl)⟩

/-- An entry with rights joins those reached; only `PerLevelInOrder` may refuse it here (R170, R171). -/
theorem Walk.Scopes.visit {x : Quad} {f f' : Unit → Except (Raised E) Quad}
    (h : q.Scopes nx (es ++ [x]) (f ()) (f' ())) :
    q.Scopes nx es (q.combined.visit x nx >>= f) (q.inOrder.visit x nx >>= f') := by
  obtain ⟨hpassed, hdenied⟩ := h
  rw [q.denied_concat] at hpassed hdenied
  rw [Walk.visit_eq, Walk.visit_eq]
  cases flag x 0 with
  | false => exact ⟨fun _ => .inl rfl, fun _ => .inr (.inl rfl)⟩
  | true =>
    refine ⟨fun hes => ?_, fun hes => hdenied (by rw [hes, Bool.true_or])⟩
    have hx : q.inOrder.denied [x] nx = q.denied [x] nx := rfl
    rw [hx]
    cases hd : q.denied [x] nx with
    | false => exact hpassed (by rw [hes, hd]; rfl)
    | true =>
      obtain hc | hc := hdenied (by rw [hd, Bool.or_true])
      · exact .inl hc
      · exact .inr ⟨rfl, hc⟩

/-- The mapping level: `Combined` tests the rights of all entries reached (R170, R171). -/
theorem Walk.Scopes.arrive {a : Quad} :
    q.Scopes (E := E) nx es (q.combined.arrive es nx >>= fun _ => .ok a) (q.inOrder.arrive es nx >>= fun _ => .ok a) := by
  have hes : q.combined.denied es nx = q.denied es nx := rfl
  rw [Walk.arrive_eq, Walk.arrive_eq, hes]
  cases hd : q.denied es nx with
  | false => exact ⟨fun _ => .inl rfl, fun h => absurd (hd.symm.trans h) (by decide)⟩
  | true => exact ⟨fun h => absurd (hd.symm.trans h) (by decide), fun _ => .inl rfl⟩

/-- The page-size bit selects alike in both. -/
theorem Walk.Scopes.ite {b : Bool} {c o c' o' : Except (Raised E) Quad} (h : q.Scopes nx es c o)
    (h' : q.Scopes nx es c' o') : q.Scopes nx es (if b then c else c') (if b then o else o') := by
  cases b with
  | true => exact h
  | false => exact h'

end

/-- The 2-level walks of one translation. -/
theorem walk2_scopes (g : GuestMem E) (q : Walk) (cr3 : Quad) :
    q.Scopes false [] (walk2 g q.combined cr3) (walk2 g q.inOrder cr3) :=
  .entry fun _ => .visit (.ite .arrive (.entry fun _ => .visit .arrive))

/-- The PAE walks of one translation. -/
theorem walkPae_scopes (p : Params) (g : GuestMem E) (q : Walk) (cr3 : Quad) :
    q.Scopes true [] (walkPae p g q.combined cr3) (walkPae p g q.inOrder cr3) :=
  .entry fun _ => .present (.entry fun _ => .visit (.ite .arrive (.entry fun _ => .visit .arrive)))

/-- The 4-level walks of one translation. -/
theorem walk4_scopes (p : Params) (g : GuestMem E) (q : Walk) (cr3 : Quad) :
    q.Scopes true [] (walk4 p g q.combined cr3) (walk4 p g q.inOrder cr3) :=
  .entry fun _ => .visit (.entry fun _ => .visit (.ite .arrive (.entry fun _ => .visit (.ite .arrive
    (.entry fun _ => .visit .arrive)))))

/-- The two scopes agree, or `PerLevelInOrder` reports a rights fault and `Combined` fails later (R171). -/
theorem translate_scopes (p : Params) (g : GuestMem E) (la : Quad) (kind : AccessKind) (cpl : BitVec 2)
    (cfg : TransCfg) (cr3 : Quad) :
    let q := Walk.start p la kind cpl cfg
    let c := translate { p with permScope := .combined } g la kind cpl cfg cr3
    let o := translate { p with permScope := .perLevelInOrder } g la kind cpl cfg cr3
    c = o ∨ (o = q.fault true ∧ q.FailsLater c) := by
  intro q c o
  simp only [c, o, translate_eq_walk]
  cases cfg.long with
  | true => exact (walk4_scopes p g q cr3).passed (q.denied_nil true)
  | false =>
    cases cfg.pae with
    | true => exact (walkPae_scopes p g q cr3).passed (q.denied_nil true)
    | false => exact (walk2_scopes g q cr3).passed (q.denied_nil false)

/-- Settles O22: where the scopes differ both fail, the one with a rights fault and the other at a later entry. -/
theorem permissionScopesAgreeUnlessALaterLevelFails : Obligations.PermissionScopesAgreeUnlessALaterLevelFails := by
  unfold Obligations.PermissionScopesAgreeUnlessALaterLevelFails
  intro E p g la kind cpl cfg cr3 c o
  have code (b : Bool) := errorCode_getLsbD kind (isUser cpl) cfg b 0
  obtain heq | ⟨ho, hc⟩ : c = o ∨ _ := translate_scopes p g la kind cpl cfg cr3
  · exact ⟨fun a => by rw [heq], fun hne => absurd heq hne⟩
  · have hc' : (∃ ec, c = .error (.pageFault la ec) ∧ ec.getLsbD 0 = false) ∨ ∃ e, c = .error (.memError e) :=
      hc.imp_left fun h => ⟨_, h, code false⟩
    refine ⟨fun a => ⟨fun h => ?_, fun h => ?_⟩, fun _ => ⟨⟨_, ho, code true⟩, hc'⟩⟩
    · obtain ⟨ec, h', -⟩ | ⟨e, h'⟩ := hc' <;> cases h.symm.trans h'
    · cases h.symm.trans ho

/-! ### Where a failure of the accessor ends a walk -/

/-- The entry a walker reads at an address (R157). -/
def entryAt (g : GuestMem E) (n : Nat) (a : Quad) : Quad := BitVec.ofNat 64 (g.cells.readLE a.toNat n)

/-- The entry at an address has been read and is present (R170). -/
def EntryPresent (g : GuestMem E) (n : Nat) (a : Quad) : Prop :=
  g.failure a.toNat n = none ∧ (entryAt g n a).getLsbD 0 = true

/-- The entry is present and `PerLevelInOrder` does not refuse it, `denied` being its rights test (R170, R171). -/
def EntryPassed (g : GuestMem E) (n : Nat) (scope : PermScope) (denied : Quad → Bool) (a : Quad) : Prop :=
  EntryPresent g n a ∧ ¬ (scope = .perLevelInOrder ∧ denied (entryAt g n a) = true)

section
variable {q : Walk} {nx : Bool} {denied : Quad → Bool} {g : GuestMem E} {n : Nat} {e : E} {a : Quad} {K : Prop}

/-- An entry without rights: its read fails with e, or it is present and what follows fails (R170). -/
theorem memError_entry_present {f : Quad → Except (Raised E) Quad}
    (h : f (entryAt g n a) = .error (.memError e) ↔ K) :
    (readEntry g a n >>= fun x => q.present x >>= fun _ => f x) = .error (.memError e) ↔
      g.failure a.toNat n = some e ∨ (EntryPresent g n a ∧ K) := by
  rw [readEntry_bind_memError, Walk.present_bind_memError, ← h, ← and_assoc]
  rfl

/-- An entry with rights: its read fails with e, or it is passed and what follows fails (R170, R171). -/
theorem memError_entry (hq : ∀ x, q.denied [x] nx = denied x) {f : Quad → Except (Raised E) Quad}
    (h : f (entryAt g n a) = .error (.memError e) ↔ K) :
    (readEntry g a n >>= fun x => q.visit x nx >>= fun _ => f x) = .error (.memError e) ↔
      g.failure a.toNat n = some e ∨ (EntryPassed g n q.scope denied a ∧ K) := by
  rw [readEntry_bind_memError, Walk.visit_bind_memError, hq, ← h, ← and_assoc, ← and_assoc]
  rfl

/-- A large page's mapping does not fail, so past the page-size bit only the next level can (R156, R161, R166). -/
theorem memError_page {b : Bool} {es : List Quad} {pa : Quad} {y : Except (Raised E) Quad}
    (h : y = .error (.memError e) ↔ K) :
    (if b then (q.arrive es nx >>= fun _ => .ok pa) else y) = .error (.memError e) ↔ b = false ∧ K := by
  cases b with
  | true => exact (q.arrive_bind_memError es nx pa e).trans (by simp)
  | false => exact h.trans (by simp)

/-- An entry that may map a large page by its bit 7 (R161, R166). -/
theorem memError_table (hq : ∀ x, q.denied [x] nx = denied x) {es : Quad → List Quad} {pa : Quad → Quad}
    {f : Quad → Except (Raised E) Quad} (h : f (entryAt g n a) = .error (.memError e) ↔ K) :
    (readEntry g a n >>= fun x => q.visit x nx >>= fun _ =>
      if flag x 7 then (q.arrive (es x) nx >>= fun _ => .ok (pa x)) else f x) = .error (.memError e) ↔
      g.failure a.toNat n = some e
        ∨ ((EntryPassed g n q.scope denied a ∧ (entryAt g n a).getLsbD 7 = false) ∧ K) := by
  rw [and_assoc]
  exact memError_entry hq (memError_page h)

/-- The last level fails only by its read. -/
theorem memError_leaf (hq : ∀ x, q.denied [x] nx = denied x) {es : Quad → List Quad} {pa : Quad → Quad} :
    (readEntry g a n >>= fun x => q.visit x nx >>= fun _ => q.arrive (es x) nx >>= fun _ => .ok (pa x)) =
      .error (.memError e) ↔ g.failure a.toNat n = some e :=
  (memError_entry hq (q.arrive_bind_memError _ nx _ e)).trans (by simp)

end

/-- The rights test of one entry, as the statements write it: the execute-disable bit counts in the 8-byte formats
(R158). -/
theorem Walk.start_denied_one {p : Params} {la : Quad} {kind : AccessKind} {cpl : BitVec 2} {cfg : TransCfg}
    (wide : Bool) (x : Quad) :
    (Walk.start p la kind cpl cfg).denied [x] wide =
      ((cpl == 3 && !x.getLsbD 2)
        || (decide (kind = .write) && !x.getLsbD 1 && (cpl == 3 || cfg.wp))
        || (wide && decide (kind = .execute) && cfg.nxe && x.getLsbD 63)) := by
  have hx : (wide && decide (kind = .execute) && cfg.nxe && x.getLsbD 63) =
      (decide (kind = .execute) && (cfg.nxe && (wide && x.getLsbD 63))) := by
    cases wide <;> simp [Bool.and_assoc]
  simp only [hx, Walk.denied, Walk.start, isUser, flag, List.any_cons, List.any_nil, Bool.or_false]
  rfl

/-- A step that follows a linear read and cannot fail leaves the read's failures (R70). -/
theorem bind_ok_eq_error_iff {α β : Type} {r : Except (Raised E) α} {f : α → β} {e : Raised E} :
    (r >>= fun x => .ok (f x)) = .error e ↔ r = .error e := by
  cases r with
  | ok x => exact ⟨nofun, nofun⟩
  | error x => simp [bind, Except.bind]

/-- In real mode a linear read uses no translation context (R70). -/
theorem linRead_real (p : Params) (g : GuestMem E) (tc tc' : TransCtx) (la : Quad) (n : Nat) :
    linRead p g .real tc la n = linRead p g .real tc' la n := by
  have hbytes : linBytes p g .real tc la n = linBytes p g .real tc' la n := by
    induction n generalizing la with
    | zero => rfl
    | succ n ih =>
      rw [linBytes_eq_linByte, linBytes_eq_linByte, ih]
      rfl
  rw [linRead, linRead, hbytes]

section
variable {p : Params} {g : GuestMem E} {v : Byte} {base : Quad} {limit : Half} {e : E}

/-- The real-mode resolver fails exactly where its read does (R370). -/
theorem resolveReal_memError (tc : TransCtx) :
    resolveReal p g v base = .error (.memError e) ↔
      linRead p g .real tc (BitVec.ofNat 64 ((base.toNat + 4 * v.toNat) % 2 ^ 32)) 4 = .error (.memError e) := by
  rw [resolveReal, bind_ok_eq_error_iff, gateAddr_eq, linRead_real p g noPaging tc]
  rfl

/-- The protected-mode resolver fails exactly where, within the limit, its read does (R375). -/
theorem resolveProt_memError (tc : TransCtx) :
    resolveProt p g v base limit tc = .error (.memError e) ↔
      v.toNat * 8 + 7 ≤ limit.toNat
      ∧ linRead p g .prot tc (BitVec.ofNat 64 ((base.toNat + 8 * v.toNat) % 2 ^ 32)) 8 = .error (.memError e) := by
  by_cases h : v.toNat * 8 + 7 ≤ limit.toNat
  · refine ⟨fun hr => ⟨h, ?_⟩, fun ⟨_, hread⟩ => resolveProt_of_failing h hread⟩
    cases hread : linRead p g .prot tc (BitVec.ofNat 64 ((base.toNat + 8 * v.toNat) % 2 ^ 32)) 8 with
    | error x =>
      cases (resolveProt_of_failing h hread).symm.trans hr
      rfl
    | ok q =>
      rw [resolveProt_of_entry h hread] at hr
      cases hg : protGateOf q <;> simp [hg] at hr
  · rw [resolveProt_past_limit (by omega)]
    exact ⟨nofun, fun ⟨hle, _⟩ => absurd hle h⟩

/-- The long-mode resolver fails exactly where, within the limit, the first failing of its two reads does (R380). -/
theorem resolveLong_memError (tc : TransCtx) :
    resolveLong p g v base limit tc = .error (.memError e) ↔
      v.toNat * 16 + 15 ≤ limit.toNat
      ∧ (linRead p g .long tc (base + BitVec.ofNat 64 (16 * v.toNat)) 8 = .error (.memError e)
        ∨ ∃ q, linRead p g .long tc (base + BitVec.ofNat 64 (16 * v.toNat)) 8 = .ok q
          ∧ linRead p g .long tc (base + BitVec.ofNat 64 (16 * v.toNat) + 8) 8 = .error (.memError e)) := by
  by_cases h : v.toNat * 16 + 15 ≤ limit.toNat
  · refine ⟨fun hr => ⟨h, ?_⟩, fun ⟨_, hread⟩ => resolveLong_of_failing h hread⟩
    cases h0 : linRead p g .long tc (base + BitVec.ofNat 64 (16 * v.toNat)) 8 with
    | error x =>
      cases (resolveLong_of_failing h (.inl h0)).symm.trans hr
      exact .inl rfl
    | ok q0 =>
      refine .inr ⟨q0, rfl, ?_⟩
      cases h1 : linRead p g .long tc (base + BitVec.ofNat 64 (16 * v.toNat) + 8) 8 with
      | error x =>
        cases (resolveLong_of_failing h (.inr ⟨q0, h0, h1⟩)).symm.trans hr
        rfl
      | ok q1 =>
        rw [resolveLong_of_entry h h0 h1] at hr
        cases hg : longGateOf q0 q1 <;> simp [hg] at hr
  · rw [resolveLong_past_limit (by omega)]
    exact ⟨nofun, fun ⟨hle, _⟩ => absurd hle h⟩

end

/-- Settles O26: walker by walker, each read fails or is passed, and nothing else fails with e; then the resolvers. -/
theorem accessorFailuresArePropagatedWhateverTheirType :
    Obligations.AccessorFailuresArePropagatedWhateverTheirType := by
  unfold Obligations.AccessorFailuresArePropagatedWhateverTheirType
  intro E p g e
  refine ⟨?_, fun v base tc => resolveReal_memError tc, fun v base limit tc => resolveProt_memError tc,
    fun v base limit tc => resolveLong_memError tc⟩
  intro la kind cpl cfg cr3
  have hq (wide : Bool) := Walk.start_denied_one (p := p) (la := la) (kind := kind) (cpl := cpl) (cfg := cfg) wide
  rw [translate_eq_walk]
  obtain ⟨pae, long, pse, wp, nxe⟩ := cfg
  cases long with
  | true =>
    exact memError_entry (hq true) (memError_table (hq true) (memError_table (hq true) (memError_leaf (hq true))))
  | false =>
    cases pae with
    | true => exact memError_entry_present (memError_table (hq true) (memError_leaf (hq true)))
    | false => exact memError_entry (hq false) (memError_page (memError_leaf (hq false)))

end Sys2Proof.Machine
end

section
/-! PROOF. The block of the slave by the cascade line's service (O35, 42_pic.md), and the periods of the timer's modes
2, 3 and 0 (O42 to O44, 43_pit.md).

A period is proved through what channel 0 holds after e clocks, for every e: if each clock leads from there to what it
holds after e + 1 clocks and reports the edge of clock e + 1, the whole run is read off. -/

namespace Sys2Proof.Machine

/-! ### The slave's block -/

/-- A line in service is not eligible (R228). -/
theorem PicChip.lowest_eligible_ne_of_isr (x : PicChip) {n : Nat} (h : x.isr.getLsbD n = true) :
    lowest x.eligible ≠ some n := by
  intro hlow
  obtain ⟨⟨-, -, -, hisr⟩, -⟩ := (x.lowest_eligible n).1 hlow
  rw [h] at hisr
  exact Bool.noConfusion hisr

/-- Settles O35: the slave is asked only where the master's lowest eligible line is 2, which is in service. -/
theorem slaveIsBlockedWhileMasterLine2IsInService : Obligations.SlaveIsBlockedWhileMasterLine2IsInService := by
  unfold Obligations.SlaveIsBlockedWhileMasterLine2IsInService
  intro s t n v hisr hexec hreply
  cases hexec
  have hr : s.pic.resolve = some (n, v) := Reply.line.inj hreply
  have hne := s.pic.m.lowest_eligible_ne_of_isr hisr
  obtain ⟨-, hnone⟩ | ⟨b, hb, -, hsome⟩ | ⟨h2, -⟩ | ⟨k, h2, -⟩ := s.pic.resolve_eq
  · rw [hnone] at hr
    cases hr
  · cases hsome.symm.trans hr
    exact ((s.pic.m.lowest_eligible n).1 hb).1.1
  · exact absurd h2 hne
  · exact absurd h2 hne

/-! ### Runs of clocks -/

/-- A run whose channel 0 holds `Holds e` after e clocks, each clock e + 1 reporting `edge (e + 1)`. -/
theorem tickRun_eq_map {Holds : Nat → PitChannel → Prop} {edge : Nat → Bool}
    (hclock : ∀ e ch, Holds e ch → ch.tick.2 = edge (e + 1) ∧ Holds (e + 1) ch.tick.1) (k : Nat) :
    ∀ (e : Nat) (t : Pit), Holds e t.ch0 → (tickRun k t).2 = (List.range k).map (fun j => edge (e + j + 1)) := by
  induction k with
  | zero => intro e t _; rfl
  | succ k ih =>
    intro e t h
    obtain ⟨hedge, hnext⟩ := hclock e t.ch0 h
    rw [tickRun_succ, hedge, ih (e + 1) t.tick hnext, List.range_succ_eq_map, List.map_cons, List.map_map]
    refine congrArg (edge (e + 1) :: ·) (List.map_congr_left fun j _ => congrArg edge ?_)
    omega

/-- The count a 16-bit value stands for: 0 is 65536 (R274, R276). -/
def countOf (x : Half) : Nat := if x = 0 then 65536 else x.toNat

theorem countOf_pos (x : Half) : 0 < countOf x := by
  unfold countOf
  split
  · omega
  · next h => exact Nat.pos_of_ne_zero fun h0 => h (BitVec.eq_of_toNat_eq h0)

theorem countOf_le (x : Half) : countOf x ≤ 65536 := by
  have := x.isLt
  unfold countOf
  split <;> omega

theorem ofNat_countOf (x : Half) : BitVec.ofNat 16 (countOf x) = x := by
  unfold countOf
  split
  · next h => rw [h]; rfl
  · exact BitVec.eq_of_toNat_eq (by simp)

/-- The channel counts, in the given mode and with the given reload value. -/
structure PitChannel.Counts (ch : PitChannel) (mode : PitMode) (reload : Half) : Prop where
  mode    : ch.mode = mode
  enabled : ch.enabled = true
  gate    : ch.gate = true
  reload  : ch.reload = reload

/-- A clock leaves a counting channel counting (R270). -/
theorem PitChannel.Counts.tick {ch : PitChannel} {mode : PitMode} {reload : Half} (h : ch.Counts mode reload) :
    ch.tick.1.Counts mode reload := by
  rw [ch.tick_frame]
  exact ⟨h.mode, h.enabled, h.gate, h.reload⟩

/-- One more clock, at the end of a period of n clocks. -/
theorem succ_mod_of_last {e n : Nat} (h : e % n + 1 = n) : (e + 1) % n = 0 := by
  rw [← Nat.mod_add_mod, h, Nat.mod_self]

/-- One more clock, inside a period of n clocks. -/
theorem succ_mod_of_not_last {e n : Nat} (hn : 0 < n) (h : e % n + 1 ≠ n) : (e + 1) % n = e % n + 1 := by
  have := Nat.mod_lt e hn
  rw [← Nat.mod_add_mod, Nat.mod_eq_of_lt (by omega)]

/-! ### Mode 2 -/

/-- Mode 2 after e clocks: the counter is as far below the count as clocks have passed since the last reload (R274). -/
structure PitChannel.RateAt (r : Half) (e : Nat) (ch : PitChannel) : Prop extends ch.Counts .m2 r where
  counter : ch.counter = BitVec.ofNat 16 (countOf r - e % countOf r)

/-- One clock of mode 2: the edge, and the reload, where the count divides the clocks passed (R274). -/
theorem PitChannel.RateAt.clock {r : Half} (e : Nat) (ch : PitChannel) (h : RateAt r e ch) :
    ch.tick.2 = decide ((e + 1) % countOf r = 0) ∧ RateAt r (e + 1) ch.tick.1 := by
  obtain ⟨hc, hcounter⟩ := h
  have hpos := countOf_pos r
  have hle := countOf_le r
  have hlt := Nat.mod_lt e hpos
  have hone : ch.counter = 1 ↔ e % countOf r + 1 = countOf r := by
    rw [hcounter, ← BitVec.toNat_inj, BitVec.toNat_ofNat, show (1 : Half).toNat = 1 from rfl]
    omega
  by_cases hlast : e % countOf r + 1 = countOf r
  · have hmod : (e + 1) % countOf r = 0 := succ_mod_of_last hlast
    have htick := PitChannel.tick_m2_reload hc.enabled hc.gate hc.mode (hone.2 hlast)
    refine ⟨by rw [htick, hmod]; rfl, hc.tick, ?_⟩
    rw [htick, hmod, Nat.sub_zero, ofNat_countOf]
    exact hc.reload
  · have hmod : (e + 1) % countOf r = e % countOf r + 1 := succ_mod_of_not_last hpos hlast
    have htick := PitChannel.tick_m2_count hc.enabled hc.gate hc.mode (fun h => hlast (hone.1 h))
    refine ⟨by rw [htick, hmod]; rfl, hc.tick, ?_⟩
    rw [htick, hmod, hcounter]
    apply BitVec.eq_of_toNat_eq
    rw [half_pred, BitVec.toNat_ofNat, BitVec.toNat_ofNat]
    omega

/-- Settles O42: a reload every count, from a counter just reloaded. -/
theorem rateGeneratorPeriod : Obligations.RateGeneratorPeriod := by
  unfold Obligations.RateGeneratorPeriod
  intro t k hmode henabled hgate hcounter N
  have hstart : PitChannel.RateAt t.ch0.reload 0 t.ch0 :=
    ⟨⟨hmode, henabled, hgate, rfl⟩, by rw [Nat.zero_mod, Nat.sub_zero, ofNat_countOf, hcounter]⟩
  have hrun := tickRun_eq_map (edge := fun e => decide (e % N = 0)) PitChannel.RateAt.clock k 0 t hstart
  simpa only [Nat.zero_add] using hrun

/-! ### Mode 3 -/

/-- The clocks of half a period of mode 3: an odd count loses its last clock, 1 takes one clock and 0 is 65536
(R276). -/
def halfPeriod (r : Half) : Nat := if r = 0 then 32768 else if r = 1 then 1 else r.toNat / 2

/-- Half a period counted by two leaves at most 3 of the count, and at least 1. -/
theorem halfPeriod_bounds (r : Half) :
    0 < halfPeriod r ∧ countOf r ≤ 2 * halfPeriod r + 1 ∧ (halfPeriod r = 1 ∨ 2 * halfPeriod r ≤ countOf r) := by
  unfold halfPeriod countOf
  by_cases h0 : r = 0
  · simp [h0]
  · by_cases h1 : r = 1
    · simp [h1]
    · have hne0 : r.toNat ≠ 0 := fun h => h0 (BitVec.eq_of_toNat_eq h)
      have hne1 : r.toNat ≠ 1 := fun h => h1 (BitVec.eq_of_toNat_eq h)
      simp only [h0, h1, if_false]
      omega

/-- Mode 3 after e clocks: the counter is twice the clocks of this half period below the count, and the output is high
in every other half (R276). -/
structure PitChannel.SquareAt (r : Half) (e : Nat) (ch : PitChannel) : Prop extends ch.Counts .m3 r where
  counter : ch.counter = BitVec.ofNat 16 (countOf r - 2 * (e % halfPeriod r))
  out     : ch.out = decide (e / halfPeriod r % 2 = 0)

/-- One clock of mode 3: the output turns at the end of a half period, and its rise is the edge (R276, R279). -/
theorem PitChannel.SquareAt.clock {r : Half} (e : Nat) (ch : PitChannel) (h : SquareAt r e ch) :
    ch.tick.2 = decide ((e + 1) % (halfPeriod r * 2) = 0) ∧ SquareAt r (e + 1) ch.tick.1 := by
  obtain ⟨hc, hcounter, hout⟩ := h
  obtain ⟨hpos, hupper, hlower⟩ := halfPeriod_bounds r
  have hcpos := countOf_pos r
  have hcle := countOf_le r
  have hlt := Nat.mod_lt e hpos
  have hnat : ch.counter.toNat = (countOf r - 2 * (e % halfPeriod r)) % 65536 := by
    rw [hcounter, BitVec.toNat_ofNat]
  rw [Nat.mod_mul]
  by_cases hlast : e % halfPeriod r + 1 = halfPeriod r
  · have hmod := succ_mod_of_last hlast
    have hdiv : (e + 1) / halfPeriod r = e / halfPeriod r + 1 := by
      rw [Nat.succ_div, if_pos (Nat.dvd_of_mod_eq_zero hmod)]
    have htick := PitChannel.tick_m3_toggle hc.enabled hc.gate hc.mode (by omega) (by omega)
    have hturn : (!ch.out) = decide ((e / halfPeriod r + 1) % 2 = 0) := by
      rw [hout, ← decide_not, decide_eq_decide]
      omega
    refine ⟨?_, hc.tick, ?_, ?_⟩
    · simp only [htick, hturn, hmod, hdiv, Nat.zero_add, Nat.mul_eq_zero, Nat.ne_of_gt hpos, false_or]
    · rw [htick, hmod, Nat.mul_zero, Nat.sub_zero, ofNat_countOf]
      exact hc.reload
    · rw [htick, hdiv]
      exact hturn
  · have hmod := succ_mod_of_not_last hpos hlast
    have hdiv : (e + 1) / halfPeriod r = e / halfPeriod r := by
      rw [Nat.succ_div, if_neg (fun hd => by simp [Nat.mod_eq_zero_of_dvd hd] at hmod), Nat.add_zero]
    -- the new counter stays a variable, so that nothing unfolds the sum it is
    obtain ⟨x, hx, htick⟩ : ∃ x, x = BitVec.ofNat 16 (ch.counter.toNat + 65534)
        ∧ ch.tick = ({ ch with counter := x }, false) :=
      ⟨_, rfl, PitChannel.tick_m3_count hc.enabled hc.gate hc.mode (by omega)⟩
    refine ⟨?_, hc.tick, ?_, ?_⟩
    · rw [htick, hmod, decide_eq_false (by omega)]
    · rw [htick, hmod]
      show x = _
      apply BitVec.eq_of_toNat_eq
      rw [hx, BitVec.toNat_ofNat, BitVec.toNat_ofNat, hnat]
      omega
    · rw [htick, hdiv]
      exact hout

/-- Settles O43: the period is two halves. -/
theorem squareWavePeriod : Obligations.SquareWavePeriod := by
  unfold Obligations.SquareWavePeriod
  intro t k hmode henabled hgate hcounter hout T
  have hT : T = halfPeriod t.ch0.reload * 2 := by
    simp only [T, halfPeriod]
    split_ifs <;> rfl
  have hstart : PitChannel.SquareAt t.ch0.reload 0 t.ch0 :=
    ⟨⟨hmode, henabled, hgate, rfl⟩, by rw [Nat.zero_mod, Nat.mul_zero, Nat.sub_zero, ofNat_countOf, hcounter],
      by rw [Nat.zero_div, hout]; rfl⟩
  have hrun := tickRun_eq_map (edge := fun e => decide (e % (halfPeriod t.ch0.reload * 2) = 0))
    PitChannel.SquareAt.clock k 0 t hstart
  simpa only [hT, Nat.zero_add] using hrun

/-! ### Mode 0 -/

/-- Mode 0 after e clocks: the counter has gone down by one at each, modulo 2^16, and the output is high from the
count on (R272). -/
structure PitChannel.TerminalAt (r : Half) (e : Nat) (ch : PitChannel) : Prop extends ch.Counts .m0 r where
  counter : ch.counter = r - BitVec.ofNat 16 e
  out     : ch.out = decide (countOf r ≤ e)

/-- Before the count has passed, the counter is 0 exactly at it. -/
theorem sub_ofNat_eq_zero_iff {r : Half} {e : Nat} (hpos : 0 < e) (h : e ≤ countOf r) :
    r - BitVec.ofNat 16 e = 0 ↔ e = countOf r := by
  have hle := countOf_le r
  have hcpos := countOf_pos r
  have hr : r.toNat = countOf r % 65536 := by
    conv_lhs => rw [← ofNat_countOf r, BitVec.toNat_ofNat]
  rw [sub_eq_zero, ← BitVec.toNat_inj, hr, BitVec.toNat_ofNat]
  omega

/-- One clock of mode 0: the output rises at the count and stays high (R272, R279). -/
theorem PitChannel.TerminalAt.clock {r : Half} (e : Nat) (ch : PitChannel) (h : TerminalAt r e ch) :
    ch.tick.2 = decide (e + 1 = countOf r) ∧ TerminalAt r (e + 1) ch.tick.1 := by
  obtain ⟨hc, hcounter, hout⟩ := h
  have hpred : ch.counter - 1 = r - BitVec.ofNat 16 (e + 1) := by
    rw [hcounter, BitVec.ofNat_add, sub_sub]
    rfl
  have htick := PitChannel.tick_m0_eq hc.enabled hc.gate hc.mode
  have hnext : (ch.out || decide (ch.counter - 1 = 0)) = decide (countOf r ≤ e + 1) := by
    by_cases hpast : countOf r ≤ e
    · simp [hout, hpast, Nat.le_succ_of_le hpast]
    · rw [hout, decide_eq_false hpast, Bool.false_or, hpred, decide_eq_decide,
        sub_ofNat_eq_zero_iff (by omega) (by omega)]
      omega
  refine ⟨?_, hc.tick, ?_, ?_⟩
  · rw [htick, hnext, hout, ← decide_not, ← Bool.decide_and, decide_eq_decide]
    omega
  · rw [htick]
    exact hpred
  · rw [htick]
    exact hnext

/-- Settles O44: the output rises at the count and never falls, so it rises once. -/
theorem terminalCountHasOneEdge : Obligations.TerminalCountHasOneEdge := by
  unfold Obligations.TerminalCountHasOneEdge
  intro t k hmode henabled hgate hcounter hout N
  have hstart : PitChannel.TerminalAt t.ch0.reload 0 t.ch0 :=
    ⟨⟨hmode, henabled, hgate, rfl⟩, by simp [hcounter],
      by rw [hout, decide_eq_false (Nat.not_le.2 (countOf_pos _))]⟩
  have hrun := tickRun_eq_map (edge := fun e => decide (e = countOf t.ch0.reload)) PitChannel.TerminalAt.clock k 0 t
    hstart
  simp only [Nat.zero_add] at hrun
  exact hrun

end Sys2Proof.Machine
end

section
/-! PROOF. Family 20_memory.md and 45_delivery.md: a linear read byte by byte (O55), and the page fault of a resolver
(O60). -/

namespace Sys2Proof.Machine

variable {E : Type}

/-! ### A linear read as the statement writes it -/

/-- Digits in base 256 as a sum, each at its place (R62). -/
theorem ofDigits_range_eq_sum (b : Nat → Nat) (n : Nat) :
    Nat.ofDigits 256 ((List.range n).map b) = ((List.range n).map (fun i => b i * 256 ^ i)).sum := by
  induction n with
  | zero => rfl
  | succ n ih =>
    rw [List.range_succ, List.map_append, List.map_append, Nat.ofDigits_append, List.sum_append, ih]
    simp [Nat.mul_comm]

/-- A sum of up to eight bytes, each at its place, is below 2^64. -/
theorem sum_bytes_lt {b : Nat → Nat} (hb : ∀ i, b i < 256) {n : Nat} (hn : n ≤ 8) :
    ((List.range n).map (fun i => b i * 256 ^ i)).sum < 2 ^ 64 := by
  have hdigits : Nat.ofDigits 256 ((List.range n).map b) < 256 ^ ((List.range n).map b).length :=
    Nat.ofDigits_lt_base_pow_length (by omega) (by simp [hb])
  rw [ofDigits_range_eq_sum, List.length_map, List.length_range] at hdigits
  exact hdigits.trans_le (Nat.pow_le_pow_right (n := 256) (by omega) hn)

/-- The wrapped address of a read's i-th byte (R70, D69). -/
theorem wrapLinear_add (mode : ExecMode) (la : Quad) (i : Nat) :
    wrapLinear mode (la + BitVec.ofNat 64 i) =
      if mode = .long then la + BitVec.ofNat 64 i else BitVec.ofNat 64 ((la.toNat + i) % 2 ^ 32) := by
  rw [wrapLinear_eq]
  split
  · rfl
  · apply BitVec.eq_of_toNat_eq
    simp only [BitVec.toNat_add, BitVec.toNat_ofNat]
    omega

section
variable {p : Params} {g : GuestMem E} {mode : ExecMode} {tc : TransCtx} {la : Quad}

/-- A byte whose address translates is the accessor's (R70). -/
theorem linByte_of_translated {pa : Quad} (h : linearToPhysical p g mode tc (wrapLinear mode la) = .ok pa) :
    linByte p g mode tc la = memRead g pa.toNat 1 := by
  rw [linByte, h]
  rfl

/-- A byte whose address does not translate ends with the translation's outcome (R70). -/
theorem linByte_of_untranslated {e : Raised E} (h : linearToPhysical p g mode tc (wrapLinear mode la) = .error e) :
    linByte p g mode tc la = .error e := by
  rw [linByte, h]
  rfl

/-- A linear read ends as its bytes do (R70). -/
theorem linRead_of_linBytes {n x : Nat} (h : linBytes p g mode tc la n = .ok x) :
    linRead p g mode tc la n = .ok (BitVec.ofNat 64 x) := by
  rw [linRead, h]
  rfl

theorem linRead_error_iff {n : Nat} {e : Raised E} :
    linRead p g mode tc la n = .error e ↔ linBytes p g mode tc la n = .error e := bind_ok_eq_error_iff

end

/-- Settles O55: the outcome of each byte, and the read from the outcomes of its bytes. -/
theorem linearReadGoesByteByByte : Obligations.LinearReadGoesByteByByte := by
  unfold Obligations.LinearReadGoesByteByByte
  intro E p g mode tc la n dest tr
  have htr (i : Nat) : linearToPhysical p g mode tc (wrapLinear mode (la + BitVec.ofNat 64 i)) = tr i := by
    rw [wrapLinear_add, linearToPhysical_eq]
  have hbyte {i : Nat} {pa : Quad} (hpa : tr i = .ok pa) (hok : g.failure pa.toNat 1 = none) :
      linByte p g mode tc (la + BitVec.ofNat 64 i) = .ok (g.cells.byte pa.toNat).toNat :=
    (linByte_of_translated ((htr i).trans hpa)).trans (memRead_byte hok)
  refine ⟨fun pa h => ?_, fun i e hi hbelow hfail => ?_⟩
  · intro sum
    have hread : linBytes p g mode tc la n = .ok sum := by
      rw [linBytes_of_bytes fun i hi => hbyte (h i hi).1 (h i hi).2, ofDigits_range_eq_sum]
    exact ⟨hread, fun hn => ⟨sum_bytes_lt (fun i => BitVec.isLt _) hn, linRead_of_linBytes hread⟩⟩
  · have hlast : linByte p g mode tc (la + BitVec.ofNat 64 i) = .error e := by
      obtain hno | ⟨pa, m, hpa, hm, rfl⟩ := hfail
      · exact linByte_of_untranslated ((htr i).trans hno)
      · exact (linByte_of_translated ((htr i).trans hpa)).trans (memRead_failing hm)
    have hread : linBytes p g mode tc la n = .error e :=
      linBytes_of_failing hi (fun j hj => by
        obtain ⟨pa, hpa, hok⟩ := hbelow j hj
        exact ⟨_, hbyte hpa hok⟩) hlast
    exact ⟨hread, linRead_error_iff.2 hread⟩

/-! ### A supervisor read breaks no right -/

/-- The only page fault a walk that breaks no right ends with is that of an absent entry (R158, R170). -/
def Walk.FaultsAbsent (q : Walk) (r : Except (Raised E) Quad) : Prop :=
  ∀ a ec, r = .error (.pageFault a ec) → ec = errorCode q.kind q.user q.cfg false

section
variable {q : Walk}

theorem Walk.FaultsAbsent.absent : q.FaultsAbsent (E := E) (q.fault false) := by
  rintro a ec ⟨⟩
  rfl

theorem Walk.FaultsAbsent.entry {g : GuestMem E} {pa : Quad} {n : Nat} {f : Quad → Except (Raised E) Quad}
    (h : ∀ x, q.FaultsAbsent (f x)) : q.FaultsAbsent (readEntry g pa n >>= f) := by
  rw [readEntry_eq]
  cases g.failure pa.toNat n with
  | none => exact h _
  | some m => exact nofun

theorem Walk.FaultsAbsent.present {x : Quad} {f : Unit → Except (Raised E) Quad} (h : q.FaultsAbsent (f ())) :
    q.FaultsAbsent (q.present x >>= f) := by
  obtain ⟨-, hp⟩ | ⟨-, hp⟩ := q.present_eq (E := E) x <;> rw [hp]
  · exact h
  · exact .absent

/-- An entry that breaks no right is tested for presence alone (R158, R170). -/
theorem Walk.visit_eq_present {x : Quad} {nx : Bool} (h : q.denied [x] nx = false) :
    (q.visit x nx : Except (Raised E) Unit) = q.present x := by
  rw [Walk.visit_eq, h, Walk.present]
  cases flag x 0 <;> simp

/-- At the mapping level entries that break no right pass (R158, R170). -/
theorem Walk.arrive_eq_ok {es : List Quad} {nx : Bool} (h : q.denied es nx = false) :
    (q.arrive es nx : Except (Raised E) Unit) = .ok () := by
  rw [Walk.arrive_eq, h]
  exact if_neg (by simp)

theorem Walk.FaultsAbsent.visit (hq : ∀ es nx, q.denied es nx = false) {x : Quad} {nx : Bool}
    {f : Unit → Except (Raised E) Quad} (h : q.FaultsAbsent (f ())) : q.FaultsAbsent (q.visit x nx >>= f) := by
  rw [Walk.visit_eq_present (hq [x] nx)]
  exact .present h

theorem Walk.FaultsAbsent.arrive (hq : ∀ es nx, q.denied es nx = false) {es : List Quad} {nx : Bool} {a : Quad} :
    q.FaultsAbsent (E := E) (q.arrive es nx >>= fun _ => .ok a) := by
  rw [Walk.arrive_eq_ok (hq es nx)]
  exact nofun

theorem Walk.FaultsAbsent.ite {b : Bool} {x y : Except (Raised E) Quad} (hx : q.FaultsAbsent x)
    (hy : q.FaultsAbsent y) : q.FaultsAbsent (if b then x else y) := by
  cases b with
  | true => exact hx
  | false => exact hy

end

/-- A walk that breaks no right faults only at an absent entry, whatever the format. -/
theorem translate_faultsAbsent {p : Params} {g : GuestMem E} {la : Quad} {kind : AccessKind} {cpl : BitVec 2}
    {cfg : TransCfg} {cr3 : Quad} (hq : ∀ es nx, (Walk.start p la kind cpl cfg).denied es nx = false) :
    (Walk.start p la kind cpl cfg).FaultsAbsent (translate p g la kind cpl cfg cr3) := by
  rw [translate_eq_walk]
  refine .ite ?_ (.ite ?_ ?_)
  · exact .entry fun _ => .visit hq (.entry fun _ => .visit hq (.ite (.arrive hq) (.entry fun _ => .visit hq
      (.ite (.arrive hq) (.entry fun _ => .visit hq (.arrive hq))))))
  · exact .entry fun _ => .present (.entry fun _ => .visit hq (.ite (.arrive hq) (.entry fun _ => .visit hq
      (.arrive hq))))
  · exact .entry fun _ => .visit hq (.ite (.arrive hq) (.entry fun _ => .visit hq (.arrive hq)))

/-- The error code of a supervisor read of an absent entry (R140). -/
theorem errorCode_supervisor_read_absent (cfg : TransCfg) : errorCode .read (isUser 0) cfg false = 0 := by
  rw [errorCode_bits, fetchBit_read]
  rfl

/-- A page fault of a supervisor read carries the address passed and the code 0 (R140, R158, R173). -/
theorem translate_supervisor_read_pageFault {p : Params} {g : GuestMem E} {la : Quad} {cfg : TransCfg} {cr3 a : Quad}
    {ec : Dword} (h : translate p g la .read 0 cfg cr3 = .error (.pageFault a ec)) : a = la ∧ ec = 0 := by
  have hq (es : List Quad) (nx : Bool) : (Walk.start p la .read 0 cfg).denied es nx = false :=
    Walk.denied_supervisor_read _ es nx rfl rfl
  refine ⟨?_, (translate_faultsAbsent hq a ec h).trans (errorCode_supervisor_read_absent cfg)⟩
  obtain ⟨b, hb⟩ | ⟨m, hm⟩ := translate_error p g la .read 0 cfg cr3 _ h
  · cases hb
    rfl
  · cases hm

/-! ### The page fault of a linear read, and of a resolver -/

/-- The fault is that of a supervisor read of the i-th byte from la on, for an i below n (R70, R386). -/
def FaultOfByte (mode : ExecMode) (tc : TransCtx) (la : Quad) (n : Nat) (a : Quad) (ec : Dword) : Prop :=
  mode ≠ .real ∧ tc.paging = true ∧ ec = 0 ∧ ∃ i, i < n ∧ a = wrapLinear mode (la + BitVec.ofNat 64 i)

section
variable {p : Params} {g : GuestMem E} {mode : ExecMode} {tc : TransCtx} {la a : Quad} {ec : Dword}

/-- The accessor raises no page fault, so a byte's page fault is its translation's (R14, R70). -/
theorem linByte_pageFault (h : linByte p g mode tc la = .error (.pageFault a ec)) :
    mode ≠ .real ∧ tc.paging = true ∧ ec = 0 ∧ a = wrapLinear mode la := by
  cases hpa : linearToPhysical p g mode tc (wrapLinear mode la) with
  | ok pa =>
    rw [linByte_of_translated hpa] at h
    obtain ⟨-, hm⟩ | ⟨m, -, hm⟩ := memRead_eq g pa.toNat 1 <;> cases hm.symm.trans h
  | error e =>
    cases (linByte_of_untranslated hpa).symm.trans h
    rw [linearToPhysical_eq] at hpa
    split at hpa
    · cases hpa
    · next hmode =>
      obtain ⟨ha, hec⟩ := translate_supervisor_read_pageFault hpa
      rw [not_or, Bool.not_eq_false] at hmode
      exact ⟨hmode.1, hmode.2, hec, ha⟩

/-- A page fault of a linear read is that of one of its bytes (R70). -/
theorem linBytes_pageFault {n : Nat} (h : linBytes p g mode tc la n = .error (.pageFault a ec)) :
    FaultOfByte mode tc la n a ec := by
  induction n generalizing la with
  | zero => cases h
  | succ n ih =>
    rw [linBytes_eq_linByte] at h
    cases hb : linByte p g mode tc la with
    | error e =>
      rw [hb] at h
      cases h
      obtain ⟨hmode, hpaging, hec, ha⟩ := linByte_pageFault hb
      exact ⟨hmode, hpaging, hec, 0, by omega, by rw [ha, BitVec.add_zero]⟩
    | ok b =>
      rw [hb] at h
      obtain ⟨hmode, hpaging, hec, i, hi, ha⟩ := ih (bind_ok_eq_error_iff.1 h)
      exact ⟨hmode, hpaging, hec, i + 1, by omega, by rw [ha, quad_add_one_add]⟩

theorem linRead_pageFault {n : Nat} (h : linRead p g mode tc la n = .error (.pageFault a ec)) :
    FaultOfByte mode tc la n a ec := linBytes_pageFault (linRead_error_iff.1 h)

/-- A page fault at an entry's second half is one at the entry. -/
theorem FaultOfByte.of_second_half (h : FaultOfByte mode tc (la + 8) 8 a ec) : FaultOfByte mode tc la 16 a ec := by
  obtain ⟨hmode, hpaging, hec, i, hi, ha⟩ := h
  exact ⟨hmode, hpaging, hec, 8 + i, by omega, by rw [ha, BitVec.ofNat_add, ← BitVec.add_assoc]; rfl⟩

theorem FaultOfByte.of_le {n m : Nat} (h : FaultOfByte mode tc la n a ec) (hn : n ≤ m) :
    FaultOfByte mode tc la m a ec := by
  obtain ⟨hmode, hpaging, hec, i, hi, ha⟩ := h
  exact ⟨hmode, hpaging, hec, i, hi.trans_le hn, ha⟩

end

section
variable {p : Params} {g : GuestMem E} {v : Byte} {base a : Quad} {limit : Half} {tc : TransCtx} {ec : Dword}

/-- The real-mode resolver translates nothing (R370). -/
theorem resolveReal_pageFault : resolveReal p g v base ≠ .error (.pageFault a ec) := by
  intro h
  obtain ⟨hmode, -⟩ := linRead_pageFault (bind_ok_eq_error_iff.1 h)
  exact hmode rfl

/-- A page fault of the protected-mode resolver is that of one of the entry's eight bytes (R375, R386). -/
theorem resolveProt_pageFault (h : resolveProt p g v base limit tc = .error (.pageFault a ec)) :
    FaultOfByte .prot tc (BitVec.ofNat 64 ((base.toNat + 8 * v.toNat) % 2 ^ 32)) 8 a ec := by
  by_cases hlimit : v.toNat * 8 + 7 ≤ limit.toNat
  · cases hread : linRead p g .prot tc (BitVec.ofNat 64 ((base.toNat + 8 * v.toNat) % 2 ^ 32)) 8 with
    | error e =>
      cases (resolveProt_of_failing hlimit hread).symm.trans h
      exact linRead_pageFault hread
    | ok q =>
      rw [resolveProt_of_entry hlimit hread] at h
      cases hg : protGateOf q <;> simp [hg] at h
  · rw [resolveProt_past_limit (by omega)] at h
    cases h

/-- A page fault of the long-mode resolver is that of one of the entry's sixteen bytes (R380, R386). -/
theorem resolveLong_pageFault (h : resolveLong p g v base limit tc = .error (.pageFault a ec)) :
    FaultOfByte .long tc (base + BitVec.ofNat 64 (16 * v.toNat)) 16 a ec := by
  by_cases hlimit : v.toNat * 16 + 15 ≤ limit.toNat
  · cases h0 : linRead p g .long tc (base + BitVec.ofNat 64 (16 * v.toNat)) 8 with
    | error e =>
      cases (resolveLong_of_failing hlimit (.inl h0)).symm.trans h
      exact (linRead_pageFault h0).of_le (by omega)
    | ok q0 =>
      cases h1 : linRead p g .long tc (base + BitVec.ofNat 64 (16 * v.toNat) + 8) 8 with
      | error e =>
        cases (resolveLong_of_failing hlimit (.inr ⟨q0, h0, h1⟩)).symm.trans h
        exact (linRead_pageFault h1).of_second_half
      | ok q1 =>
        rw [resolveLong_of_entry hlimit h0 h1] at h
        cases hg : longGateOf q0 q1 <;> simp [hg] at h
  · rw [resolveLong_past_limit (by omega)] at h
    cases h

end

/-- An operation replies a fault outcome only where what it read ended with it (R12). -/
theorem eq_error_of_replyOf {α : Type} {f : α → Reply} (hf : ∀ x, (f x).isRaised = false) {r : Except Raised α}
    {e : Raised} (h : replyOf f r = .raised e) : r = .error e := by
  cases r with
  | ok x => exact absurd h (Reply.ne_raised (hf x) e)
  | error e' =>
    cases h
    rfl

/-- Settles O60: resolver by resolver, the fault is that of a byte of the entry, at its wrapped address. -/
theorem resolverPageFaultIsASupervisorRead : Obligations.ResolverPageFaultIsASupervisorRead := by
  unfold Obligations.ResolverPageFaultIsASupervisorRead
  intro s t mode v base limit tc a ec hexec hreply
  obtain ⟨hreal, hprot, hlong, -⟩ := resolveSelectsByMode s v base limit tc
  cases mode with
  | real =>
    rw [hreal, exec_dpResolveReal_eq] at hexec
    cases hexec
    exact absurd (eq_error_of_replyOf (fun _ => rfl) hreply) resolveReal_pageFault
  | prot =>
    rw [hprot, exec_dpResolveProt_eq] at hexec
    cases hexec
    obtain ⟨hmode, hpaging, hec, i, hi, ha⟩ := resolveProt_pageFault (eq_error_of_replyOf (fun _ => rfl) hreply)
    refine ⟨hmode, hpaging, hec, i, hi, ?_⟩
    rw [ha, wrapLinear_add]
    apply BitVec.eq_of_toNat_eq
    simp only [reduceCtorEq, if_false, if_true, BitVec.toNat_ofNat]
    omega
  | long =>
    rw [hlong, exec_dpResolveLong_eq] at hexec
    cases hexec
    obtain ⟨hmode, hpaging, hec, i, hi, ha⟩ := resolveLong_pageFault (eq_error_of_replyOf (fun _ => rfl) hreply)
    refine ⟨hmode, hpaging, hec, i, hi, ?_⟩
    rw [ha, wrapLinear_add]
    apply BitVec.eq_of_toNat_eq
    simp only [reduceCtorEq, if_false, if_true, BitVec.toNat_add, BitVec.toNat_ofNat]
    omega

end Sys2Proof.Machine
end
